-- ==== Sys2Proof/Word.lean ====
section
/-! DEFINITION. The word types of the core (spec/10_state.md R21, R31, R37). Every number is unsigned (spec/00_scope.md R10). -/

namespace Sys2Proof

/-- A byte of buffer memory, a symbol, an `INV` entry (R39, R61). -/
abbrev Byte := BitVec 8

/-- A host-visible register, a table field, a stream word (R21, R37). -/
abbrev Word := BitVec 32

/-- The coder state `X`, the accumulators `ACC` and `DACC`, a reciprocal (R31, R37). -/
abbrev DWord := BitVec 64

/-- A cursor: 33 bits, so that base + length = 2^32 is representable (R31). -/
abbrev Cursor := BitVec 33

end Sys2Proof
end

