-- ==== Sys2Proof/Config.lean ====
section
/-! DEFINITION. What is fixed for the machine (spec/00_scope.md R7, R8) and the free values: every value the spec calls unspecified
(spec/93_implementation_defined.md section 2, V1 to V8). MEM_SIZE, the one open parameter (P1), is held in State (log 2). -/

namespace Sys2Proof

/-- `SCALE_BITS` (R7): precision of `REF` and `FAST`. -/
def Config.scaleBits : Nat := 14

/-- `STATE_BITS` (R7): base precision of `FA`. -/
def Config.stateBits : Nat := 14

/-- `ACCURACY_BITS` (R7). -/
def Config.accuracyBits : Nat := 3

/-- `ALL_BITS` (R7): the `FA` state has `ALL_BITS` + 1 bits. -/
def Config.allBits : Nat := 17

/-- `TOTAL_REF` = `TOTAL_FA` = 2^14 (R7, R8, conflict C3). -/
def Config.total : Nat := 16384

/-- `LOWER_BOUND` (R7). -/
def Config.lowerBound : Nat := 2 ^ 31

/-- What a byte of buffer memory that nothing has written reads as.
DESIGN CHOICE (log 3): the spec gives no contents of buffer memory at power-on. Unsafe: a proof could lean on the zero. -/
def Config.unlistedByte : Byte := 0

/-- The place an unspecified value stands in: a working register (V1), an entry of `FREQ` (V2) or `CUM` (V3), a field of `ENC`, `DEC` or an
entry of `INV` (V4, V5, V8), a byte of the destination region (V6), a read of `TDATA` (V7). -/
inductive FreeItem where
  | x | acc | bitpos | wr | rd | dacc | dbits | idx
  | freq (s : Nat)
  | cum (i : Nat)
  | encFreq (s : Nat) | encStart (s : Nat) | encCmplFreq (s : Nat) | encRcp (s : Nat) | encRcpShift (s : Nat) | encBias (s : Nat)
  | encDelta (s : Nat)
  | decStart (s : Nat) | decFreq (s : Nat)
  | inv (k : Nat)
  | dest (i : Nat)
  | tdata
  deriving DecidableEq, Repr

/-- The free values: what stands at `item` the `occasion`-th time something unspecified arises (the counter `fresh` of State). No body, so
nothing is provable of it and a claim holds for every value (log 5). Safe. -/
opaque Config.freeValue (occasion : Nat) (item : FreeItem) : DWord

end Sys2Proof
end

