-- ==== Sys2Proof/Syntax.lean ====
section
/-! DEFINITION. The commands, the host operations and the lines of a host script
(spec/30_encoding.md R94, R98 to R102, R105; spec/10_state.md R21). -/

namespace Sys2Proof

/-- The fourteen commands, one for each row of the opcode map (R94). A command carries no operand (R96). -/
inductive Instr where
  | ftCount | ftNorm
  | tblRef | tblFast | tblFa
  | initRef | initFast | initFa
  | encRef | encFast | encFa
  | decRef | decFast | decFa
  deriving DecidableEq, Repr

/-- The register an index names (R21): `reserved` stands for indices 10 to 15 (R44). -/
inductive Reg where
  | cmd | status | result | aSrc | nSrc | aBuf | nBuf | ftTotal | taddr | tdata | reserved
  deriving DecidableEq, Repr

/-- One host operation (R98, R99, R100, R105): these five are everything the host can do (R106). A register index has 4 bits (R44) and an
address 32 (spec/20_memory.md R61). -/
inductive HostOp where
  | reset
  | regRead (i : BitVec 4)
  | regWrite (i : BitVec 4) (v : Word)
  | memRead (a : Word)
  | memWrite (a : Word) (b : Byte)
  deriving DecidableEq, Repr

/-- One line of a host script as it is written (R101), with the pseudo lines `SRC` and `BUF` (R102). The numbers are those of the text;
WellFormed says which fit. -/
inductive Line where
  | reset
  | wr (reg value : Nat)
  | rd (reg : Nat)
  | command (i : Instr)
  | mem (addr : Nat) (bytes : List Nat)
  | dump (addr n : Nat)
  | src (addr len : Nat)
  | buf (addr len : Nat)
  deriving DecidableEq, Repr

end Sys2Proof
end

