-- ==== Sys2Proof/WellFormed.lean ====
section
/-! DEFINITION. What is well formed. A command has no operand field (spec/30_encoding.md R96), so each of the fourteen is; a host operation
and a script line are when their numbers exist: a register index of 4 bits, a value of 32 bits, an address below MEM_SIZE (R99, R101, R105). -/

namespace Sys2Proof

/-- Every command is well formed: it carries no immediate and no register number (R96). -/
def Instr.WellFormed : Instr → Bool
  | .ftCount | .ftNorm | .tblRef | .tblFast | .tblFa | .initRef | .initFast | .initFa
  | .encRef | .encFast | .encFa | .decRef | .decFast | .decFa => true

/-- A host memory access needs `addr < MEM_SIZE` (R105); the other operations are always permitted (spec/60_exceptions.md R250). -/
def HostOp.WellFormed (memSize : Nat) : HostOp → Bool
  | .reset => true
  | .regRead _ => true
  | .regWrite _ _ => true
  | .memRead a => decide (a.toNat < memSize)
  | .memWrite a _ => decide (a.toNat < memSize)

/-- The numbers of a script line fit what they name (R101, R102). -/
def Line.WellFormed (memSize : Nat) : Line → Bool
  | .reset => true
  | .wr reg value => decide (reg < 16) && decide (value < 2 ^ 32)
  | .rd reg => decide (reg < 16)
  | .command i => i.WellFormed
  | .mem addr bytes => decide (addr + bytes.length ≤ memSize) && bytes.all (fun b => decide (b < 256))
  | .dump addr n => decide (addr + n ≤ memSize)
  | .src addr len => decide (addr < 2 ^ 32) && decide (len < 2 ^ 32)
  | .buf addr len => decide (addr < 2 ^ 32) && decide (len < 2 ^ 32)

end Sys2Proof
end

