-- ==== Sys2Proof/Decode.lean ====
section
/-! DEFINITION. The decoder of the command word, total on 32-bit words and rejecting by name (spec/30_encoding.md R90, R91, R95), the
encoder written from the opcode map (R94), and the register an index names (spec/10_state.md R21, R44). -/

namespace Sys2Proof

/-- Why a command word is illegal (R95). Whatever the reason, the host sees `IllegalCommand`. -/
inductive DecodeError where
  /-- a nonzero bit in 31:8 -/
  | zeroFieldNotZero
  /-- `OP` is 0 or 7 to 15 -/
  | noSuchOperation
  /-- `VAR` is not one the operation has -/
  | noSuchVariant
  deriving DecidableEq, Repr

/-- `ZERO`, bits 31:8 of the command word (R90). -/
def zeroField (w : Word) : BitVec 24 := w.extractLsb' 8 24

/-- `OP`, bits 7:4 (R90). -/
def opField (w : Word) : BitVec 4 := w.extractLsb' 4 4

/-- `VAR`, bits 3:0 (R90). -/
def varField (w : Word) : BitVec 4 := w.extractLsb' 0 4

/-- The command of a pair (`OP`, `VAR`) (R91, R94, R95). -/
def decodeFields : Nat → Nat → Except DecodeError Instr
  | 1, 0 => .ok .ftCount
  | 2, 0 => .ok .ftNorm
  | 3, 1 => .ok .tblRef
  | 3, 2 => .ok .tblFast
  | 3, 3 => .ok .tblFa
  | 4, 1 => .ok .initRef
  | 4, 2 => .ok .initFast
  | 4, 3 => .ok .initFa
  | 5, 1 => .ok .encRef
  | 5, 2 => .ok .encFast
  | 5, 3 => .ok .encFa
  | 6, 1 => .ok .decRef
  | 6, 2 => .ok .decFast
  | 6, 3 => .ok .decFa
  | op, _ => if 1 ≤ op ∧ op ≤ 6 then .error .noSuchVariant else .error .noSuchOperation

/-- The decoder (R91): every word is one of the fourteen commands or illegal. -/
def decode (w : Word) : Except DecodeError Instr :=
  if zeroField w = 0 then decodeFields (opField w).toNat (varField w).toNat
  else .error .zeroFieldNotZero

/-- The pair (`OP`, `VAR`) of a command, the columns of the opcode map (R94). -/
def encodeFields : Instr → BitVec 4 × BitVec 4
  | .ftCount => (1, 0)
  | .ftNorm => (2, 0)
  | .tblRef => (3, 1)
  | .tblFast => (3, 2)
  | .tblFa => (3, 3)
  | .initRef => (4, 1)
  | .initFast => (4, 2)
  | .initFa => (4, 3)
  | .encRef => (5, 1)
  | .encFast => (5, 2)
  | .encFa => (5, 3)
  | .decRef => (6, 1)
  | .decFast => (6, 2)
  | .decFa => (6, 3)

/-- The command word: `ZERO` ++ `OP` ++ `VAR` (R90). -/
def encode (i : Instr) : Word := (0 : BitVec 24) ++ (encodeFields i).1 ++ (encodeFields i).2

/-- The command word whose low `nbits` bits are those of `w` and whose other bits are 0; `none` when the bits do not fit the one 32-bit
format (R90). -/
def commandBits (nbits w : Nat) : Option Word :=
  if w % 2 ^ nbits < 2 ^ 32 then some (BitVec.ofNat 32 (w % 2 ^ nbits)) else none

/-- What the decoder reads from the instruction whose bits are `w`, numbered as the opcode table numbers them (log 14). -/
def decodeTableWord (nbits w : Nat) : Option Instr :=
  match commandBits nbits w with
  | some v => (decode v).toOption
  | none => none

/-- The register an index names (R21, R44). -/
def Reg.ofIndex (i : BitVec 4) : Reg :=
  match i.toNat with
  | 0 => .cmd
  | 1 => .status
  | 2 => .result
  | 3 => .aSrc
  | 4 => .nSrc
  | 5 => .aBuf
  | 6 => .nBuf
  | 7 => .ftTotal
  | 8 => .taddr
  | 9 => .tdata
  | _ => .reserved

end Sys2Proof
end

