-- ==== Sys2Proof/Machine/State.lean ====
section
/-! DEFINITION. The state of the core, its buffer memory and its host, as plain data (spec/10_state.md R20; spec/20_memory.md R61;
spec/70_reset_and_hazards.md R280, R281), and the state after reset (10 R46). -/

namespace Sys2Proof.Machine

/-- What `STATUS.ERR` holds (spec/60_exceptions.md R231): the error of the last completed command. The codes 0 to 8 are those of
`ErrorCode.code`; 9 to 15 never occur (10 R23). -/
inductive ErrorCode where
  /-- 0: the command ran to its end -/
  | none
  /-- 1, R232: a stream write would start below `A_BUF` -/
  | bufferTooSmall
  /-- 2, R233: a stream read would pass the end of the source region -/
  | invalidLength
  /-- 3, R238: the repair pass finds no donor -/
  | degenerateFrequencyTable
  /-- 4, R239: an encode step met a symbol of frequency 0 -/
  | zeroFrequencySymbol
  /-- 5, R241: the first four bytes of an `FA` tail are no terminal word -/
  | malformedStream
  /-- 6, R234: the command word is not one of the fourteen -/
  | illegalCommand
  /-- 7, R235: a region is invalid, the regions overlap, or `FT_TOTAL` is illegal -/
  | badOperand
  /-- 8, R242: the statistics or the table set are not there -/
  | notReady
  deriving DecidableEq, Repr

/-- `SSTATE` (10 R41): value 3 never occurs. -/
inductive SState where
  | invalid | counted | normal
  deriving DecidableEq, Repr

/-- `TVAR` (10 R42). -/
inductive TVar where
  | none | ref | fast | fa
  deriving DecidableEq, Repr

/-- An entry of `ENC` (10 R37), the union of the fields of the three variants. -/
structure EncEntry where
  freq : Word
  start : Word
  cmplFreq : Word
  rcp : DWord
  rcpShift : Word
  bias : Word
  delta : Word
  deriving DecidableEq, Repr

/-- An entry of `DEC` (10 R38). -/
structure DecEntry where
  start : Word
  freq : Word
  deriving DecidableEq, Repr

/-- The working registers (10 R31). -/
structure Work where
  x : DWord
  acc : DWord
  bitpos : BitVec 7
  wr : Cursor
  rd : Cursor
  dacc : DWord
  dbits : BitVec 7
  idx : Cursor
  deriving DecidableEq, Repr

/-- Buffer memory (20 R61): the bytes that differ from `Config.unlistedByte`, by strictly rising address. -/
abbrev Memory := List Host.Cell

/-- The canonical form: addresses strictly rise and no entry equals what an unlisted address reads as. -/
abbrev Memory.wf (m : Memory) : Prop :=
  m.Pairwise (fun c d => c.1 < d.1) ∧ ∀ c ∈ m, c.2 ≠ Config.unlistedByte

/-- Everything the spec gives the core (10 R20), the buffer memory, and the host's side of a run (70 R280). -/
structure State where
  /-- `CMD` (R22) -/
  cmd : Word
  /-- `STATUS[0]` (R23) -/
  busy : Bool
  /-- `STATUS[1]` (R23) -/
  done : Bool
  /-- `STATUS[7:4]` (R23) -/
  err : ErrorCode
  /-- `STATUS[9:8]` (R41) -/
  sstate : SState
  /-- `STATUS[13:12]` (R42) -/
  tvar : TVar
  /-- `RESULT` (R24) -/
  result : Word
  /-- `A_SRC` (R25) -/
  aSrc : Word
  /-- `N_SRC` (R25) -/
  nSrc : Word
  /-- `A_BUF` (R26) -/
  aBuf : Word
  /-- `N_BUF` (R26) -/
  nBuf : Word
  /-- `FT_TOTAL` (R27) -/
  ftTotal : Word
  /-- `TADDR` (R28) -/
  taddr : Word
  /-- the working registers (R31 to R34) -/
  work : Work
  /-- `FREQ` (R35) -/
  freq : Vector Word 256
  /-- `CUM` (R36) -/
  cum : Vector Word 257
  /-- `ENC` (R37) -/
  enc : Vector EncEntry 256
  /-- `DEC` (R38) -/
  dec : Vector DecEntry 256
  /-- `INV` (R39) -/
  inv : Vector Byte 16384
  /-- buffer memory (20 R61) -/
  mem : Memory
  /-- MEM_SIZE - 1, the address of the last byte of buffer memory: the open parameter (00 R9, log 2); no step changes it -/
  memTop : Word
  /-- the model's own: the host operations still to be performed, first one first (70 R281, log 1) -/
  script : List HostOp
  /-- the model's own: the values the host has read, oldest first (30 R98, R105, log 10) -/
  reads : List Word
  /-- the model's own: the occasion number of the next free value (log 5) -/
  fresh : Nat
  deriving DecidableEq, Repr

/-- MEM_SIZE (20 R61): 0 < MEM_SIZE <= 2^32 by its form. -/
def State.memSize (s : State) : Nat := s.memTop.toNat + 1

/-- Why a step stops the machine. No command does: every error of the spec is a next state (60 R244). -/
inductive Fault where
  /-- raised by HostMemRead and HostMemWrite at an address that does not exist, `addr >= MEM_SIZE` (30 R105, log 9). Safe. -/
  | hostAddressOutsideMemory (addr : Word)
  deriving DecidableEq, Repr

/-- Why an instruction has no meaning. -/
inductive Refusal where
  /-- raised by exec's arm of a command that has no meaning yet; no arm of this model does so. Safe. -/
  | notModelled (mnemonic : String)
  deriving DecidableEq, Repr

/-- The values of the working registers in State.reset. DESIGN CHOICE (log 4): the spec says unspecified. Unsafe. -/
def Work.zero : Work :=
  { x := 0, acc := 0, bitpos := 0, wr := 0, rd := 0, dacc := 0, dbits := 0, idx := 0 }

/-- The `ENC` entries of State.reset. DESIGN CHOICE (log 4). Unsafe. -/
def EncEntry.zero : EncEntry :=
  { freq := 0, start := 0, cmplFreq := 0, rcp := 0, rcpShift := 0, bias := 0, delta := 0 }

/-- The `DEC` entries of State.reset. DESIGN CHOICE (log 4). Unsafe. -/
def DecEntry.zero : DecEntry := { start := 0, freq := 0 }

/-- The core right after reset (10 R46) with a buffer memory whose last address is `top`. The host-visible registers and the two flags are
the spec's; the working registers and the tables are the model's zeros (log 4). -/
def State.resetWith (top : Word) : State :=
  { cmd := 0, busy := false, done := false, err := .none, sstate := .invalid, tvar := .none, result := 0,
    aSrc := 0, nSrc := 0, aBuf := 0, nBuf := 0, ftTotal := 16384, taddr := 0,
    work := Work.zero,
    freq := Vector.replicate 256 0, cum := Vector.replicate 257 0,
    enc := Vector.replicate 256 EncEntry.zero, dec := Vector.replicate 256 DecEntry.zero, inv := Vector.replicate 16384 0,
    mem := [], memTop := top, script := [], reads := [], fresh := 0 }

/-- The machine right after reset. DESIGN CHOICE (log 2): MEM_SIZE = 2^32 here; `State.resetWith` gives it any value. -/
def State.reset : State := State.resetWith 0xFFFFFFFF

end Sys2Proof.Machine
end

