-- ==== Sys2Proof/Machine/Flags.lean ====
section
/-! DEFINITION. The flags: the error codes (spec/60_exceptions.md R231) and the STATUS word the host reads (spec/10_state.md R23, R30). There
is no arithmetic flag (R30). -/

namespace Sys2Proof.Machine

/-- The code of an error (60 R231). -/
def ErrorCode.code : ErrorCode → BitVec 4
  | .none => 0
  | .bufferTooSmall => 1
  | .invalidLength => 2
  | .degenerateFrequencyTable => 3
  | .zeroFrequencySymbol => 4
  | .malformedStream => 5
  | .illegalCommand => 6
  | .badOperand => 7
  | .notReady => 8

/-- The two bits of `SSTATE` (10 R41). -/
def SState.code : SState → BitVec 2
  | .invalid => 0
  | .counted => 1
  | .normal => 2

/-- The two bits of `TVAR` (10 R42); the numbering equals `VAR` of the command word. -/
def TVar.code : TVar → BitVec 2
  | .none => 0
  | .ref => 1
  | .fast => 2
  | .fa => 3

/-- The word a read of `STATUS` returns (10 R23): bits 31:14, 11:10 and 3:2 are hardwired 0. -/
def State.statusWord (s : State) : Word :=
  (0 : BitVec 18) ++ s.tvar.code ++ (0 : BitVec 2) ++ s.sstate.code ++ s.err.code ++ (0 : BitVec 2) ++ BitVec.ofBool s.done
    ++ BitVec.ofBool s.busy

end Sys2Proof.Machine
end

