-- ==== Sys2Proof/Machine/Ops.lean ====
section
/-! DEFINITION. The named operations over memory, the table memories, the free values and completion: MemRead and MemWrite
(spec/20_memory.md R63, R64), what is unspecified (spec/93_implementation_defined.md), starting a command (spec/30_encoding.md R92), its
completion (30 R93), taking an error (spec/60_exceptions.md R236, R237, R244) and the common prologue (30 R103). -/

namespace Sys2Proof.Machine

/-! ### Table memories -/

/-- A table memory of `n` entries, entry `k` being `f k`. -/
def tabulate (n : Nat) (f : Nat → α) : Vector α n := ⟨((List.range n).map f).toArray, by simp⟩

/-- The number an entry of a statistics memory holds; every index the rules use is in range. -/
def wordAt (v : Vector Word n) (i : Nat) : Nat := if h : i < n then (v[i]).toNat else 0

/-- The `ENC` entry of a symbol (10 R37). -/
def State.encOf (s : State) (b : Byte) : EncEntry := s.enc[b.toNat]'b.isLt

/-- The `DEC` entry of a symbol (10 R38). -/
def State.decOf (s : State) (b : Byte) : DecEntry := s.dec[b.toNat]'b.isLt

/-- `INV` at the slot that the low 14 bits of `x` name (10 R39, 41 R143). -/
def State.invOf (s : State) (x : Nat) : Byte := s.inv[x % 2 ^ 14]'(Nat.mod_lt _ (by decide))

/-! ### Buffer memory -/

/-- The byte at address `a` (20 R61, R63 with n = 1). -/
def Memory.read (m : Memory) (a : Nat) : Byte :=
  match m with
  | [] => Config.unlistedByte
  | c :: t => if c.1 = a then c.2 else Memory.read t a

/-- Puts the cell (`a`, `b`) before the first cell of a higher address. -/
def Memory.insert (m : Memory) (a : Nat) (b : Byte) : Memory :=
  match m with
  | [] => [(a, b)]
  | c :: t => if a < c.1 then (a, b) :: c :: t else c :: Memory.insert t a b

/-- Forgets what is listed at address `a`. -/
def Memory.erase (m : Memory) (a : Nat) : Memory := m.filter (fun c => decide (c.1 ≠ a))

/-- `Mem[a] <- b` (20 R64 with n = 1), keeping the canonical form. -/
def Memory.write (m : Memory) (a : Nat) (b : Byte) : Memory :=
  if b = Config.unlistedByte then m.erase a else (m.erase a).insert a b

/-- `MemRead(a, n)`: the byte at `a` is bits 7:0 (20 R63, R65). -/
def Memory.readLE (m : Memory) (a : Nat) : Nat → Nat
  | 0 => 0
  | n + 1 => (m.read a).toNat + 2 ^ 8 * Memory.readLE m (a + 1) n

/-- `MemWrite(a, n, v)`: `Mem[a + j] <- v[8j+7 : 8j]` (20 R64). -/
def Memory.writeLE (m : Memory) (a : Nat) : Nat → Nat → Memory
  | 0, _ => m
  | n + 1, v => Memory.writeLE (m.write a (BitVec.ofNat 8 v)) (a + 1) n (v / 2 ^ 8)

/-- Writes `f i` at `a + i` for i = 0 .. n-1, ascending. -/
def Memory.fill (m : Memory) (a n : Nat) (f : Nat → Byte) : Memory :=
  (List.range n).foldl (fun m i => m.write (a + i) (f i)) m

/-! ### Free values -/

/-- A free value of a narrower place. -/
def free (w : Nat) (occasion : Nat) (item : FreeItem) : BitVec w := (Config.freeValue occasion item).setWidth w

/-- The working registers after a command (V1; 10 R31): free values. -/
def freeWork (k : Nat) : Work :=
  { x := free 64 k .x, acc := free 64 k .acc, bitpos := free 7 k .bitpos, wr := free 33 k .wr, rd := free 33 k .rd,
    dacc := free 64 k .dacc, dbits := free 7 k .dbits, idx := free 33 k .idx }

/-- `FREQ` while `SSTATE` = 0 (V2; 10 R41). -/
def freeFreq (k : Nat) : Vector Word 256 := tabulate 256 (fun s => free 32 k (.freq s))

/-- `CUM` while `SSTATE` is not 2 (V3; 10 R36, R41). -/
def freeCum (k : Nat) : Vector Word 257 := tabulate 257 (fun i => free 32 k (.cum i))

/-- An `ENC` entry no field of which is specified (V4, V5; 10 R37). -/
def freeEncEntry (k s : Nat) : EncEntry :=
  { freq := free 32 k (.encFreq s), start := free 32 k (.encStart s), cmplFreq := free 32 k (.encCmplFreq s),
    rcp := free 64 k (.encRcp s), rcpShift := free 32 k (.encRcpShift s), bias := free 32 k (.encBias s),
    delta := free 32 k (.encDelta s) }

/-- The statistics become unspecified and `SSTATE` says so (60 R237, row `FT.NORM`). -/
def State.loseStatistics (s : State) : State :=
  { s with freq := freeFreq s.fresh, cum := freeCum s.fresh, sstate := .invalid }

/-- The table set becomes unspecified and `TVAR` says so (V4, V8; 60 R237, row `INIT.v`). -/
def State.loseTables (s : State) : State :=
  { s with
    enc := tabulate 256 (freeEncEntry s.fresh)
    dec := tabulate 256 (fun i => { start := free 32 s.fresh (.decStart i), freq := free 32 s.fresh (.decFreq i) })
    inv := tabulate 16384 (fun k => free 8 s.fresh (.inv k))
    tvar := .none }

/-- Every byte of the destination region becomes unspecified (V6; 60 R237, rows `ENC.v` and `DEC.v`; 20 R78). -/
def State.loseDestination (s : State) : State :=
  { s with mem := s.mem.fill s.aBuf.toNat s.nBuf.toNat (fun i => free 8 s.fresh (.dest i)) }

/-! ### Commands: start, completion, errors, prologue -/

/-- The write of `CMD` (30 R92): `CMD <- w`, `STATUS.BUSY <- 1`. -/
def State.startCommand (s : State) (w : Word) : State := { s with cmd := w, busy := true }

/-- Completion with error code `e` and result `r` (30 R93). The working registers are unspecified afterwards (10 R31): free values, for
which the occasion number advances. -/
def State.complete (s : State) (e : ErrorCode) (r : Word) : State :=
  { s with
    err := e, done := true, busy := false
    result := if e = .none then r else 0
    work := freeWork s.fresh
    fresh := s.fresh + 1 }

/-- `raise e` (60 R236), the taking of an error: it is completion with its code and `RESULT` = 0 (60 R244); there is no handler, no vector and
no saved state. What the stopped command leaves behind (60 R237) is done by the caller before it raises. There is no return from an error
(60 R245): the next write of `CMD` starts the next command normally. -/
def State.raise (s : State) (e : ErrorCode) : State := s.complete e 0

/-- The prologue common to all commands (30 R103): step 2, `BadOperand`; then step 3, `NotReady`; only then the command's own rule. Step 1,
`IllegalCommand`, is where the word is decoded. A prologue error changes nothing else (60 R237). -/
def withPrologue (operandsOk ready : Bool) (s : State) (body : State → State) : Host.Outcome State Fault Refusal :=
  if operandsOk then
    if ready then .next (body s) else .next (s.raise .notReady)
  else .next (s.raise .badOperand)

end Sys2Proof.Machine
end

