-- ==== Sys2Proof/Machine/Operands.lean ====
section
/-! DEFINITION. The primitive functions (spec/00_scope.md R12, spec/10_state.md R40), the operand forms of the commands: regions
(spec/20_memory.md R62) and `FT_TOTAL` (10 R27), and the conditions of the prologue (spec/30_encoding.md R103, R104). -/

namespace Sys2Proof.Machine

/-- `bit_width(v)` (00 R12). -/
def bitWidth (v : Nat) : Nat := if v = 0 then 0 else v.log2 + 1

/-- `low(v, n)` (00 R12). -/
def low (v n : Nat) : Nat := v % 2 ^ n

/-- `mulhi64(a, b)`: the high 64 bits of the exact 128-bit product (00 R12). -/
def mulhi64 (a b : DWord) : Nat := (a.toNat * b.toNat) >>> 64

/-- The constant table `BITMASK[0..32]` (10 R40). -/
def bitmaskTable : Vector Word 33 := tabulate 33 (fun n => BitVec.ofNat 32 (2 ^ n - 1))

/-- `BITMASK[n]`; no rule reads an index above 32 (43 R186, R198; log 13). -/
def bitmask (n : Nat) : Nat := wordAt bitmaskTable n

/-- The region (`a`, `n`) is valid: an exact sum, no wrap (20 R62). -/
abbrev State.RegionValid (s : State) (a n : Word) : Prop := a.toNat + n.toNat ≤ s.memSize

/-- The regions overlap (20 R62). -/
abbrev Overlap (a₁ n₁ a₂ n₂ : Word) : Prop :=
  0 < n₁.toNat ∧ 0 < n₂.toNat ∧ a₁.toNat < a₂.toNat + n₂.toNat ∧ a₂.toNat < a₁.toNat + n₁.toNat

/-- The operand check of `FT.COUNT` and `INIT.v` (30 R103, R104). -/
abbrev State.SourceOk (s : State) : Prop := s.RegionValid s.aSrc s.nSrc

/-- The operand check of `ENC.v` and `DEC.v` (30 R103, R104; 60 R235). -/
abbrev State.RegionsOk (s : State) : Prop :=
  s.RegionValid s.aSrc s.nSrc ∧ s.RegionValid s.aBuf s.nBuf ∧ ¬ Overlap s.aSrc s.nSrc s.aBuf s.nBuf

/-- The operand check of `FT.NORM`: `FT_TOTAL` = 2^k with 0 <= k <= 14 (10 R27, 60 R235). -/
abbrev LegalTotal (t : Word) : Prop := ∃ k ∈ List.range 15, t.toNat = 2 ^ k

/-- What `FT.NORM` needs (30 R104). -/
abbrev State.Counted (s : State) : Prop := s.sstate = .counted

/-- What `TBL.v` needs: statistics normalized to 16384 (30 R104, 60 R242). -/
abbrev State.Normalized (s : State) : Prop := s.sstate = .normal ∧ wordAt s.cum 256 = Config.total

/-- What `DEC.REF` and `DEC.FAST` need: the shared decoder takes either table set (41 R148). -/
abbrev State.SharedTables (s : State) : Prop := s.tvar = .ref ∨ s.tvar = .fast

/-- One past the last byte of the source region: the `end` of the compressed tail (41 R141). -/
def State.srcEnd (s : State) : Nat := s.aSrc.toNat + s.nSrc.toNat

/-- One past the last byte of the destination region. -/
def State.bufEnd (s : State) : Nat := s.aBuf.toNat + s.nBuf.toNat

end Sys2Proof.Machine
end

