-- ==== Sys2Proof/Machine/HostOps.lean ====
section
/-! DEFINITION. The host operations but for the write of `CMD` (spec/30_encoding.md R98, R99, R100, R105), the table window
(spec/10_state.md R28, R43), and the lines of a host script (30 R101, R102). -/

namespace Sys2Proof.Machine

/-- A table word while its entry is valid. -/
def whenValid (valid : Bool) (w : Word) : Option Word := if valid then some w else none

/-- The word of the table space at address `a` (10 R43): `none` when `a` is unmapped or the entry there is not valid. -/
def State.tableWord (s : State) (a : Nat) : Option Word :=
  let e := s.encOf (BitVec.ofNat 8 a)
  let d := s.decOf (BitVec.ofNat 8 a)
  let built := decide (s.tvar ≠ .none)
  let fast := decide (s.tvar = .fast)
  if a < 0x100 then whenValid (decide (s.sstate ≠ .invalid)) (BitVec.ofNat 32 (wordAt s.freq a))
  else if a ≤ 0x200 then whenValid (decide (s.sstate = .normal)) (BitVec.ofNat 32 (wordAt s.cum (a - 0x100)))
  else if 0x4000 ≤ a ∧ a ≤ 0x7FFF then whenValid built ((s.invOf (a - 0x4000)).setWidth 32)
  else match a / 0x100 with
    | 0x04 => whenValid built e.freq
    | 0x05 => whenValid built e.start
    | 0x06 => whenValid fast e.cmplFreq
    | 0x07 => whenValid fast (e.rcp.extractLsb' 0 32)
    | 0x08 => whenValid fast (e.rcp.extractLsb' 32 32)
    | 0x09 => whenValid fast e.rcpShift
    | 0x0A => whenValid fast e.bias
    | 0x0B => whenValid (decide (s.tvar = .fa)) e.delta
    | 0x0C => whenValid built d.start
    | 0x0D => whenValid built d.freq
    | _ => none

/-- What a read of `TDATA` returns (10 R28): the table word at `TADDR`, or an unspecified value (V7, log 8). -/
def State.tdata (s : State) : Word := (s.tableWord s.taddr.toNat).getD (free 32 s.fresh .tdata)

/-- The value of a register (30 R98; 10 R21 to R28, R44). -/
def State.readReg (s : State) : Reg → Word
  | .cmd => s.cmd
  | .status => s.statusWord
  | .result => s.result
  | .aSrc => s.aSrc
  | .nSrc => s.nSrc
  | .aBuf => s.aBuf
  | .nBuf => s.nBuf
  | .ftTotal => s.ftTotal
  | .taddr => s.taddr
  | .tdata => s.tdata
  | .reserved => 0

/-- A write of a register other than `CMD` (30 R99): `STATUS`, `RESULT`, `TDATA` and the reserved registers ignore it. -/
def State.writeReg (s : State) (v : Word) : Reg → State
  | .cmd => s
  | .status => s
  | .result => s
  | .aSrc => { s with aSrc := v }
  | .nSrc => { s with nSrc := v }
  | .aBuf => { s with aBuf := v }
  | .nBuf => { s with nBuf := v }
  | .ftTotal => { s with ftTotal := v }
  | .taddr => { s with taddr := v }
  | .tdata => s
  | .reserved => s

/-- The host keeps what it has read (log 10). -/
def State.observe (s : State) (v : Word) : State := { s with reads := s.reads ++ [v] }

/-- `RegRead(i)` (30 R98): changes no state of the core; each read of `TDATA` takes a new occasion (log 8). -/
def State.regRead (s : State) (i : BitVec 4) : State :=
  match Reg.ofIndex i with
  | .tdata => { s.observe s.tdata with fresh := s.fresh + 1 }
  | r => s.observe (s.readReg r)

/-- `Reset` (30 R100, 70 R260): the host-visible registers and the flags as 10 R46 says; the working registers, the statistics and the
table set unspecified (free values, log 4); buffer memory unchanged (70 R261). -/
def State.hostReset (s : State) : State :=
  let z := State.resetWith s.memTop
  { { z with fresh := s.fresh }.loseStatistics.loseTables with
    work := freeWork s.fresh, mem := s.mem, script := s.script, reads := s.reads, fresh := s.fresh + 1 }

/-- `HostMemRead(addr)` (30 R105): only below MEM_SIZE (log 9). -/
def State.hostMemRead (s : State) (a : Word) : Host.Outcome State Fault Refusal :=
  if a.toNat < s.memSize then .next (s.observe ((s.mem.read a.toNat).setWidth 32)) else .fault (.hostAddressOutsideMemory a)

/-- `HostMemWrite(addr, byte)` (30 R105): only below MEM_SIZE (log 9). -/
def State.hostMemWrite (s : State) (a : Word) (b : Byte) : Host.Outcome State Fault Refusal :=
  if a.toNat < s.memSize then .next { s with mem := s.mem.write a.toNat b } else .fault (.hostAddressOutsideMemory a)

/-- A host operation that starts no command. -/
def State.hostOp (s : State) : HostOp → Host.Outcome State Fault Refusal
  | .reset => .next s.hostReset
  | .regRead i => .next (s.regRead i)
  | .regWrite i v => .next (s.writeReg v (Reg.ofIndex i))
  | .memRead a => s.hostMemRead a
  | .memWrite a b => s.hostMemWrite a b

/-- The command word a host operation starts: that of a write of `CMD` (30 R99). -/
def commandOf : HostOp → Option Word
  | .regWrite i v => if Reg.ofIndex i = .cmd then some v else none
  | _ => none

/-- The host operations a script line stands for (30 R101, R102). -/
def lineOps : Line → List HostOp
  | .reset => [.reset]
  | .wr reg value => [.regWrite (BitVec.ofNat 4 reg) (BitVec.ofNat 32 value)]
  | .rd reg => [.regRead (BitVec.ofNat 4 reg)]
  | .command i => [.regWrite 0 (encode i)]
  | .mem addr bytes => bytes.mapIdx (fun j b => .memWrite (BitVec.ofNat 32 (addr + j)) (BitVec.ofNat 8 b))
  | .dump addr n => (List.range n).map (fun j => .memRead (BitVec.ofNat 32 (addr + j)))
  | .src addr len => [.regWrite 3 (BitVec.ofNat 32 addr), .regWrite 4 (BitVec.ofNat 32 len)]
  | .buf addr len => [.regWrite 5 (BitVec.ofNat 32 addr), .regWrite 6 (BitVec.ofNat 32 len)]

/-- The host operations of a script (30 R101, 70 R281). -/
def scriptOps (lines : List Line) : List HostOp := lines.flatMap lineOps

/-- The command whose bits are `w` at the head of the host's script: the next step writes it to `CMD` (log 1, log 14). -/
def State.placeCommand (s : State) (nbits w : Nat) : State :=
  { s with script := .regWrite 0 ((commandBits nbits w).getD (BitVec.ofNat 32 w)) :: s.script }

end Sys2Proof.Machine
end

