-- ==== Sys2Proof/Machine/FreqTable.lean ====
section
/-! DEFINITION. The frequency table builder: `FT.COUNT` and `FT.NORM` (spec/40_freq_table_builder.md). -/

namespace Sys2Proof.Machine

/-- One pass of the counting loop (40 R111): `b <- MemRead(a + i, 1); FREQ[b] <- FREQ[b] + 1`. -/
def countStep (m : Memory) (a : Nat) (freq : Vector Word 256) (i : Nat) : Vector Word 256 :=
  let b := m.read (a + i)
  freq.set b.toNat (freq[b.toNat]'b.isLt + 1) b.isLt

/-- The raw counts of the `n` bytes at `a`, by linear scan (40 R111). -/
def countFreq (m : Memory) (a n : Nat) : Vector Word 256 :=
  (List.range n).foldl (countStep m a) (Vector.replicate 256 0)

/-- The counting stage (40 R111): `FREQ` holds the raw counts, `CUM` becomes unspecified, `SSTATE <- 1`. -/
def State.countStage (s : State) : State :=
  { s with freq := countFreq s.mem s.aSrc.toNat s.nSrc.toNat, cum := freeCum s.fresh, sstate := .counted }

/-- Stage 1 (40 R113): `C[i]`, the raw cumulative sums as exact naturals. -/
def rawSum (freq : Vector Word 256) : Nat → Nat
  | 0 => 0
  | i + 1 => rawSum freq i + wordAt freq i

/-- Stage 2 (40 R114, R115): boundary `i` rescaled to total `t`, round half up; for an empty sequence symbol 0 takes the whole total. -/
def rescale (t : Nat) (c : Nat → Nat) (i : Nat) : Nat :=
  if c 256 = 0 then (if i = 0 then 0 else t) else (2 * t * c i + c 256) / (2 * c 256)

/-- `f(j)`, the current frequency of symbol `j` (40 R116). -/
def gap (cum : Nat → Nat) (j : Nat) : Nat := cum (j + 1) - cum j

/-- One step of the donor scan (40 R117): symbol `j` replaces the best so far when its frequency is above 1 and smaller. -/
def donorScan (cum : Nat → Nat) (best : Option Nat) (j : Nat) : Option Nat :=
  if 1 < gap cum j then
    match best with
    | none => some j
    | some d => if gap cum j < gap cum d then some j else some d
  else best

/-- Donor selection (40 R117): the first symbol among those of the smallest frequency above 1. -/
def donor (cum : Nat → Nat) : Option Nat := (List.range 256).foldl (donorScan cum) none

/-- The boundary shift (40 R116, R118): one unit moves from donor `d` to recipient `i`. -/
def shiftBoundaries (d i : Nat) (cum : Nat → Nat) (j : Nat) : Nat :=
  if d < i then (if d + 1 ≤ j ∧ j ≤ i then cum j - 1 else cum j)
  else (if i + 1 ≤ j ∧ j ≤ d then cum j + 1 else cum j)

/-- The repair pass at symbol `i` (40 R116); without a donor `DegenerateFrequencyTable` (40 R120). -/
def repairStep (raw : Nat → Nat) (cum : Nat → Nat) (i : Nat) : Except ErrorCode (Nat → Nat) :=
  if raw i ≠ 0 ∧ cum (i + 1) = cum i then
    match donor cum with
    | none => .error .degenerateFrequencyTable
    | some d => .ok (shiftBoundaries d i cum)
  else .ok cum

/-- Stage 3, the repair pass, in ascending symbol order (40 R116). -/
def repair (raw : Nat → Nat) (cum : Nat → Nat) : Except ErrorCode (Nat → Nat) :=
  (List.range 256).foldlM (repairStep raw) cum

/-- Stages 1 to 3 on the raw counts `freq` with total `t`: the final boundaries (40 R113 to R118). -/
def normalizedCum (t : Nat) (freq : Vector Word 256) : Except ErrorCode (Nat → Nat) :=
  repair (wordAt freq) (rescale t (rawSum freq))

/-- Stage 4 (40 R119): the final `FREQ` and `CUM`; `SSTATE <- 2`. -/
def State.setStatistics (s : State) (cum : Nat → Nat) : State :=
  { s with
    freq := tabulate 256 (fun i => BitVec.ofNat 32 (gap cum i))
    cum := tabulate 257 (fun i => BitVec.ofNat 32 (cum i))
    sstate := .normal }

/-- The rule of `FT.COUNT` after its prologue (40 R111). -/
def State.ftCount (s : State) : State := s.countStage.complete .none 0

/-- The rule of `FT.NORM` after its prologue (40 R112, R120). -/
def State.ftNorm (s : State) : State :=
  match normalizedCum s.ftTotal.toNat s.freq with
  | .ok cum => (s.setStatistics cum).complete .none 0
  | .error e => s.loseStatistics.raise e

/-- `FT.COUNT` (40 R111). -/
def execFtCount (s : State) : Host.Outcome State Fault Refusal :=
  withPrologue (decide s.SourceOk) true s State.ftCount

/-- `FT.NORM` (40 R112). -/
def execFtNorm (s : State) : Host.Outcome State Fault Refusal :=
  withPrologue (decide (LegalTotal s.ftTotal)) (decide s.Counted) s State.ftNorm

end Sys2Proof.Machine
end

