-- ==== Sys2Proof/Machine/Codec.lean ====
section
/-! DEFINITION. What the three codecs share: the decoder tables (spec/41_reference_codec.md R131, R132), a running command, the encode loop,
and how a coding command ends. -/

namespace Sys2Proof.Machine

/-! ### Table building -/

/-- `INV[k]` after the loops of 41 R132, cell by cell: each symbol whose interval holds `k` writes it, in ascending order (log 15). -/
def slotSymbol (cum : Vector Word 257) (k : Nat) (old : Byte) : Byte :=
  (List.range 256).foldl (fun b i => if wordAt cum i ≤ k ∧ k < wordAt cum (i + 1) then BitVec.ofNat 8 i else b) old

/-- `INV` built from `CUM` (41 R132). -/
def buildInv (cum : Vector Word 257) (old : Vector Byte 16384) : Vector Byte 16384 :=
  tabulate 16384 (fun k => slotSymbol cum k (if h : k < 16384 then old[k] else 0))

/-- `DEC` built from the statistics (41 R131): the same for all three variants (42 R161, 43 R183). -/
def buildDec (freq : Vector Word 256) (cum : Vector Word 257) : Vector DecEntry 256 :=
  tabulate 256 (fun i => { start := BitVec.ofNat 32 (wordAt cum i), freq := BitVec.ofNat 32 (wordAt freq i) })

/-- The table stage of `TBL.v` and `INIT.v`: every `ENC` entry by `entry`, which starts from an unspecified one (10 R37, V5) and is given
`FREQ[s]` and `CUM[s]`; then `DEC`, `INV` and `TVAR`. -/
def State.buildTables (s : State) (v : TVar) (entry : EncEntry → Nat → Nat → EncEntry) : State :=
  { s with
    enc := tabulate 256 (fun i =>
      entry { freeEncEntry s.fresh i with freq := BitVec.ofNat 32 (wordAt s.freq i), start := BitVec.ofNat 32 (wordAt s.cum i) }
        (wordAt s.freq i) (wordAt s.cum i))
    dec := buildDec s.freq s.cum
    inv := buildInv s.cum s.inv
    tvar := v }

/-! ### A running coding command -/

/-- What a running `ENC.v` or `DEC.v` changes: the working registers and buffer memory (20 R77, R78). -/
structure Run where
  work : Work
  mem : Memory
  deriving DecidableEq, Repr

/-- `X <- v`. -/
def Run.setX (r : Run) (v : Nat) : Run := { r with work.x := BitVec.ofNat 64 v }

/-- `IDX <- i`. -/
def Run.setIdx (r : Run) (i : Nat) : Run := { r with work.idx := BitVec.ofNat 33 i }

/-- `WR <- WR - n; MemWrite(WR, n, v)` with the test before it (60 R232): the pre-decrement write of every encoder (41 R151, 43 R204). -/
def Run.emit (base : Nat) (n v : Nat) (r : Run) : Except ErrorCode Run :=
  if r.work.wr.toNat - base < n then .error .bufferTooSmall
  else .ok { work := { r.work with wr := BitVec.ofNat 33 (r.work.wr.toNat - n) }, mem := r.mem.writeLE (r.work.wr.toNat - n) n v }

/-- The encode loop, symbols `n-1` down to 0 (41 R135, R150): `s <- MemRead(A_SRC + IDX, 1)`, then the step. -/
def encLoop (step : Byte → Run → Except ErrorCode Run) (src : Nat) : Nat → Run → Except ErrorCode Run
  | 0, r => .ok r
  | i + 1, r => do
    let r' ← step (r.mem.read (src + i)) (r.setIdx i)
    encLoop step src i r'

/-- The decode loop, `n` output positions from `i` up (41 R141, R150). -/
def decLoop (step : Nat → Run → Except ErrorCode Run) : Nat → Nat → Run → Except ErrorCode Run
  | 0, _, r => .ok r
  | n + 1, i, r => do
    let r' ← step i (r.setIdx i)
    decLoop step n (i + 1) r'

/-- How `ENC.v` ends (30 R93; 41 R135): `RESULT` = end - `WR`; on an error the destination region is lost (60 R237). -/
def State.finishEncode (s : State) : Except ErrorCode Run → State
  | .ok r => { s with mem := r.mem }.complete .none (BitVec.ofNat 32 (s.bufEnd - r.work.wr.toNat))
  | .error e => s.loseDestination.raise e

/-- How `DEC.v` ends (30 R93; 41 R141): `RESULT` = 0; on an error the destination region is lost (60 R237). -/
def State.finishDecode (s : State) : Except ErrorCode Run → State
  | .ok r => { s with mem := r.mem }.complete .none 0
  | .error e => s.loseDestination.raise e

/-- The symbol a decoder state names, `INV[X & 16383]`, written at output position `i`, and the update
`X <- freq * (X >> 14) + slot - start` (41 R143, 43 R199). -/
def State.decodeSymbol (s : State) (i : Nat) (r : Run) : Run :=
  let x := r.work.x.toNat
  let b := s.invOf x
  let e := s.decOf b
  { work := { r.work with x := BitVec.ofNat 64 (e.freq.toNat * (x >>> Config.scaleBits) + low x Config.scaleBits - e.start.toNat) },
    mem := r.mem.write (s.aBuf.toNat + i) b }

end Sys2Proof.Machine
end

