-- ==== Sys2Proof/Machine/RefCodec.lean ====
section
/-! DEFINITION. The reference codec: `TBL.REF`, `ENC.REF`, `DEC.REF` (spec/41_reference_codec.md). -/

namespace Sys2Proof.Machine

/-- The fields `TBL.REF` writes beside `freq` and `start`: none (41 R131). -/
def refEntry (e : EncEntry) (_f _c : Nat) : EncEntry := e

/-- `x_max(f) = ((L >> SCALE_BITS) << 32) * f` (41 R134). -/
def xMax (f : Nat) : Nat := ((Config.lowerBound >>> Config.scaleBits) <<< 32) * f

/-- Second part of an encode step (41 R137): the one renormalization test. -/
def renormalize (base f : Nat) (r : Run) : Except ErrorCode Run :=
  let x := r.work.x.toNat
  if xMax f ≤ x then do
    let r' ← r.emit base 4 (low x 32)
    return r'.setX (x >>> 32)
  else .ok r

/-- An encode step of `REF` or `FAST` (41 R136 to R138, 42 R167): the zero-frequency test, the renormalization, the variant's update. -/
def encStep (update : EncEntry → DWord → Nat) (s : State) (b : Byte) (r : Run) : Except ErrorCode Run :=
  let e := s.encOf b
  if e.freq = 0 then .error .zeroFrequencySymbol
  else do
    let r' ← renormalize s.aBuf.toNat e.freq.toNat r
    return r'.setX (update e r'.work.x)

/-- Third part of an encode step of `REF` (41 R138): `((X // f) << SCALE_BITS) + (X mod f) + c`. -/
def refUpdate (e : EncEntry) (x : DWord) : Nat :=
  ((x.toNat / e.freq.toNat) <<< Config.scaleBits) + x.toNat % e.freq.toNat + e.start.toNat

/-- `flush_state()` (41 R139): the low word at the lower address. -/
def flushState (base : Nat) (r : Run) : Except ErrorCode Run :=
  let x := r.work.x.toNat
  if r.work.wr.toNat - base < 8 then .error .bufferTooSmall
  else
    let wr := r.work.wr.toNat - 8
    .ok { work := { r.work with wr := BitVec.ofNat 33 wr },
          mem := (r.mem.writeLE wr 4 (low x 32)).writeLE (wr + 4) 4 (x >>> 32) }

/-- The initial state of `ENC.REF` and `ENC.FAST` (41 R135, R140): `X <- L`, `WR` one past the end of the buffer. -/
def State.encStart (s : State) : Run :=
  { work := { s.work with x := BitVec.ofNat 64 Config.lowerBound, wr := BitVec.ofNat 33 s.bufEnd }, mem := s.mem }

/-- The run of `ENC.REF` and `ENC.FAST` (41 R135, 42 R166). -/
def State.encWords (update : EncEntry → DWord → Nat) (s : State) : Except ErrorCode Run := do
  let r ← encLoop (encStep update s) s.aSrc.toNat s.nSrc.toNat s.encStart
  flushState s.aBuf.toNat r

/-- Second part of a decode step (41 R144): one test, and a word pulled when `X < L`; `InvalidLength` at the end of the tail (41 R142). -/
def pullWord (tailEnd : Nat) (r : Run) : Except ErrorCode Run :=
  let x := r.work.x.toNat
  let rd := r.work.rd.toNat
  if x < Config.lowerBound then
    if tailEnd - rd < 4 then .error .invalidLength
    else .ok { r with work := { r.work with x := BitVec.ofNat 64 ((x <<< 32) + r.mem.readLE rd 4), rd := BitVec.ofNat 33 (rd + 4) } }
  else .ok r

/-- `dec_step_ref(i)` (41 R143, R144). -/
def decStepRef (s : State) (i : Nat) (r : Run) : Except ErrorCode Run := pullWord s.srcEnd (s.decodeSymbol i r)

/-- The first two words of the tail, low word first, at the head of `DEC.REF` (41 R141). -/
def State.readTwoWords (s : State) : Except ErrorCode Run :=
  let rd := s.aSrc.toNat
  if s.srcEnd - rd < 8 then .error .invalidLength
  else .ok { work := { s.work with x := BitVec.ofNat 64 (s.mem.readLE rd 4 + 2 ^ 32 * s.mem.readLE (rd + 4) 4),
                                   rd := BitVec.ofNat 33 (rd + 8) },
             mem := s.mem }

/-- The run of `DEC.REF` and `DEC.FAST` (41 R141, 42 R170). -/
def State.decWords (s : State) : Except ErrorCode Run := do
  let r ← s.readTwoWords
  decLoop (decStepRef s) s.nBuf.toNat 0 r

/-- `TBL.REF` (41 R131). -/
def execTblRef (s : State) : Host.Outcome State Fault Refusal :=
  withPrologue true (decide s.Normalized) s (fun s => (s.buildTables .ref refEntry).complete .none 0)

/-- `ENC.REF` (41 R135). -/
def execEncRef (s : State) : Host.Outcome State Fault Refusal :=
  withPrologue (decide s.RegionsOk) (decide (s.tvar = .ref)) s (fun s => s.finishEncode (s.encWords refUpdate))

/-- `DEC.REF` (41 R141). -/
def execDecRef (s : State) : Host.Outcome State Fault Refusal :=
  withPrologue (decide s.RegionsOk) (decide s.SharedTables) s (fun s => s.finishDecode s.decWords)

end Sys2Proof.Machine
end

