-- ==== Sys2Proof/Machine/FastCodec.lean ====
section
/-! DEFINITION. The fast (reciprocal-multiply) codec: `TBL.FAST`, `ENC.FAST`, `DEC.FAST` (spec/42_fast_codec.md). -/

namespace Sys2Proof.Machine

/-- The fields `TBL.FAST` writes beside `freq` and `start` (42 R161, R163, R164). -/
def fastEntry (e : EncEntry) (f c : Nat) : EncEntry :=
  let k := bitWidth (f - 1)
  { e with
    cmplFreq := BitVec.ofNat 32 (Config.total - f)
    rcp := if f < 2 then BitVec.ofNat 64 (2 ^ 64 - 1) else BitVec.ofNat 64 ((2 ^ (k + 63) + f - 1) / f)
    rcpShift := if f < 2 then 0 else BitVec.ofNat 32 (k - 1)
    bias := if f < 2 then BitVec.ofNat 32 (c + Config.total - 1) else BitVec.ofNat 32 c }

/-- `q <- mulhi64(X, rcp) >> rcp_shift` (42 R167). -/
def fastQuotient (e : EncEntry) (x : DWord) : Nat := mulhi64 x e.rcp >>> e.rcpShift.toNat

/-- The update of `ENC.FAST` (42 R167): `X + bias + q * cmpl_freq`. -/
def fastUpdate (e : EncEntry) (x : DWord) : Nat := x.toNat + e.bias.toNat + fastQuotient e x * e.cmplFreq.toNat

/-- `TBL.FAST` (42 R161). -/
def execTblFast (s : State) : Host.Outcome State Fault Refusal :=
  withPrologue true (decide s.Normalized) s (fun s => (s.buildTables .fast fastEntry).complete .none 0)

/-- `ENC.FAST` (42 R166). -/
def execEncFast (s : State) : Host.Outcome State Fault Refusal :=
  withPrologue (decide s.RegionsOk) (decide (s.tvar = .fast)) s (fun s => s.finishEncode (s.encWords fastUpdate))

/-- `DEC.FAST` (42 R170): exactly `DEC.REF`. -/
def execDecFast (s : State) : Host.Outcome State Fault Refusal :=
  withPrologue (decide s.RegionsOk) (decide s.SharedTables) s (fun s => s.finishDecode s.decWords)

end Sys2Proof.Machine
end

