-- ==== Sys2Proof/Machine/FixedAccuracy.lean ====
section
/-! DEFINITION. The fixed-accuracy codec with its bit-packer and bit reader: `TBL.FA`, `ENC.FA`, `DEC.FA`
(spec/43_fixed_accuracy_codec.md). -/

namespace Sys2Proof.Machine

/-! ### Tables -/

/-- `shift0(f) = 15 - bit_width(f)` (43 R184). -/
def shift0 (f : Nat) : Nat := Config.stateBits + 1 - bitWidth f

/-- `delta(f)` (43 R184): the difference modulo 2^32. -/
def faDelta (f : Nat) : Word :=
  BitVec.ofNat 32 (shift0 f * 2 ^ (Config.allBits + 1)) - BitVec.ofNat 32 (f * 2 ^ (shift0 f + Config.accuracyBits))

/-- The field `TBL.FA` writes beside `freq` and `start` (43 R183). -/
def faEntry (e : EncEntry) (f _c : Nat) : EncEntry := { e with delta := faDelta f }

/-! ### The bit-packer -/

/-- `emit_bits(value, count)` (43 R186). -/
def emitBits (value count : Nat) (r : Run) : Run :=
  { r with
    work := { r.work with
      acc := BitVec.ofNat 64 (r.work.acc.toNat ||| ((value &&& bitmask count) <<< r.work.bitpos.toNat))
      bitpos := BitVec.ofNat 7 (r.work.bitpos.toNat + count) } }

/-- One pass of the loop of `flush_bits` (43 R187). -/
def flushByte (base : Nat) (r : Run) : Except ErrorCode Run := do
  let r' ← r.emit base 1 (low r.work.acc.toNat 8)
  return { r' with work := { r'.work with acc := r.work.acc >>> 8, bitpos := BitVec.ofNat 7 (r.work.bitpos.toNat - 8) } }

/-- `n` passes of that loop. -/
def flushBytes (base : Nat) : Nat → Run → Except ErrorCode Run
  | 0, r => .ok r
  | n + 1, r => do
    let r' ← flushByte base r
    flushBytes base n r'

/-- `flush_bits()` (43 R187): `while BITPOS >= 8` makes `BITPOS // 8` passes, since each lowers `BITPOS` by 8 (log 16). -/
def flushBits (base : Nat) (r : Run) : Except ErrorCode Run := flushBytes base (r.work.bitpos.toNat / 8) r

/-! ### The encoder -/

/-- `shift <- ((X + delta) mod 2^32) >> 18` (43 R191). -/
def faShift (e : EncEntry) (x : Nat) : Nat := ((x + e.delta.toNat) % 2 ^ 32) >>> (Config.allBits + 1)

/-- `div_high(b)` on the pair (`X`, `M`) (43 R192). -/
def divHigh (f b : Nat) (p : Nat × Nat) : Nat × Nat :=
  if f <<< b ≤ p.1 then (p.1 - f <<< b, p.2) else (p.1, p.2 ||| 1 <<< b)

/-- The three corrections at bits 2, 1, 0 on the value left by 43 R191: the remainder and the mask `M` (43 R192). -/
def faDivide (f y : Nat) : Nat × Nat := divHigh f 0 (divHigh f 1 (divHigh f 2 (y - f <<< Config.accuracyBits, 0)))

/-- The new state from the shifted state `y` (43 R191 last line, R192): `(Q << 14) + c + X` with `Q = M ^ 0xF`. -/
def faFold (e : EncEntry) (y : Nat) : Nat :=
  let p := faDivide e.freq.toNat y
  ((p.2 ^^^ 0xF) <<< Config.stateBits) + e.start.toNat + p.1

/-- `fa_enc_step(s)` (43 R191, R192). -/
def faEncStep (s : State) (b : Byte) (r : Run) : Except ErrorCode Run :=
  let e := s.encOf b
  let x := r.work.x.toNat
  if e.freq = 0 then .error .zeroFrequencySymbol
  else
    let shift := faShift e x
    .ok ((emitBits x shift r).setX (faFold e (x >>> shift)))

/-- The loops of `ENC.FA` from `IDX` (43 R189, R190): groups of three from the back, a flush after each; then the remainder of one or two
symbols, and the flush after it. -/
def faEncLoop (s : State) (src base : Nat) : Nat → Run → Except ErrorCode Run
  | i + 3, r => do
    let r ← faEncStep s (r.mem.read (src + i + 2)) (r.setIdx (i + 3))
    let r ← faEncStep s (r.mem.read (src + i + 1)) r
    let r ← faEncStep s (r.mem.read (src + i)) r
    let r ← flushBits base r
    faEncLoop s src base i r
  | 2, r => do
    let r ← faEncStep s (r.mem.read (src + 1)) (r.setIdx 2)
    let r ← faEncStep s (r.mem.read src) (r.setIdx 1)
    flushBits base r
  | 1, r => do
    let r ← faEncStep s (r.mem.read src) (r.setIdx 1)
    flushBits base r
  | 0, r => flushBits base r

/-- `terminal_flush()` (43 R193): the pending bits and the state fill exactly four bytes. -/
def terminalFlush (base : Nat) (r : Run) : Except ErrorCode Run :=
  flushBits base (emitBits r.work.x.toNat (32 - r.work.bitpos.toNat) r)

/-- The initial state of `ENC.FA` (43 R189, R203). -/
def State.faEncStart (s : State) : Run :=
  { work := { s.work with x := BitVec.ofNat 64 (2 ^ Config.allBits), acc := 0, bitpos := 0, wr := BitVec.ofNat 33 s.bufEnd },
    mem := s.mem }

/-- The run of `ENC.FA` (43 R189). -/
def State.faEncode (s : State) : Except ErrorCode Run := do
  let r ← faEncLoop s s.aSrc.toNat s.aBuf.toNat s.nSrc.toNat s.faEncStart
  terminalFlush s.aBuf.toNat r

/-! ### The decoder -/

/-- The first four bytes of the tail, the first one most significant (43 R197; 20 R65). -/
def readBE4 (m : Memory) (a : Nat) : Nat :=
  2 ^ 24 * (m.read a).toNat + 2 ^ 16 * (m.read (a + 1)).toNat + 2 ^ 8 * (m.read (a + 2)).toNat + (m.read (a + 3)).toNat

/-- `read_state()` (43 R197). -/
def State.readState (s : State) : Except ErrorCode Run :=
  let rd := s.aSrc.toNat
  if s.srcEnd - rd < 4 then .error .invalidLength
  else
    let w := readBE4 s.mem rd
    if bitWidth w < 18 ∨ 25 < bitWidth w then .error .malformedStream
    else
      let p := bitWidth w - 18
      .ok { work := { s.work with x := BitVec.ofNat 64 (w >>> p), dacc := BitVec.ofNat 64 (low w p), dbits := BitVec.ofNat 7 p,
                                  rd := BitVec.ofNat 33 (rd + 4) },
            mem := s.mem }

/-- One pass of `read_buffer` (43 R198): pull one byte into the low end of `DACC`. -/
def pullByte (tailEnd : Nat) (r : Run) : Except ErrorCode Run :=
  let rd := r.work.rd.toNat
  if tailEnd ≤ rd then .error .invalidLength
  else .ok { r with
    work := { r.work with
      dacc := BitVec.ofNat 64 ((r.work.dacc.toNat <<< 8) + (r.mem.read rd).toNat)
      rd := BitVec.ofNat 33 (rd + 1)
      dbits := BitVec.ofNat 7 (r.work.dbits.toNat + 8) } }

/-- `n` passes of `read_buffer`. -/
def pullBytes (tailEnd : Nat) : Nat → Run → Except ErrorCode Run
  | 0, r => .ok r
  | n + 1, r => do
    let r' ← pullByte tailEnd r
    pullBytes tailEnd n r'

/-- `read_bits(k)` (43 R198): `while DBITS < k` makes as many passes as bytes are missing (log 16); the value is the `k` most significant
valid bits. -/
def readBits (tailEnd k : Nat) (r : Run) : Except ErrorCode (Nat × Run) := do
  let r ← pullBytes tailEnd ((k - r.work.dbits.toNat + 7) / 8) r
  let left := r.work.dbits.toNat - k
  return ((r.work.dacc.toNat >>> left) &&& bitmask k,
    { r with work := { r.work with dbits := BitVec.ofNat 7 left, dacc := BitVec.ofNat 64 (low r.work.dacc.toNat left) } })

/-- `fa_dec_step(i)` (43 R199). -/
def faDecStep (s : State) (i : Nat) (r : Run) : Except ErrorCode Run := do
  let r := s.decodeSymbol i r
  let x := r.work.x.toNat
  let k := Config.allBits + 1 - bitWidth x
  let (v, r) ← readBits s.srcEnd k r
  return r.setX ((x <<< k) + v)

/-- The run of `DEC.FA` (43 R196). -/
def State.faDecode (s : State) : Except ErrorCode Run := do
  let r ← s.readState
  decLoop (faDecStep s) s.nBuf.toNat 0 r

/-- `TBL.FA` (43 R183). -/
def execTblFa (s : State) : Host.Outcome State Fault Refusal :=
  withPrologue true (decide s.Normalized) s (fun s => (s.buildTables .fa faEntry).complete .none 0)

/-- `ENC.FA` (43 R189). -/
def execEncFa (s : State) : Host.Outcome State Fault Refusal :=
  withPrologue (decide s.RegionsOk) (decide (s.tvar = .fa)) s (fun s => s.finishEncode s.faEncode)

/-- `DEC.FA` (43 R196). -/
def execDecFa (s : State) : Host.Outcome State Fault Refusal :=
  withPrologue (decide s.RegionsOk) (decide (s.tvar = .fa)) s (fun s => s.finishDecode s.faDecode)

end Sys2Proof.Machine
end

