-- ==== Sys2Proof/Machine/InitComposite.lean ====
section
/-! DEFINITION. The composite initialization: `INIT.REF`, `INIT.FAST`, `INIT.FA` (spec/44_init_composite.md). -/

namespace Sys2Proof.Machine

/-- The rule of `INIT.v` after its prologue (44 R221): `TVAR <- 0`, `SSTATE <- 0`; count; normalize with 16384; build. The error branch, which
cannot be reached (40 R120), leaves what 60 R237 says. -/
def State.initTables (s : State) (v : TVar) (entry : EncEntry → Nat → Nat → EncEntry) : State :=
  let s := { s with tvar := .none, sstate := .invalid }.countStage
  match normalizedCum Config.total s.freq with
  | .ok cum => ((s.setStatistics cum).buildTables v entry).complete .none 0
  | .error e => s.loseStatistics.loseTables.raise e

/-- `INIT.REF` (44 R221). -/
def execInitRef (s : State) : Host.Outcome State Fault Refusal :=
  withPrologue (decide s.SourceOk) true s (fun s => s.initTables .ref refEntry)

/-- `INIT.FAST` (44 R222). -/
def execInitFast (s : State) : Host.Outcome State Fault Refusal :=
  withPrologue (decide s.SourceOk) true s (fun s => s.initTables .fast fastEntry)

/-- `INIT.FA` (44 R223). -/
def execInitFa (s : State) : Host.Outcome State Fault Refusal :=
  withPrologue (decide s.SourceOk) true s (fun s => s.initTables .fa faEntry)

end Sys2Proof.Machine
end

