-- ==== Sys2Proof/Machine/Dispatch.lean ====
section
/-! DEFINITION. The meaning of each command, one arm for each row of the opcode map (spec/30_encoding.md R94). -/

namespace Sys2Proof.Machine

/-- What a command does from the write of `CMD` (which is done by `State.startCommand`) to its completion (spec/30_encoding.md R92, R93). -/
def exec (i : Instr) (s : State) : Host.Outcome State Fault Refusal :=
  match i with
  | .ftCount => Sys2Proof.Machine.execFtCount s
  | .ftNorm => Sys2Proof.Machine.execFtNorm s
  | .tblRef => Sys2Proof.Machine.execTblRef s
  | .tblFast => Sys2Proof.Machine.execTblFast s
  | .tblFa => Sys2Proof.Machine.execTblFa s
  | .initRef => Sys2Proof.Machine.execInitRef s
  | .initFast => Sys2Proof.Machine.execInitFast s
  | .initFa => Sys2Proof.Machine.execInitFa s
  | .encRef => Sys2Proof.Machine.execEncRef s
  | .encFast => Sys2Proof.Machine.execEncFast s
  | .encFa => Sys2Proof.Machine.execEncFa s
  | .decRef => Sys2Proof.Machine.execDecRef s
  | .decFast => Sys2Proof.Machine.execDecFast s
  | .decFa => Sys2Proof.Machine.execDecFa s

end Sys2Proof.Machine
end

