-- ==== Sys2Proof/Machine/RunCommand.lean ====
section
/-! DEFINITION. A write of `CMD`, and the next host operation (spec/30_encoding.md R92, R99, R103; spec/70_reset_and_hazards.md R280). -/

namespace Sys2Proof.Machine

/-- `RegWrite(0, w)`: `CMD <- w`, `BUSY <- 1`, then the command runs to its completion; an illegal word raises `IllegalCommand`
(30 R92, R95, R103 step 1). -/
def State.runCommand (s : State) (w : Word) : Host.Outcome State Fault Refusal :=
  match decode w with
  | .ok i => exec i (s.startCommand w)
  | .error _ => .next ((s.startCommand w).raise .illegalCommand)

/-- The whole effect of one host operation (30 R98, R99, R100, R105). -/
def State.perform (s : State) (op : HostOp) : Host.Outcome State Fault Refusal :=
  match commandOf op with
  | some w => s.runCommand w
  | none => s.hostOp op

/-- The host's next operation leaves its script and is performed; with none left the core is idle and holds its state (60 R255, log 1). -/
def State.stepHost (s : State) : Host.Outcome State Fault Refusal :=
  match s.script with
  | [] => .next s
  | op :: rest => { s with script := rest }.perform op

end Sys2Proof.Machine
end

