-- ==== Sys2Proof/Machine/Step.lean ====
section
/-! DEFINITION. One step: the next host operation of the script, with the whole effect of the command it starts
(spec/70_reset_and_hazards.md R280, R281). -/

namespace Sys2Proof.Machine

/-- One host operation (70 R280). -/
def step (s : State) : Host.Outcome State Fault Refusal := s.stepHost

/-- The state whose next step runs the instruction whose bits are `w` (log 1, log 14). -/
def State.withFetchWord (s : State) (nbits w : Nat) : State := s.placeCommand nbits w

end Sys2Proof.Machine
end

