-- ==== Sys2Proof/Safety.lean ====
section
/-! DEFINITION. What the statements are stated in: the conditions a command checks as the spec's own table gives them
(spec/30_encoding.md R103, R104), the launch premises (spec/70_reset_and_hazards.md R283), what stays unchanged (spec/20_memory.md R78),
and the invariant of the machine (spec/10_state.md R47, R48). -/

namespace Sys2Proof.Machine

/-! ### The prologue's conditions, column by column (30 R104) -/

/-- The regions and the total the command uses are legal (30 R103 step 2, R104). -/
def operandsLegal (s : State) : Instr → Prop
  | .ftCount | .initRef | .initFast | .initFa => s.RegionValid s.aSrc s.nSrc
  | .ftNorm => LegalTotal s.ftTotal
  | .tblRef | .tblFast | .tblFa => True
  | .encRef | .encFast | .encFa | .decRef | .decFast | .decFa =>
    s.RegionValid s.aSrc s.nSrc ∧ s.RegionValid s.aBuf s.nBuf ∧ ¬ Overlap s.aSrc s.nSrc s.aBuf s.nBuf

/-- The "needs" column (30 R104). -/
def needsMet (s : State) : Instr → Prop
  | .ftCount | .initRef | .initFast | .initFa => True
  | .ftNorm => s.sstate = .counted
  | .tblRef | .tblFast | .tblFa => s.sstate = .normal ∧ wordAt s.cum 256 = 16384
  | .encRef => s.tvar = .ref
  | .encFast => s.tvar = .fast
  | .encFa => s.tvar = .fa
  | .decRef | .decFast => s.tvar = .ref ∨ s.tvar = .fast
  | .decFa => s.tvar = .fa

/-- The command is one of `ENC.v`, `DEC.v`: the only ones that write buffer memory (20 R67, R78). -/
def writesMemory : Instr → Bool
  | .encRef | .encFast | .encFa | .decRef | .decFast | .decFa => true
  | .ftCount | .ftNorm | .tblRef | .tblFast | .tblFa | .initRef | .initFast | .initFa => false

/-! ### Launch premises (70 R283) -/

/-- The bytes of the source region, in order: the input sequence of a counting or encoding command (10 R25). -/
def State.sourceBytes (s : State) : List Byte := (List.range s.nSrc.toNat).map (fun i => s.mem.read (s.aSrc.toNat + i))

/-- The table frequency of symbol `b` (10 R37). -/
def State.symFreq (s : State) (b : Byte) : Nat := (s.encOf b).freq.toNat

/-- Every symbol of the sequence has a nonzero table frequency (70 R274). -/
def State.SymbolsCoded (s : State) : Prop := ∀ b ∈ s.sourceBytes, s.symFreq b ≠ 0

/-- `BufferLargeEnough` (70 R263, R283). -/
def State.BufferLargeEnough (s : State) : Prop := 2 * s.nSrc.toNat + 10 ≤ s.nBuf.toNat

/-- The registers set for decoding what `ENC.v` left in state `t` (70 R262, R271): the tail is the source region, `dst` the destination and
`n` the original length. -/
def State.pointAtTail (t : State) (dst n : Word) : State :=
  { t with aSrc := t.aBuf + t.nBuf - t.result, nSrc := t.result, aBuf := dst, nBuf := n }

/-- How many symbols occur in the counted sequence: the distinct symbols present (40 R120). -/
def distinctSymbols (freq : Vector Word 256) : Nat := ((List.range 256).filter (fun i => decide (wordAt freq i ≠ 0))).length

/-! ### What the commands compute, said once more and plainly -/

/-- The rescaled boundary `i` for total `t`: round half up, or the empty sequence's (40 R114, R115). -/
def rescaledBoundary (t : Nat) (freq : Vector Word 256) (i : Nat) : Nat :=
  if rawSum freq 256 = 0 then (if i = 0 then 0 else t)
  else (2 * t * rawSum freq i + rawSum freq 256) / (2 * rawSum freq 256)

/-- The repair pass as a history (40 R116): `cs i` are the boundaries before symbol `i` is visited. A present symbol of frequency 0 then has a
donor on the current boundaries, and the shift between the two gives the next ones; any other symbol changes nothing. -/
def RepairPass (raw : Nat → Nat) (cs : Nat → Nat → Nat) : Prop :=
  ∀ i < 256,
    (raw i ≠ 0 ∧ cs i (i + 1) = cs i i → ∃ d, donor (cs i) = some d ∧ cs (i + 1) = shiftBoundaries d i (cs i))
      ∧ (¬ (raw i ≠ 0 ∧ cs i (i + 1) = cs i i) → cs (i + 1) = cs i)

/-- The number whose bytes are the `n` bytes from `a`, the first one most significant (43 R195). -/
def numberBE (m : Memory) (a : Nat) : Nat → Nat
  | 0 => 0
  | n + 1 => 2 ^ 8 * numberBE m a n + (m.read (a + n)).toNat

/-- What `ENC.REF` makes of a sequence (41 R135 to R140): the final state and the words emitted, the last one emitted first. The symbols are
taken from the last to the first. -/
def State.refStream (s : State) : List Byte → Nat × List Nat
  | [] => (2 ^ 31, [])
  | b :: rest =>
    let p := s.refStream rest
    let f := s.symFreq b
    let c := (s.encOf b).start.toNat
    if p.1 < 2 ^ 49 * f then (p.1 / f * 2 ^ 14 + p.1 % f + c, p.2)
    else (p.1 / 2 ^ 32 / f * 2 ^ 14 + p.1 / 2 ^ 32 % f + c, p.1 % 2 ^ 32 :: p.2)

/-- What `ENC.FA` makes of a sequence (43 R195): the state, how many bits it has emitted, and those bits as a number, the first one emitted
least significant. -/
structure FaStream where
  x : Nat
  bits : Nat
  emitted : Nat
  deriving DecidableEq, Repr

/-- The stream of `ENC.FA` (43 R185, R190 to R192, R202, R203): the symbols are taken from the last to the first, and each shifts the state
into [8f, 16f). -/
def State.faStream (s : State) : List Byte → FaStream
  | [] => { x := 2 ^ 17, bits := 0, emitted := 0 }
  | b :: rest =>
    let p := s.faStream rest
    let f := s.symFreq b
    let shift := if f * 2 ^ (18 - bitWidth f) ≤ p.x then 15 - bitWidth f else 14 - bitWidth f
    let y := p.x / 2 ^ shift
    { x := y / f * 2 ^ 14 + y % f + (s.encOf b).start.toNat
      bits := p.bits + shift
      emitted := p.emitted + p.x % 2 ^ shift * 2 ^ p.bits }

/-- How many bytes the encode steps of variant `v` write for a sequence, before the final flush: whole words (41 R137), or the whole bytes
among the emitted bits (43 R194). -/
def State.streamBytes (s : State) (v : TVar) (l : List Byte) : Nat :=
  if v = .fa then (s.faStream l).bits / 8 else 4 * (s.refStream l).2.length

/-- The state after the update of a decode step from state `x` (41 R143, 43 R199). -/
def State.decodedState (s : State) (x : Nat) : Nat :=
  let e := s.decOf (s.invOf x)
  e.freq.toNat * (x / 2 ^ 14) + x % 2 ^ 14 - e.start.toNat

/-- What `DEC.REF` and `DEC.FAST` make of the rest of the tail: the next symbols from state `x` with the next word at `rd`, or nothing when a
word they need passes the end of the tail (41 R142 to R144). -/
def State.refDecoded (s : State) : Nat → Nat → Nat → Option (List Byte)
  | 0, _, _ => some []
  | n + 1, x, rd =>
    let y := s.decodedState x
    if 2 ^ 31 ≤ y then (s.refDecoded n y rd).map (s.invOf x :: ·)
    else if s.srcEnd < rd + 4 then none
    else (s.refDecoded n (y * 2 ^ 32 + s.mem.readLE rd 4) (rd + 4)).map (s.invOf x :: ·)

/-- What `DEC.FA` makes of the rest of the tail: the next symbols from state `x`, with the `bits` bits of `held` read but not used and the
next byte at `rd`, or nothing when a byte they need passes the end of the tail (43 R198, R199). -/
def State.faDecoded (s : State) : Nat → Nat → Nat → Nat → Nat → Option (List Byte)
  | 0, _, _, _, _ => some []
  | n + 1, x, held, bits, rd =>
    let y := s.decodedState x
    let k := 18 - bitWidth y
    let m := (k - bits + 7) / 8
    let left := bits + 8 * m - k
    let all := held * 2 ^ (8 * m) + numberBE s.mem rd m
    if s.srcEnd < rd + m then none
    else (s.faDecoded n (y * 2 ^ k + all / 2 ^ left) (all % 2 ^ left) left (rd + m)).map (s.invOf x :: ·)

/-! ### What stays unchanged -/

/-- No register the host writes, no part of the host's side, and not the size of memory changes (10 R21 "written by the core: never"). -/
def SameInputs (s t : State) : Prop :=
  t.cmd = s.cmd ∧ t.aSrc = s.aSrc ∧ t.nSrc = s.nSrc ∧ t.aBuf = s.aBuf ∧ t.nBuf = s.nBuf ∧ t.ftTotal = s.ftTotal ∧ t.taddr = s.taddr
    ∧ t.memTop = s.memTop ∧ t.script = s.script ∧ t.reads = s.reads

/-- The statistics memories and their flag do not change. -/
def SameStatistics (s t : State) : Prop := t.freq = s.freq ∧ t.cum = s.cum ∧ t.sstate = s.sstate

/-- The table set and its flag do not change. -/
def SameTables (s t : State) : Prop := t.enc = s.enc ∧ t.dec = s.dec ∧ t.inv = s.inv ∧ t.tvar = s.tvar

/-- Every byte of buffer memory reads as before. -/
def SameMemory (s t : State) : Prop := ∀ a, t.mem.read a = s.mem.read a

/-- Every byte outside the `n` bytes from `a` reads as before. -/
def SameMemoryOutside (s t : State) (a n : Nat) : Prop := ∀ x, x < a ∨ a + n ≤ x → t.mem.read x = s.mem.read x

/-- Two `ENC` entries agree in the fields variant `v` has (10 R37). -/
def SameEntry (v : TVar) (e e' : EncEntry) : Prop :=
  e'.freq = e.freq ∧ e'.start = e.start
    ∧ (v = .fast → e'.cmplFreq = e.cmplFreq ∧ e'.rcp = e.rcp ∧ e'.rcpShift = e.rcpShift ∧ e'.bias = e.bias)
    ∧ (v = .fa → e'.delta = e.delta)

/-- Two states hold the same statistics and the same table set, in every field that variant `v` specifies. -/
def SameBuilt (v : TVar) (s t : State) : Prop :=
  SameStatistics s t ∧ t.tvar = s.tvar ∧ t.dec = s.dec ∧ t.inv = s.inv ∧ ∀ b, SameEntry v (s.encOf b) (t.encOf b)

/-- The command ended with error `e`: completion as 30 R93 says, `RESULT` = 0. -/
def EndedWith (t : State) (e : ErrorCode) : Prop := t.err = e ∧ t.done = true ∧ t.busy = false ∧ t.result = 0

/-! ### The invariant -/

/-- Valid statistics (10 R47 a to d): `CUM` starts at 0, its differences are `FREQ`, and it ends at a legal total. -/
def State.StatisticsOk (s : State) : Prop :=
  s.sstate = .normal →
    wordAt s.cum 0 = 0 ∧ (∀ i < 256, wordAt s.cum (i + 1) = wordAt s.cum i + wordAt s.freq i)
      ∧ ∃ k ≤ 14, wordAt s.cum 256 = 2 ^ k

/-- Raw counts (40 R113): their sum is the length of the counted sequence, below 2^32. -/
def State.CountsOk (s : State) : Prop := s.sstate = .counted → rawSum s.freq 256 < 2 ^ 32

/-- `DEC[i].start` and `DEC[i].freq` as numbers. -/
def State.decStart (s : State) (i : Nat) : Nat := (s.decOf (BitVec.ofNat 8 i)).start.toNat

@[inherit_doc State.decStart]
def State.decFreq (s : State) (i : Nat) : Nat := (s.decOf (BitVec.ofNat 8 i)).freq.toNat

/-- A valid table set (10 R42, R48), said of the tables alone, since the statistics may have changed since they were built: `ENC` and `DEC`
agree, the intervals follow each other from 0 to 16384, and every slot names the symbol whose interval holds it. -/
def State.IntervalsOk (s : State) : Prop :=
  (∀ b : Byte, (s.encOf b).freq = (s.decOf b).freq ∧ (s.encOf b).start = (s.decOf b).start)
    ∧ s.decStart 0 = 0
    ∧ (∀ i < 255, s.decStart (i + 1) = s.decStart i + s.decFreq i)
    ∧ s.decStart 255 + s.decFreq 255 = 16384
    ∧ ∀ k < 16384, (s.decOf (s.invOf k)).start.toNat ≤ k
        ∧ k < (s.decOf (s.invOf k)).start.toNat + (s.decOf (s.invOf k)).freq.toNat

/-- The table set is valid for the variant `TVAR` names: the intervals, and the fields of the variant (42 R161, 43 R183). -/
def State.TablesOk (s : State) : Prop :=
  (s.tvar ≠ .none → s.IntervalsOk)
    ∧ (s.tvar = .fast → ∀ b : Byte, s.encOf b = fastEntry (s.encOf b) (s.encOf b).freq.toNat (s.encOf b).start.toNat)
    ∧ (s.tvar = .fa → ∀ b : Byte, (s.encOf b).delta = faDelta (s.encOf b).freq.toNat)

/-- Buffer memory is in its canonical form and lists no address at or above MEM_SIZE (20 R61). -/
def State.MemoryOk (s : State) : Prop := s.mem.wf ∧ ∀ c ∈ s.mem, c.1 < s.memSize

/-- The invariant of the machine between host operations: `NoCommandRunning` (70 R283), memory, statistics and table set. -/
def State.Inv (s : State) : Prop := s.busy = false ∧ s.MemoryOk ∧ s.StatisticsOk ∧ s.CountsOk ∧ s.TablesOk

end Sys2Proof.Machine
end

