-- ==== Sys2Proof/Certificates/Slice0/Obligations.lean ====
section
/-! DEFINITION. The statements for the provers. Each docstring names the rule of the spec it formalises. -/

open Sys2Proof Sys2Proof.Machine

/-! ### Encoding and the step -/

/-- 30 R94: the fourteen command words, written out from the opcode map. -/
def Obligations.DecodesOpcodeMapWords : Prop :=
  decode 0x00000010#32 = .ok .ftCount ∧ decode 0x00000020#32 = .ok .ftNorm
    ∧ decode 0x00000031#32 = .ok .tblRef ∧ decode 0x00000032#32 = .ok .tblFast ∧ decode 0x00000033#32 = .ok .tblFa
    ∧ decode 0x00000041#32 = .ok .initRef ∧ decode 0x00000042#32 = .ok .initFast ∧ decode 0x00000043#32 = .ok .initFa
    ∧ decode 0x00000051#32 = .ok .encRef ∧ decode 0x00000052#32 = .ok .encFast ∧ decode 0x00000053#32 = .ok .encFa
    ∧ decode 0x00000061#32 = .ok .decRef ∧ decode 0x00000062#32 = .ok .decFast ∧ decode 0x00000063#32 = .ok .decFa

/-- 30 R90, R91: decoding what the encoder writes gives the command back. -/
def Obligations.DecodeOfEncode : Prop := ∀ i : Instr, i.WellFormed = true → decode (encode i) = .ok i

/-- 30 R91, R95: a word decodes to a command exactly when it is that command's word, so every other word is illegal. -/
def Obligations.DecodeAcceptsExactlyTheMap : Prop := ∀ (w : Word) (i : Instr), decode w = .ok i ↔ w = encode i

/-- 30 R95, 60 R234: a word that is no command's raises `IllegalCommand`; nothing but `CMD`, `STATUS` and `RESULT` changes (the working
registers are unspecified, 60 R237). -/
def Obligations.IllegalWordChangesNothingElse : Prop :=
  ∀ (s : State) (w : Word), (∀ i, w ≠ encode i) →
    ∃ t, s.runCommand w = .next t ∧ EndedWith t .illegalCommand ∧ t.cmd = w ∧ SameInputs (s.startCommand w) t
      ∧ SameStatistics s t ∧ SameTables s t ∧ t.mem = s.mem

/-- 30 R92, R99: a write of a legal word to `CMD` at the head of the script runs exactly the decoded command, on the state with the
operation taken off the script, the word in `CMD` and `BUSY` = 1. -/
def Obligations.StepRunsDecodedCommand : Prop :=
  ∀ (s : State) (r : BitVec 4) (w : Word) (rest : List HostOp) (i : Instr),
    s.script = .regWrite r w :: rest → r = 0 → decode w = .ok i →
      step s = exec i (State.startCommand { s with script := rest } w)

/-- The placed command is the one the very next step runs (log 1, log 14). -/
def Obligations.PlacedCommandRunsNext : Prop :=
  ∀ (s : State) (i : Instr), step (s.withFetchWord 32 (encode i).toNat) = exec i (s.startCommand (encode i))

/-- 70 R276, 30 R105: every step answers a next state, except a host memory access at or above MEM_SIZE, which faults by name (log 9). -/
def Obligations.StepStopsOnlyOutsideMemory : Prop :=
  ∀ s : State, (∃ t, step s = .next t)
    ∨ ∃ (a : Word) (rest : List HostOp), (s.script = .memRead a :: rest ∨ ∃ b, s.script = .memWrite a b :: rest)
        ∧ s.memSize ≤ a.toNat ∧ step s = .fault (.hostAddressOutsideMemory a)

/-- 30 R93, 70 R276: every command, in every state, runs to its completion; an error leaves `RESULT` = 0. -/
def Obligations.EveryCommandCompletes : Prop :=
  ∀ (i : Instr) (s : State), ∃ t, exec i s = .next t ∧ t.done = true ∧ t.busy = false ∧ (t.err ≠ .none → t.result = 0)

/-! ### Host operations -/

/-- 10 R23, R41, R42, 60 R231: the STATUS word is its fields at their places, every other bit 0, and the code of each error, of each
`SSTATE` and of each `TVAR` is the spec's. -/
def Obligations.StatusWordIsItsFields : Prop :=
  (∀ s : State, s.statusWord.toNat
      = s.busy.toNat + 2 * s.done.toNat + 16 * s.err.code.toNat + 256 * s.sstate.code.toNat + 4096 * s.tvar.code.toNat)
    ∧ (ErrorCode.none.code = 0 ∧ ErrorCode.bufferTooSmall.code = 1 ∧ ErrorCode.invalidLength.code = 2
      ∧ ErrorCode.degenerateFrequencyTable.code = 3 ∧ ErrorCode.zeroFrequencySymbol.code = 4 ∧ ErrorCode.malformedStream.code = 5
      ∧ ErrorCode.illegalCommand.code = 6 ∧ ErrorCode.badOperand.code = 7 ∧ ErrorCode.notReady.code = 8)
    ∧ (SState.invalid.code = 0 ∧ SState.counted.code = 1 ∧ SState.normal.code = 2)
    ∧ (TVar.none.code = 0 ∧ TVar.ref.code = 1 ∧ TVar.fast.code = 2 ∧ TVar.fa.code = 3)
    ∧ ∀ s : State, s.err.code.toNat ≤ 8 ∧ s.sstate.code.toNat ≤ 2

/-- 30 R98, 10 R21 to R27, R44: what a read of each register but `TDATA` returns; it changes nothing of the core. That the value goes to the
end of the list `reads` is the model's choice (log 10). -/
def Obligations.RegReadReturnsTheRegister : Prop :=
  ∀ (s : State) (i : BitVec 4) (rest : List HostOp), s.script = .regRead i :: rest → i ≠ 9 →
    step s = .next { s with
      script := rest
      reads := s.reads ++ [
        if i = 0 then s.cmd else if i = 1 then s.statusWord else if i = 2 then s.result else if i = 3 then s.aSrc
        else if i = 4 then s.nSrc else if i = 5 then s.aBuf else if i = 6 then s.nBuf else if i = 7 then s.ftTotal
        else if i = 8 then s.taddr else 0] }

/-- 30 R99: `RegWrite(i, v)` for every index: `CMD` runs the command, six registers store, the others ignore the write. -/
def Obligations.RegWriteStoresOrRuns : Prop :=
  ∀ (s : State) (i : BitVec 4) (v : Word) (rest : List HostOp), s.script = .regWrite i v :: rest →
    step s =
      if i = 0 then State.runCommand { s with script := rest } v
      else if i = 3 then .next { s with script := rest, aSrc := v }
      else if i = 4 then .next { s with script := rest, nSrc := v }
      else if i = 5 then .next { s with script := rest, aBuf := v }
      else if i = 6 then .next { s with script := rest, nBuf := v }
      else if i = 7 then .next { s with script := rest, ftTotal := v }
      else if i = 8 then .next { s with script := rest, taddr := v }
      else .next { s with script := rest }

/-- 10 R28, R43: a read of `TDATA` returns the table word at `TADDR` for every valid entry of the map, and changes nothing of the core. That
the value goes to the end of the list `reads` (log 10) and that each read advances the counter of the free values (log 8) are the model's
choices. -/
def Obligations.TdataReadsTheTableSpace : Prop :=
  ∀ s : State,
    (∀ rest, s.script = .regRead 9 :: rest →
      step s = .next { s with script := rest, reads := s.reads ++ [s.tdata], fresh := s.fresh + 1 })
    ∧ (∀ b < 256, s.taddr.toNat = b → s.sstate ≠ .invalid → s.tdata.toNat = wordAt s.freq b)
    ∧ (∀ i ≤ 256, s.taddr.toNat = 0x100 + i → s.sstate = .normal → s.tdata.toNat = wordAt s.cum i)
    ∧ (∀ b : Byte, s.tvar ≠ .none →
        (s.taddr.toNat = 0x400 + b.toNat → s.tdata = (s.encOf b).freq) ∧ (s.taddr.toNat = 0x500 + b.toNat → s.tdata = (s.encOf b).start)
        ∧ (s.taddr.toNat = 0xC00 + b.toNat → s.tdata = (s.decOf b).start) ∧ (s.taddr.toNat = 0xD00 + b.toNat → s.tdata = (s.decOf b).freq))
    ∧ (∀ b : Byte, s.tvar = .fast →
        (s.taddr.toNat = 0x600 + b.toNat → s.tdata = (s.encOf b).cmplFreq)
        ∧ (s.taddr.toNat = 0x700 + b.toNat → s.tdata.toNat = (s.encOf b).rcp.toNat % 2 ^ 32)
        ∧ (s.taddr.toNat = 0x800 + b.toNat → s.tdata.toNat = (s.encOf b).rcp.toNat / 2 ^ 32)
        ∧ (s.taddr.toNat = 0x900 + b.toNat → s.tdata = (s.encOf b).rcpShift)
        ∧ (s.taddr.toNat = 0xA00 + b.toNat → s.tdata = (s.encOf b).bias))
    ∧ (∀ b : Byte, s.tvar = .fa → s.taddr.toNat = 0xB00 + b.toNat → s.tdata = (s.encOf b).delta)
    ∧ (∀ k < 16384, s.tvar ≠ .none → s.taddr.toNat = 0x4000 + k → s.tdata.toNat = (s.invOf k).toNat)

/-- 30 R105, 20 R61: HostMemWrite sets its byte and no other, HostMemRead returns the byte; neither touches the core. That the byte read goes
to the end of the list `reads` as a 32-bit word is the model's choice (log 10). -/
def Obligations.HostMemoryAccess : Prop :=
  (∀ (s : State) (a : Word) (b : Byte) (rest : List HostOp), s.script = .memWrite a b :: rest → a.toNat < s.memSize →
    ∃ m : Memory, step s = .next { s with script := rest, mem := m } ∧ ∀ x, m.read x = if x = a.toNat then b else s.mem.read x)
  ∧ (∀ (s : State) (a : Word) (rest : List HostOp), s.script = .memRead a :: rest → a.toNat < s.memSize →
    step s = .next { s with script := rest, reads := s.reads ++ [(s.mem.read a.toNat).setWidth 32] })

/-- 10 R46, 30 R100, 70 R260: the Reset operation puts every host-visible register and both flags at their reset values. -/
def Obligations.ResetOperationValues : Prop :=
  ∀ (s : State) (rest : List HostOp), s.script = .reset :: rest →
    ∃ t, step s = .next t ∧ t.cmd = 0 ∧ t.statusWord = 0 ∧ t.result = 0 ∧ t.aSrc = 0 ∧ t.nSrc = 0 ∧ t.aBuf = 0 ∧ t.nBuf = 0
      ∧ t.ftTotal = 16384 ∧ t.taddr = 0 ∧ t.sstate = .invalid ∧ t.tvar = .none ∧ t.mem = s.mem ∧ t.memTop = s.memTop
      ∧ t.script = rest ∧ t.reads = s.reads

/-- 10 R46: the values of the state after reset that the spec gives, whatever the size of memory. -/
def Obligations.ResetStateValues : Prop :=
  ∀ top : Word, let s := State.resetWith top
    s.cmd = 0 ∧ s.statusWord = 0 ∧ s.result = 0 ∧ s.aSrc = 0 ∧ s.nSrc = 0 ∧ s.aBuf = 0 ∧ s.nBuf = 0 ∧ s.ftTotal = 16384
      ∧ s.taddr = 0 ∧ s.sstate = .invalid ∧ s.tvar = .none ∧ s.memSize = top.toNat + 1

/-- 70 R260: a core fresh from reset refuses, with `NotReady`, every command that would read a table nobody built. -/
def Obligations.FreshCoreRefusesTableReaders : Prop :=
  ∀ (top : Word) (i : Instr), i ∉ [Instr.ftCount, .initRef, .initFast, .initFa] →
    exec i (State.resetWith top) = .next ((State.resetWith top).raise .notReady)

/-- 70 R261, 60 R255: Reset does not change buffer memory, and no host operation but Reset and a command changes `SSTATE`, `TVAR`, `DONE` or
`ERR`; an idle core holds all its state. That an idle core is one whose script is empty, and that its step gives the same state back, is the
model's choice (log 1). -/
def Obligations.OnlyCommandsAndResetChangeFlags : Prop :=
  (∀ (s t : State) (rest : List HostOp), s.script = .reset :: rest → step s = .next t → t.mem = s.mem)
  ∧ (∀ (s t : State) (op : HostOp) (rest : List HostOp), s.script = op :: rest → op ≠ .reset → (∀ w, op ≠ .regWrite 0 w) →
      step s = .next t → t.sstate = s.sstate ∧ t.tvar = s.tvar ∧ t.done = s.done ∧ t.err = s.err)
  ∧ ∀ s : State, s.script = [] → step s = .next s

/-! ### Memory and the prologue -/

/-- 20 R63, R64: a read of 4 bytes or 1 is the little-endian number they hold; a write of 4 bytes or 1 stores the number little-endian and
changes no other byte. -/
def Obligations.WordsAreLittleEndian : Prop :=
  ∀ (m : Memory) (a : Nat),
    m.readLE a 4 = (m.read a).toNat + 2 ^ 8 * (m.read (a + 1)).toNat + 2 ^ 16 * (m.read (a + 2)).toNat + 2 ^ 24 * (m.read (a + 3)).toNat
      ∧ m.readLE a 1 = (m.read a).toNat
      ∧ (∀ v < 2 ^ 32, ∀ x, (m.writeLE a 4 v).read x =
          if x = a then BitVec.ofNat 8 v else if x = a + 1 then BitVec.ofNat 8 (v / 2 ^ 8)
          else if x = a + 2 then BitVec.ofNat 8 (v / 2 ^ 16) else if x = a + 3 then BitVec.ofNat 8 (v / 2 ^ 24) else m.read x)
      ∧ (∀ v < 2 ^ 8, ∀ x, (m.writeLE a 1 v).read x = if x = a then BitVec.ofNat 8 v else m.read x)
      ∧ (∀ v < 2 ^ 32, (m.writeLE a 4 v).readLE a 4 = v)

/-- 60 R235, 30 R103: an illegal operand, and nothing else, raises `BadOperand`, whether or not the command is ready; nothing but `STATUS` and
`RESULT` changes (the working registers are unspecified, 60 R237). -/
def Obligations.BadOperandComesFirst : Prop :=
  ∀ (i : Instr) (s : State), (¬ operandsLegal s i →
      ∃ t, exec i s = .next t ∧ EndedWith t .badOperand ∧ SameInputs s t ∧ SameStatistics s t ∧ SameTables s t ∧ t.mem = s.mem)
    ∧ (operandsLegal s i → ∀ t, exec i s = .next t → t.err ≠ .badOperand)

/-- 60 R242, 30 R103: with legal operands, a command whose needs are not met, and no other, raises `NotReady`; nothing but `STATUS` and
`RESULT` changes. -/
def Obligations.NotReadyComesSecond : Prop :=
  ∀ (i : Instr) (s : State), operandsLegal s i → (¬ needsMet s i →
      ∃ t, exec i s = .next t ∧ EndedWith t .notReady ∧ SameInputs s t ∧ SameStatistics s t ∧ SameTables s t ∧ t.mem = s.mem)
    ∧ (needsMet s i → ∀ t, exec i s = .next t → t.err ≠ .notReady)

/-- 20 R78, R77, 10 R21, 60 R237: what each command leaves unchanged in every outcome; and below its last `RESULT` bytes an `ENC.v` that ends
without error leaves the destination region unchanged, however small the buffer. No command writes a register the host writes; only the
destination region of a coding command can change in memory; coding commands change no table; `FT.COUNT` and `FT.NORM` leave the table set
(10 R48), `TBL.v` the statistics. -/
def Obligations.FrameOfEveryCommand : Prop :=
  ∀ (i : Instr) (s t : State), exec i s = .next t →
    SameInputs s t
      ∧ SameMemoryOutside s t s.aBuf.toNat s.nBuf.toNat
      ∧ (writesMemory i = false → t.mem = s.mem)
      ∧ (writesMemory i = true → SameStatistics s t ∧ SameTables s t)
      ∧ (i ∈ [Instr.ftCount, .ftNorm] → SameTables s t)
      ∧ (i ∈ [Instr.tblRef, .tblFast, .tblFa] → SameStatistics s t)
      ∧ (i ∈ [Instr.encRef, .encFast, .encFa] → t.err = .none →
          t.result.toNat ≤ s.nBuf.toNat ∧ SameMemoryOutside s t (s.bufEnd - t.result.toNat) t.result.toNat)

/-! ### The frequency table builder -/

/-- 40 R111: `FT.COUNT` of a valid source region completes; `FREQ[b]` is the number of times `b` occurs in the sequence. -/
def Obligations.CountGivesOccurrences : Prop :=
  ∀ s : State, s.SourceOk →
    ∃ t, exec .ftCount s = .next t ∧ EndedWith t .none ∧ t.sstate = .counted
      ∧ (∀ b : Byte, wordAt t.freq b.toNat = s.sourceBytes.count b)
      ∧ SameInputs s t ∧ SameTables s t ∧ t.mem = s.mem

/-- 40 R112, R116, R119, R121, 10 R47: with a legal total that is at least the number of distinct symbols, `FT.NORM` completes, its result
satisfies the invariants (a) to (e) of the statistics, and it is what the repair pass, visiting the symbols in ascending order, makes of
the rescaled boundaries (`RepairPass`). -/
def Obligations.NormalizeGivesValidStatistics : Prop :=
  ∀ s : State, LegalTotal s.ftTotal → s.sstate = .counted → distinctSymbols s.freq ≤ s.ftTotal.toNat →
    ∃ t, exec .ftNorm s = .next t ∧ EndedWith t .none ∧ t.sstate = .normal
      ∧ wordAt t.cum 0 = 0 ∧ (∀ i < 256, wordAt t.cum (i + 1) = wordAt t.cum i + wordAt t.freq i)
      ∧ wordAt t.cum 256 = s.ftTotal.toNat
      ∧ (∀ i < 256, wordAt s.freq i ≠ 0 → 1 ≤ wordAt t.freq i)
      ∧ (rawSum s.freq 256 ≠ 0 → ∀ i < 256, wordAt s.freq i = 0 → wordAt t.freq i = 0)
      ∧ (∃ cs : Nat → Nat → Nat, cs 0 = rescaledBoundary s.ftTotal.toNat s.freq ∧ RepairPass (wordAt s.freq) cs
          ∧ ∀ j ≤ 256, wordAt t.cum j = cs 256 j)
      ∧ SameInputs s t ∧ SameTables s t ∧ t.mem = s.mem

/-- 40 R114, R116: the boundaries are the rescaled cumulative sums, rounded half up, when no present symbol is rounded to frequency 0; when
exactly one is, and the total suffices, they are those after the one shift from its donor. -/
def Obligations.NormalizeRoundsHalfUp : Prop :=
  ∀ s : State, LegalTotal s.ftTotal → s.sstate = .counted → 0 < rawSum s.freq 256 →
    let c := fun i => (2 * s.ftTotal.toNat * rawSum s.freq i + rawSum s.freq 256) / (2 * rawSum s.freq 256)
    ((∀ i < 256, wordAt s.freq i ≠ 0 → c i < c (i + 1)) →
      ∃ t, exec .ftNorm s = .next t ∧ EndedWith t .none ∧ ∀ i ≤ 256, wordAt t.cum i = c i)
    ∧ ∀ i < 256, wordAt s.freq i ≠ 0 → c (i + 1) = c i → (∀ j < 256, j ≠ i → wordAt s.freq j ≠ 0 → c j < c (j + 1)) →
      distinctSymbols s.freq ≤ s.ftTotal.toNat →
        ∃ t d, exec .ftNorm s = .next t ∧ EndedWith t .none ∧ donor c = some d ∧ ∀ j ≤ 256, wordAt t.cum j = shiftBoundaries d i c j

/-- 40 R115: the empty sequence normalizes without error; symbol 0 receives the whole total. -/
def Obligations.NormalizeEmptySequence : Prop :=
  ∀ s : State, LegalTotal s.ftTotal → s.sstate = .counted → (∀ i < 256, wordAt s.freq i = 0) →
    ∃ t, exec .ftNorm s = .next t ∧ EndedWith t .none ∧ wordAt t.cum 0 = 0 ∧ (∀ i, 1 ≤ i → i ≤ 256 → wordAt t.cum i = s.ftTotal.toNat)
      ∧ wordAt t.freq 0 = s.ftTotal.toNat ∧ ∀ i, 1 ≤ i → i < 256 → wordAt t.freq i = 0

/-- 40 R122: a single distinct symbol receives the whole total. -/
def Obligations.NormalizeSingleSymbol : Prop :=
  ∀ (s : State) (v : Nat), LegalTotal s.ftTotal → s.sstate = .counted → v < 256 → wordAt s.freq v ≠ 0 →
    (∀ i < 256, i ≠ v → wordAt s.freq i = 0) →
    ∃ t, exec .ftNorm s = .next t ∧ EndedWith t .none ∧ wordAt t.freq v = s.ftTotal.toNat
      ∧ ∀ i ≤ 256, wordAt t.cum i = if i ≤ v then 0 else s.ftTotal.toNat

/-- 40 R120, 60 R238, R237: `FT.NORM` raises `DegenerateFrequencyTable` exactly when the total is smaller than the number of distinct symbols
present, and then only marks the statistics invalid. -/
def Obligations.DegenerateWhenTooManySymbols : Prop :=
  ∀ s : State, LegalTotal s.ftTotal → s.sstate = .counted →
    ∃ t, exec .ftNorm s = .next t
      ∧ (t.err = .degenerateFrequencyTable ↔ s.ftTotal.toNat < distinctSymbols s.freq)
      ∧ (t.err ≠ .none → EndedWith t .degenerateFrequencyTable ∧ t.sstate = .invalid ∧ SameInputs s t ∧ SameTables s t ∧ t.mem = s.mem)

/-- 40 R117: the donor is the first symbol among those of the smallest frequency above 1; there is none exactly when no frequency is. -/
def Obligations.DonorIsFirstOfTheSmallest : Prop :=
  ∀ cum : Nat → Nat,
    (∀ d, donor cum = some d ↔
      d < 256 ∧ 1 < gap cum d ∧ (∀ j < 256, 1 < gap cum j → gap cum d ≤ gap cum j) ∧ ∀ j < d, 1 < gap cum j → gap cum d < gap cum j)
    ∧ (donor cum = none ↔ ∀ j < 256, gap cum j ≤ 1)

/-- 40 R118: the boundary shift moves exactly one unit from donor to recipient and changes no other frequency, `CUM[0]` or `CUM[256]`; the
boundaries between the two move by one, all others stay. -/
def Obligations.ShiftMovesOneUnit : Prop :=
  ∀ (cum : Nat → Nat) (d i : Nat), d < 256 → i < 256 → (∀ j < 256, cum j ≤ cum (j + 1)) → 1 < gap cum d → gap cum i = 0 →
    gap (shiftBoundaries d i cum) d = gap cum d - 1
      ∧ gap (shiftBoundaries d i cum) i = 1
      ∧ (∀ j < 256, j ≠ d → j ≠ i → gap (shiftBoundaries d i cum) j = gap cum j)
      ∧ shiftBoundaries d i cum 0 = cum 0 ∧ shiftBoundaries d i cum 256 = cum 256
      ∧ (d < i → ∀ j, shiftBoundaries d i cum j + (if d < j ∧ j ≤ i then 1 else 0) = cum j)
      ∧ (i < d → ∀ j, shiftBoundaries d i cum j = cum j + if i < j ∧ j ≤ d then 1 else 0)

/-! ### Table building -/

/-- 41 R131: `TBL.REF` on statistics normalized to 16384. -/
def Obligations.TblRefCopiesStatistics : Prop :=
  ∀ s : State, s.sstate = .normal → wordAt s.cum 256 = 16384 →
    ∃ t, exec .tblRef s = .next t ∧ EndedWith t .none ∧ t.tvar = .ref
      ∧ (∀ b : Byte, (t.encOf b).freq.toNat = wordAt s.freq b.toNat ∧ (t.encOf b).start.toNat = wordAt s.cum b.toNat
          ∧ (t.decOf b).freq.toNat = wordAt s.freq b.toNat ∧ (t.decOf b).start.toNat = wordAt s.cum b.toNat)
      ∧ SameInputs s t ∧ SameStatistics s t ∧ t.mem = s.mem

/-- 42 R161, R163, R164: `TBL.FAST` on valid statistics normalized to 16384. -/
def Obligations.TblFastComputesReciprocals : Prop :=
  ∀ s : State, s.sstate = .normal → wordAt s.cum 256 = 16384 → s.StatisticsOk →
    ∃ t, exec .tblFast s = .next t ∧ EndedWith t .none ∧ t.tvar = .fast
      ∧ (∀ b : Byte, let f := wordAt s.freq b.toNat; let c := wordAt s.cum b.toNat; let k := bitWidth (f - 1); let e := t.encOf b
          e.freq.toNat = f ∧ e.start.toNat = c ∧ e.cmplFreq.toNat = 16384 - f
          ∧ (f < 2 → e.rcp.toNat = 2 ^ 64 - 1 ∧ e.rcpShift = 0 ∧ e.bias.toNat = c + 16384 - 1)
          ∧ (2 ≤ f → e.rcp.toNat = (2 ^ (k + 63) + f - 1) / f ∧ e.rcpShift.toNat = k - 1 ∧ e.bias.toNat = c)
          ∧ (t.decOf b).freq.toNat = f ∧ (t.decOf b).start.toNat = c)
      ∧ SameInputs s t ∧ SameStatistics s t ∧ t.mem = s.mem

/-- 43 R183, R184: `TBL.FA` on valid statistics normalized to 16384; the delta is the difference modulo 2^32. -/
def Obligations.TblFaComputesDeltas : Prop :=
  ∀ s : State, s.sstate = .normal → wordAt s.cum 256 = 16384 → s.StatisticsOk →
    ∃ t, exec .tblFa s = .next t ∧ EndedWith t .none ∧ t.tvar = .fa
      ∧ (∀ b : Byte, let f := wordAt s.freq b.toNat; let c := wordAt s.cum b.toNat; let e := t.encOf b
          e.freq.toNat = f ∧ e.start.toNat = c
          ∧ (e.delta.toNat : Int) = ((15 - bitWidth f : Nat) * 2 ^ 18 - f * 2 ^ (15 - bitWidth f + 3) : Int) % 2 ^ 32
          ∧ (t.decOf b).freq.toNat = f ∧ (t.decOf b).start.toNat = c)
      ∧ SameInputs s t ∧ SameStatistics s t ∧ t.mem = s.mem

/-- 41 R132: after any `TBL.v` on valid statistics, every slot of a symbol's interval names the symbol. -/
def Obligations.SlotsNameTheirSymbol : Prop :=
  ∀ (i : Instr) (s t : State), i ∈ [Instr.tblRef, .tblFast, .tblFa] → s.sstate = .normal → wordAt s.cum 256 = 16384 → s.StatisticsOk →
    exec i s = .next t →
    ∀ k < 16384, ∀ b : Byte, wordAt s.cum b.toNat ≤ k → k < wordAt s.cum (b.toNat + 1) → t.invOf k = b

/-- 44 R221 to R223: `INIT.v` on any valid source region completes with valid statistics of total 16384 and a valid table set of its variant,
in which every symbol of the sequence has a nonzero frequency. -/
def Obligations.InitBuildsValidTables : Prop :=
  ∀ (s : State), ∀ p ∈ [(Instr.initRef, TVar.ref), (.initFast, .fast), (.initFa, .fa)], s.SourceOk →
    ∃ t, exec p.1 s = .next t ∧ EndedWith t .none ∧ t.sstate = .normal ∧ t.tvar = p.2 ∧ wordAt t.cum 256 = 16384
      ∧ t.StatisticsOk ∧ t.TablesOk
      ∧ (∀ b : Byte, t.symFreq b = wordAt t.freq b.toNat ∧ (t.encOf b).start.toNat = wordAt t.cum b.toNat)
      ∧ (∀ b ∈ s.sourceBytes, 1 ≤ t.symFreq b)
      ∧ SameInputs s t ∧ t.mem = s.mem

/-- 44 R220: `INIT.v` has the effect of `FT.COUNT`; `FT.NORM` with total 16384; `TBL.v` on statistics and table set, whatever `FT_TOTAL`
holds, and does not write `FT_TOTAL`. -/
def Obligations.InitEqualsTheChain : Prop :=
  ∀ (s : State), ∀ p ∈ [(Instr.initRef, Instr.tblRef, TVar.ref), (.initFast, .tblFast, .fast), (.initFa, .tblFa, .fa)], s.SourceOk →
    ∃ a b c t, exec .ftCount { s with ftTotal := 16384 } = .next a ∧ exec .ftNorm a = .next b ∧ exec p.2.1 b = .next c
      ∧ exec p.1 s = .next t ∧ c.err = .none ∧ t.err = .none ∧ t.ftTotal = s.ftTotal ∧ SameBuilt p.2.2 c t

/-- 44 R224: what `INIT.v` leaves depends only on the bytes of the source region and on `v`. -/
def Obligations.InitDependsOnlyOnTheBytes : Prop :=
  ∀ (s s' t t' : State), ∀ p ∈ [(Instr.initRef, TVar.ref), (.initFast, .fast), (.initFa, .fa)], s.SourceOk → s'.SourceOk →
    s.sourceBytes = s'.sourceBytes → exec p.1 s = .next t → exec p.1 s' = .next t' → SameBuilt p.2 t t'

/-! ### Arithmetic of the codecs -/

/-- 42 R165: the reciprocal of a frequency above 1 divides exactly, for every `X` below 2^63. -/
def Obligations.ReciprocalDividesExactly : Prop :=
  ∀ (e : EncEntry) (f c : Nat) (x : DWord), 2 ≤ f → f ≤ 16384 → x.toNat < 2 ^ 63 → fastQuotient (fastEntry e f c) x = x.toNat / f

/-- 42 R168, R163: on its operating range the update of `ENC.FAST` is the update of `ENC.REF`. -/
def Obligations.FastUpdateIsRefUpdate : Prop :=
  ∀ (e : EncEntry) (f c : Nat) (x : DWord), e.freq.toNat = f → e.start.toNat = c → 1 ≤ f → c + f ≤ 16384 → 1 ≤ x.toNat →
    x.toNat < 2 ^ 49 * f → fastUpdate (fastEntry e f c) x = refUpdate e x

/-- 41 R145: an encode step keeps the state in [2^31, 2^63). -/
def Obligations.EncodeStepKeepsStateRange : Prop :=
  ∀ (s : State) (b : Byte) (r r' : Run), (s.encOf b).start.toNat + (s.encOf b).freq.toNat ≤ 2 ^ 14 → 2 ^ 31 ≤ r.work.x.toNat →
    r.work.x.toNat < 2 ^ 63 → encStep refUpdate s b r = .ok r' → 2 ^ 31 ≤ r'.work.x.toNat ∧ r'.work.x.toNat < 2 ^ 63

/-- 41 R146: on a valid table set every decode step of every 64-bit state is defined: the difference is not below 0 and nothing wraps. -/
def Obligations.DecodeStepNeverWraps : Prop :=
  ∀ (s : State) (x : DWord), s.IntervalsOk →
    let e := s.decOf (s.invOf x.toNat)
    e.start.toNat ≤ x.toNat % 2 ^ 14
      ∧ e.freq.toNat * (x.toNat / 2 ^ 14) + (x.toNat % 2 ^ 14 - e.start.toNat) < 2 ^ 64
      ∧ ∀ (i : Nat) (r : Run), r.work.x = x →
          (s.decodeSymbol i r).work.x.toNat = e.freq.toNat * (x.toNat / 2 ^ 14) + (x.toNat % 2 ^ 14 - e.start.toNat)

/-- 41 R147: one decode update undoes one encode update: the slot lies in the symbol's interval and the state comes back. -/
def Obligations.RefUpdateIsInvertible : Prop :=
  ∀ (e : EncEntry) (x : DWord), 1 ≤ e.freq.toNat → e.start.toNat + e.freq.toNat ≤ 2 ^ 14 →
    refUpdate e x % 2 ^ 14 = x.toNat % e.freq.toNat + e.start.toNat
      ∧ e.freq.toNat * (refUpdate e x / 2 ^ 14) + refUpdate e x % 2 ^ 14 - e.start.toNat = x.toNat

/-- 43 R185: the shift of the fixed-accuracy encoder brings the state into [8f, 16f), is at most 14, is `shift0` at `theta` and above and one
less below, and is what the decoder finds from the bit width. -/
def Obligations.FaShiftReachesItsInterval : Prop :=
  ∀ (e : EncEntry) (f x : Nat), 1 ≤ f → f ≤ 2 ^ 14 → 2 ^ 17 ≤ x → x < 2 ^ 18 → e.delta = faDelta f →
    faShift e x ≤ 14 ∧ 8 * f ≤ x >>> faShift e x ∧ x >>> faShift e x < 16 * f
      ∧ faShift e x = (if f * 2 ^ (18 - bitWidth f) ≤ x then 15 - bitWidth f else 14 - bitWidth f)
      ∧ faShift e x + bitWidth (x >>> faShift e x) = 18

/-- 43 R202, R192: the three corrections are division: the new state is the reference update of the shifted state, its quotient is 8 to 15,
it lies in [2^17, 2^18), and the decode update gives the shifted state back (43 R201). -/
def Obligations.FaFoldIsDivision : Prop :=
  ∀ (e : EncEntry) (y : Nat), 1 ≤ e.freq.toNat → e.start.toNat + e.freq.toNat ≤ 2 ^ 14 → 8 * e.freq.toNat ≤ y → y < 16 * e.freq.toNat →
    faFold e y = (y / e.freq.toNat) * 2 ^ 14 + y % e.freq.toNat + e.start.toNat
      ∧ 8 ≤ y / e.freq.toNat ∧ y / e.freq.toNat ≤ 15
      ∧ 2 ^ 17 ≤ faFold e y ∧ faFold e y < 2 ^ 18
      ∧ e.freq.toNat * (faFold e y / 2 ^ 14) + faFold e y % 2 ^ 14 - e.start.toNat = y

/-- 43 R186, R187, 10 R33: `emit_bits` puts the low bits of the value above the pending ones; a flush that is not stopped writes the whole
bytes, byte `j` of `ACC` at `WR - 1 - j` and no other byte, moves `WR` down by as many, shifts them out of `ACC` and leaves `BITPOS` mod 8
bits pending. -/
def Obligations.FlushLeavesAtMostSevenBits : Prop :=
  (∀ (v n : Nat) (r : Run), n ≤ 32 → r.work.acc.toNat < 2 ^ r.work.bitpos.toNat → r.work.bitpos.toNat + n ≤ 64 →
    (emitBits v n r).work.acc.toNat = r.work.acc.toNat + v % 2 ^ n * 2 ^ r.work.bitpos.toNat
      ∧ (emitBits v n r).work.bitpos.toNat = r.work.bitpos.toNat + n
      ∧ (emitBits v n r).work.wr = r.work.wr ∧ (emitBits v n r).work.x = r.work.x ∧ (emitBits v n r).mem = r.mem)
  ∧ ∀ (base : Nat) (r r' : Run), r.work.bitpos.toNat ≤ 64 → r.work.acc.toNat < 2 ^ r.work.bitpos.toNat → flushBits base r = .ok r' →
    r'.work.bitpos.toNat = r.work.bitpos.toNat % 8 ∧ r'.work.acc.toNat < 2 ^ r'.work.bitpos.toNat
      ∧ r'.work.acc.toNat = r.work.acc.toNat / 2 ^ (8 * (r.work.bitpos.toNat / 8))
      ∧ r'.work.wr.toNat + r.work.bitpos.toNat / 8 = r.work.wr.toNat ∧ r'.work.x = r.work.x
      ∧ (∀ j < r.work.bitpos.toNat / 8, r'.mem.read (r.work.wr.toNat - 1 - j) = BitVec.ofNat 8 (r.work.acc.toNat / 2 ^ (8 * j)))
      ∧ ∀ a, a < r'.work.wr.toNat ∨ r.work.wr.toNat ≤ a → r'.mem.read a = r.mem.read a

/-- 43 R182, R198, R200, 10 R34: `read_bits(k)` pulls the bytes that are missing, first byte most significant, gives the `k` most significant
of the bits then held and keeps the rest; and on a valid table set the fixed-accuracy decoder's state starts and stays in [2^17, 2^18), with
`DACC` below 2^`DBITS` and at most 7 bits left between steps. -/
def Obligations.FaDecoderStateStaysInRange : Prop :=
  (∀ (tailEnd k : Nat) (r : Run), tailEnd ≤ 2 ^ 32 → k ≤ 14 → r.work.dbits.toNat ≤ 7 → r.work.dacc.toNat < 2 ^ r.work.dbits.toNat →
    let m := (k - r.work.dbits.toNat + 7) / 8
    let bits := r.work.dacc.toNat * 2 ^ (8 * m) + numberBE r.mem r.work.rd.toNat m
    let left := r.work.dbits.toNat + 8 * m - k
    if 0 < m ∧ tailEnd < r.work.rd.toNat + m then readBits tailEnd k r = .error .invalidLength
    else ∃ r', readBits tailEnd k r = .ok (bits / 2 ^ left, r') ∧ r'.work.dacc.toNat = bits % 2 ^ left ∧ r'.work.dbits.toNat = left
      ∧ r'.work.rd.toNat = r.work.rd.toNat + m ∧ r'.work.x = r.work.x ∧ r'.mem = r.mem)
  ∧ ∀ s : State, s.IntervalsOk →
    let good := fun r : Run => 2 ^ 17 ≤ r.work.x.toNat ∧ r.work.x.toNat < 2 ^ 18 ∧ r.work.dacc.toNat < 2 ^ r.work.dbits.toNat
      ∧ r.work.dbits.toNat ≤ 7
    (∀ r, s.readState = .ok r → good r) ∧ ∀ (i : Nat) (r r' : Run), good r → faDecStep s i r = .ok r' → good r'

/-! ### Coding commands -/

/-- 41 R135, R149, 42 R166, 70 R263, 20 R78: with the variant's valid table set, valid disjoint regions, symbols of nonzero frequency and a
buffer of 2n + 10 bytes, `ENC.REF` and `ENC.FAST` complete; `RESULT` is 8 plus a multiple of 4; only the tail changes. -/
def Obligations.EncRefAndFastComplete : Prop :=
  ∀ (s : State), ∀ p ∈ [(Instr.encRef, TVar.ref), (.encFast, .fast)], s.tvar = p.2 → s.TablesOk → s.RegionsOk → s.SymbolsCoded →
    s.BufferLargeEnough →
    ∃ t, exec p.1 s = .next t ∧ t.err = .none ∧ t.done = true ∧ t.busy = false
      ∧ 8 ≤ t.result.toNat ∧ 4 ∣ t.result.toNat ∧ t.result.toNat ≤ 2 * s.nSrc.toNat + 10
      ∧ SameInputs s t ∧ SameStatistics s t ∧ SameTables s t
      ∧ SameMemoryOutside s t (s.bufEnd - t.result.toNat) t.result.toNat

/-- 43 R189, R194, 70 R263, 20 R78: the same of `ENC.FA`, with at least 4 bytes. -/
def Obligations.EncFaCompletes : Prop :=
  ∀ s : State, s.tvar = .fa → s.TablesOk → s.RegionsOk → s.SymbolsCoded → s.BufferLargeEnough →
    ∃ t, exec .encFa s = .next t ∧ t.err = .none ∧ t.done = true ∧ t.busy = false
      ∧ 4 ≤ t.result.toNat ∧ 4 * t.result.toNat ≤ 16 + 7 * s.nSrc.toNat
      ∧ SameInputs s t ∧ SameStatistics s t ∧ SameTables s t
      ∧ SameMemoryOutside s t (s.bufEnd - t.result.toNat) t.result.toNat

/-- 41 R135, R137, R139, 43 R189, R193: what the encoders write and where: the renormalization one word at or above its threshold and nothing
below it, the state flush the state's two words, low word first, the terminal flush `W = (X << p) + ACC`, high byte first; and so the empty
sequence encodes to the initial state alone. -/
def Obligations.EmptySequenceEncodesTheInitialState : Prop :=
  (∀ (base f : Nat) (r : Run),
    (r.work.x.toNat < 2 ^ 49 * f → renormalize base f r = .ok r)
    ∧ (2 ^ 49 * f ≤ r.work.x.toNat → r.work.wr.toNat < base + 4 → renormalize base f r = .error .bufferTooSmall)
    ∧ (2 ^ 49 * f ≤ r.work.x.toNat → base + 4 ≤ r.work.wr.toNat →
      ∃ r', renormalize base f r = .ok r' ∧ r'.work.x.toNat = r.work.x.toNat / 2 ^ 32 ∧ r'.work.wr.toNat + 4 = r.work.wr.toNat
        ∧ r'.mem.readLE r'.work.wr.toNat 4 = r.work.x.toNat % 2 ^ 32
        ∧ ∀ a, a < r'.work.wr.toNat ∨ r.work.wr.toNat ≤ a → r'.mem.read a = r.mem.read a))
  ∧ (∀ (base : Nat) (r : Run),
    (r.work.wr.toNat < base + 8 → flushState base r = .error .bufferTooSmall)
    ∧ (base + 8 ≤ r.work.wr.toNat →
      ∃ r', flushState base r = .ok r' ∧ r'.work.wr.toNat + 8 = r.work.wr.toNat
        ∧ r'.mem.readLE r'.work.wr.toNat 4 = r.work.x.toNat % 2 ^ 32
        ∧ r'.mem.readLE (r'.work.wr.toNat + 4) 4 = r.work.x.toNat / 2 ^ 32
        ∧ ∀ a, a < r'.work.wr.toNat ∨ r.work.wr.toNat ≤ a → r'.mem.read a = r.mem.read a))
  ∧ (∀ (base : Nat) (r : Run), r.work.x.toNat < 2 ^ 18 → r.work.bitpos.toNat ≤ 7 → r.work.acc.toNat < 2 ^ r.work.bitpos.toNat →
    (r.work.wr.toNat < base + 4 → terminalFlush base r = .error .bufferTooSmall)
    ∧ (base + 4 ≤ r.work.wr.toNat →
      ∃ r', terminalFlush base r = .ok r' ∧ r'.work.wr.toNat + 4 = r.work.wr.toNat ∧ r'.work.acc = 0 ∧ r'.work.bitpos = 0
        ∧ numberBE r'.mem r'.work.wr.toNat 4 = r.work.x.toNat * 2 ^ r.work.bitpos.toNat + r.work.acc.toNat
        ∧ ∀ a, a < r'.work.wr.toNat ∨ r.work.wr.toNat ≤ a → r'.mem.read a = r.mem.read a))
  ∧ (∀ (s : State), ∀ p ∈ [(Instr.encRef, TVar.ref), (.encFast, .fast)], s.tvar = p.2 → s.RegionsOk → s.nSrc = 0 → 8 ≤ s.nBuf.toNat →
    ∃ t, exec p.1 s = .next t ∧ t.err = .none ∧ t.result = 8
      ∧ ∀ j < 8, t.mem.read (s.bufEnd - 8 + j) = if j = 3 then 0x80 else 0)
  ∧ ∀ s : State, s.tvar = .fa → s.RegionsOk → s.nSrc = 0 → 4 ≤ s.nBuf.toNat →
    ∃ t, exec .encFa s = .next t ∧ t.err = .none ∧ t.result = 4
      ∧ ∀ j < 4, t.mem.read (s.bufEnd - 4 + j) = if j = 1 then 0x02 else 0

/-- 41 R135 to R140, 42 R166 to R168, 43 R189 to R195: the whole stream. A run of `ENC.REF` or `ENC.FAST` without error leaves, as the last
`RESULT` bytes of the destination, the final state's two words, low word first, and after them the words the steps emitted, the last one
emitted first; a run of `ENC.FA` without error leaves, first byte most significant, the bytes of the number whose low bits are the emitted
ones and whose bits above them are the final state. The initial states are those of 41 R140 and 43 R203, which the spec marks as its own
decision (92 D8). -/
def Obligations.EncodersWriteTheirStream : Prop :=
  (∀ (s t : State) (e : Instr), e ∈ [Instr.encRef, .encFast] → s.TablesOk → exec e s = .next t → t.err = .none →
    let p := s.refStream s.sourceBytes
    let a := s.bufEnd - t.result.toNat
    t.result.toNat = 8 + 4 * p.2.length ∧ t.mem.readLE a 4 = p.1 % 2 ^ 32 ∧ t.mem.readLE (a + 4) 4 = p.1 / 2 ^ 32
      ∧ ∀ j < p.2.length, t.mem.readLE (a + 8 + 4 * j) 4 = p.2.getD j 0)
  ∧ ∀ s t : State, s.TablesOk → exec .encFa s = .next t → t.err = .none →
    let p := s.faStream s.sourceBytes
    t.result.toNat = 4 + p.bits / 8
      ∧ numberBE t.mem (s.bufEnd - t.result.toNat) t.result.toNat = p.x * 2 ^ p.bits + p.emitted

/-- 60 R231, R232, R239, R237, R243, 70 R263: the errors an encoder can raise after its prologue, and when. Without a symbol of frequency 0 a
buffer suffices exactly when the stream fits into it. A symbol of frequency 0 never encodes; it is what is reported when the bytes written
before its step fit, which are those of the symbols behind it (for `ENC.FA` those of the groups of three that are flushed by then, 43 R190),
and so with a buffer of 2n + 10 bytes always; else `BufferTooSmall` came first. A buffer smaller than the final state never suffices. -/
def Obligations.EncoderErrors : Prop :=
  ∀ (s : State), ∀ p ∈ [(Instr.encRef, TVar.ref, 8), (.encFast, .fast, 8), (.encFa, .fa, 4)], s.tvar = p.2.1 → s.TablesOk → s.RegionsOk →
    ∃ t, exec p.1 s = .next t
      ∧ (t.err = .none ∨ EndedWith t .bufferTooSmall ∨ EndedWith t .zeroFrequencySymbol)
      ∧ (¬ s.SymbolsCoded → t.err ≠ .none)
      ∧ (¬ s.SymbolsCoded → s.BufferLargeEnough → EndedWith t .zeroFrequencySymbol)
      ∧ (s.SymbolsCoded → t.err ≠ .none → EndedWith t .bufferTooSmall)
      ∧ (s.SymbolsCoded → (t.err = .none ↔ p.2.2 + s.streamBytes p.2.1 s.sourceBytes ≤ s.nBuf.toNat))
      ∧ (∀ (before behind : List Byte) (b : Byte), s.sourceBytes = before ++ b :: behind → s.symFreq b = 0 → (∀ c ∈ behind, s.symFreq c ≠ 0) →
          EndedWith t (if s.streamBytes p.2.1 (behind.drop (if p.2.1 = .fa then behind.length % 3 else 0)) ≤ s.nBuf.toNat
            then .zeroFrequencySymbol else .bufferTooSmall))
      ∧ (s.nBuf.toNat < p.2.2 → t.err ≠ .none)

/-- 42 R168: `ENC.FAST` and `ENC.REF` on the same tables write the same bytes and the same `RESULT` and raise the same errors. That they also
agree in what the spec leaves unspecified (the working registers, and after an error the bytes of the destination region) is the model's: a
free value is one function of the occasion and the place (log 5). -/
def Obligations.FastEncodesExactlyAsRef : Prop :=
  ∀ s t : State, s.tvar = .fast → s.TablesOk → exec .encFast s = .next t →
    exec .encRef { s with tvar := .ref } = .next { t with tvar := .ref }

/-- 42 R170: `DEC.FAST` and `DEC.REF` started in the same state end in the same state except for the value of `CMD`, unspecified values
included, which rests on a free value being one function of the occasion and the place (log 5). -/
def Obligations.DecFastIsDecRef : Prop :=
  ∀ s : State, ∃ t : State, s.runCommand 0x61 = .next { t with cmd := 0x61 } ∧ s.runCommand 0x62 = .next { t with cmd := 0x62 }

/-- 41 R141, R143, R144, 42 R170: with either table set, valid disjoint regions and a tail of at least 8 + 4n bytes, `DEC.REF` and `DEC.FAST`
complete; the first byte written is the symbol the first two words' state names; only the destination region changes. -/
def Obligations.DecRefAndFastComplete : Prop :=
  ∀ (s : State) (i : Instr), i ∈ [Instr.decRef, .decFast] → s.SharedTables → s.RegionsOk → 8 + 4 * s.nBuf.toNat ≤ s.nSrc.toNat →
    ∃ t, exec i s = .next t ∧ EndedWith t .none
      ∧ (0 < s.nBuf.toNat → t.mem.read s.aBuf.toNat = s.invOf (s.mem.readLE s.aSrc.toNat 4))
      ∧ SameInputs s t ∧ SameStatistics s t ∧ SameTables s t ∧ SameMemoryOutside s t s.aBuf.toNat s.nBuf.toNat

/-- 43 R196, R197, R199: with a valid `FA` table set, valid disjoint regions, a possible terminal word and a tail of at least 4 + 2n bytes,
`DEC.FA` completes; the first byte written is the symbol the terminal word's state names; only the destination region changes. -/
def Obligations.DecFaCompletes : Prop :=
  ∀ s : State, s.tvar = .fa → s.TablesOk → s.RegionsOk → 4 + 2 * s.nBuf.toNat ≤ s.nSrc.toNat →
    18 ≤ bitWidth (readBE4 s.mem s.aSrc.toNat) → bitWidth (readBE4 s.mem s.aSrc.toNat) ≤ 25 →
    ∃ t, exec .decFa s = .next t ∧ EndedWith t .none
      ∧ (0 < s.nBuf.toNat → t.mem.read s.aBuf.toNat
          = s.invOf (readBE4 s.mem s.aSrc.toNat / 2 ^ (bitWidth (readBE4 s.mem s.aSrc.toNat) - 18)))
      ∧ SameInputs s t ∧ SameStatistics s t ∧ SameTables s t ∧ SameMemoryOutside s t s.aBuf.toNat s.nBuf.toNat

/-- 41 R141 to R144, R146, 60 R233: the word pull leaves a state of 2^31 and above, raises `InvalidLength` where the word would pass the end of
the tail, and else brings the word into the low end of `X`. After its prologue `DEC.REF` or `DEC.FAST` ends without error or with
`InvalidLength`; with fewer than 8 bytes of tail always the latter; and on a valid table set, whatever the bytes of the tail, it writes the
symbols that `refDecoded` gives, or ends with `InvalidLength` exactly where a word is missing. -/
def Obligations.RefDecoderErrors : Prop :=
  (∀ (tailEnd : Nat) (r : Run), tailEnd ≤ 2 ^ 32 →
    (2 ^ 31 ≤ r.work.x.toNat → pullWord tailEnd r = .ok r)
    ∧ (r.work.x.toNat < 2 ^ 31 → tailEnd < r.work.rd.toNat + 4 → pullWord tailEnd r = .error .invalidLength)
    ∧ (r.work.x.toNat < 2 ^ 31 → r.work.rd.toNat + 4 ≤ tailEnd →
      ∃ r', pullWord tailEnd r = .ok r' ∧ r'.work.x.toNat = r.work.x.toNat * 2 ^ 32 + r.mem.readLE r.work.rd.toNat 4
        ∧ r'.work.rd.toNat = r.work.rd.toNat + 4 ∧ r'.mem = r.mem))
  ∧ ∀ (s : State) (i : Instr), i ∈ [Instr.decRef, .decFast] → s.SharedTables → s.RegionsOk →
    ∃ t, exec i s = .next t ∧ (EndedWith t .none ∨ EndedWith t .invalidLength) ∧ (s.nSrc.toNat < 8 → EndedWith t .invalidLength)
      ∧ (s.IntervalsOk → 8 ≤ s.nSrc.toNat →
          match s.refDecoded s.nBuf.toNat (s.mem.readLE s.aSrc.toNat 4 + 2 ^ 32 * s.mem.readLE (s.aSrc.toNat + 4) 4) (s.aSrc.toNat + 8) with
          | none => EndedWith t .invalidLength
          | some l => EndedWith t .none ∧ ∀ j < s.nBuf.toNat, t.mem.read (s.aBuf.toNat + j) = l.getD j 0)

/-- 43 R197, R200, 60 R241, R243: after its prologue `DEC.FA` ends without error, with `InvalidLength` or with `MalformedStream`; the length
test on the first four bytes comes before the form test; and on a valid table set, whatever the bytes after a possible terminal word, it
writes the symbols that `faDecoded` gives, or ends with `InvalidLength` exactly where a byte is missing (43 R198, R199). -/
def Obligations.FaDecoderErrors : Prop :=
  ∀ s : State, s.tvar = .fa → s.RegionsOk →
    ∃ t, exec .decFa s = .next t
      ∧ (EndedWith t .none ∨ EndedWith t .invalidLength ∨ EndedWith t .malformedStream)
      ∧ (s.nSrc.toNat < 4 → EndedWith t .invalidLength)
      ∧ (4 ≤ s.nSrc.toNat →
          (EndedWith t .malformedStream ↔
            bitWidth (readBE4 s.mem s.aSrc.toNat) < 18 ∨ 25 < bitWidth (readBE4 s.mem s.aSrc.toNat)))
      ∧ (s.IntervalsOk → 4 ≤ s.nSrc.toNat → ∀ p ≤ 7, bitWidth (readBE4 s.mem s.aSrc.toNat) = 18 + p →
          match s.faDecoded s.nBuf.toNat (readBE4 s.mem s.aSrc.toNat / 2 ^ p) (readBE4 s.mem s.aSrc.toNat % 2 ^ p) p (s.aSrc.toNat + 4) with
          | none => EndedWith t .invalidLength
          | some l => EndedWith t .none ∧ ∀ j < s.nBuf.toNat, t.mem.read (s.aBuf.toNat + j) = l.getD j 0)

/-! ### Headlines -/

/-- 41 R147, R148, 42 R171, 70 R283: whatever `ENC.REF` or `ENC.FAST` encoded, `DEC.REF` and `DEC.FAST` pointed at the tail, with the same table
set and the original length, return the sequence without error, into any valid destination that does not overlap the tail. -/
def Obligations.RefAndFastRoundTrip : Prop :=
  ∀ (s t : State) (dst : Word) (e d : Instr), e ∈ [Instr.encRef, .encFast] → d ∈ [Instr.decRef, .decFast] → s.TablesOk →
    exec e s = .next t → t.err = .none → (t.pointAtTail dst s.nSrc).RegionsOk →
    ∃ u, exec d (t.pointAtTail dst s.nSrc) = .next u ∧ u.err = .none
      ∧ ∀ i < s.nSrc.toNat, u.mem.read (dst.toNat + i) = s.mem.read (s.aSrc.toNat + i)

/-- 43 R201, 70 R283: the same of `ENC.FA` and `DEC.FA`. -/
def Obligations.FaRoundTrip : Prop :=
  ∀ (s t : State) (dst : Word), s.TablesOk → exec .encFa s = .next t → t.err = .none → (t.pointAtTail dst s.nSrc).RegionsOk →
    ∃ u, exec .decFa (t.pointAtTail dst s.nSrc) = .next u ∧ u.err = .none
      ∧ ∀ i < s.nSrc.toNat, u.mem.read (dst.toNat + i) = s.mem.read (s.aSrc.toNat + i)

/-- 10 R47, R48, 20 R61, 70 R283: every step keeps the invariant: no command is running between host operations, memory is canonical and
inside MEM_SIZE, valid statistics and valid table sets satisfy their rules; and no step changes MEM_SIZE. -/
def Obligations.EveryStepKeepsTheInvariant : Prop :=
  ∀ s t : State, s.Inv → step s = .next t → t.Inv ∧ t.memTop = s.memTop

/-- The invariant holds right after reset, whatever the size of memory. -/
def Obligations.ResetMeetsTheInvariant : Prop := ∀ top : Word, (State.resetWith top).Inv
end

