-- ==== Sys2Proof/Laws/State.lean ====
section
/-! SUPPORT. One lemma for each field of State under each named update, true by rfl, so that no proof unfolds a record update. -/

namespace Sys2Proof.Machine

@[simp] theorem State.startCommand_cmd (s : State) (w : Word) : (s.startCommand w).cmd = w := rfl
@[simp] theorem State.startCommand_busy (s : State) (w : Word) : (s.startCommand w).busy = true := rfl
@[simp] theorem State.startCommand_done (s : State) (w : Word) : (s.startCommand w).done = s.done := rfl
@[simp] theorem State.startCommand_err (s : State) (w : Word) : (s.startCommand w).err = s.err := rfl
@[simp] theorem State.startCommand_sstate (s : State) (w : Word) : (s.startCommand w).sstate = s.sstate := rfl
@[simp] theorem State.startCommand_tvar (s : State) (w : Word) : (s.startCommand w).tvar = s.tvar := rfl
@[simp] theorem State.startCommand_result (s : State) (w : Word) : (s.startCommand w).result = s.result := rfl
@[simp] theorem State.startCommand_aSrc (s : State) (w : Word) : (s.startCommand w).aSrc = s.aSrc := rfl
@[simp] theorem State.startCommand_nSrc (s : State) (w : Word) : (s.startCommand w).nSrc = s.nSrc := rfl
@[simp] theorem State.startCommand_aBuf (s : State) (w : Word) : (s.startCommand w).aBuf = s.aBuf := rfl
@[simp] theorem State.startCommand_nBuf (s : State) (w : Word) : (s.startCommand w).nBuf = s.nBuf := rfl
@[simp] theorem State.startCommand_ftTotal (s : State) (w : Word) : (s.startCommand w).ftTotal = s.ftTotal := rfl
@[simp] theorem State.startCommand_taddr (s : State) (w : Word) : (s.startCommand w).taddr = s.taddr := rfl
@[simp] theorem State.startCommand_work (s : State) (w : Word) : (s.startCommand w).work = s.work := rfl
@[simp] theorem State.startCommand_freq (s : State) (w : Word) : (s.startCommand w).freq = s.freq := rfl
@[simp] theorem State.startCommand_cum (s : State) (w : Word) : (s.startCommand w).cum = s.cum := rfl
@[simp] theorem State.startCommand_enc (s : State) (w : Word) : (s.startCommand w).enc = s.enc := rfl
@[simp] theorem State.startCommand_dec (s : State) (w : Word) : (s.startCommand w).dec = s.dec := rfl
@[simp] theorem State.startCommand_inv (s : State) (w : Word) : (s.startCommand w).inv = s.inv := rfl
@[simp] theorem State.startCommand_mem (s : State) (w : Word) : (s.startCommand w).mem = s.mem := rfl
@[simp] theorem State.startCommand_memTop (s : State) (w : Word) : (s.startCommand w).memTop = s.memTop := rfl
@[simp] theorem State.startCommand_script (s : State) (w : Word) : (s.startCommand w).script = s.script := rfl
@[simp] theorem State.startCommand_reads (s : State) (w : Word) : (s.startCommand w).reads = s.reads := rfl
@[simp] theorem State.startCommand_fresh (s : State) (w : Word) : (s.startCommand w).fresh = s.fresh := rfl

@[simp] theorem State.complete_cmd (s : State) (e : ErrorCode) (r : Word) : (s.complete e r).cmd = s.cmd := rfl
@[simp] theorem State.complete_busy (s : State) (e : ErrorCode) (r : Word) : (s.complete e r).busy = false := rfl
@[simp] theorem State.complete_done (s : State) (e : ErrorCode) (r : Word) : (s.complete e r).done = true := rfl
@[simp] theorem State.complete_err (s : State) (e : ErrorCode) (r : Word) : (s.complete e r).err = e := rfl
@[simp] theorem State.complete_sstate (s : State) (e : ErrorCode) (r : Word) : (s.complete e r).sstate = s.sstate := rfl
@[simp] theorem State.complete_tvar (s : State) (e : ErrorCode) (r : Word) : (s.complete e r).tvar = s.tvar := rfl
@[simp] theorem State.complete_result (s : State) (e : ErrorCode) (r : Word) : (s.complete e r).result = if e = .none then r else 0 := rfl
@[simp] theorem State.complete_aSrc (s : State) (e : ErrorCode) (r : Word) : (s.complete e r).aSrc = s.aSrc := rfl
@[simp] theorem State.complete_nSrc (s : State) (e : ErrorCode) (r : Word) : (s.complete e r).nSrc = s.nSrc := rfl
@[simp] theorem State.complete_aBuf (s : State) (e : ErrorCode) (r : Word) : (s.complete e r).aBuf = s.aBuf := rfl
@[simp] theorem State.complete_nBuf (s : State) (e : ErrorCode) (r : Word) : (s.complete e r).nBuf = s.nBuf := rfl
@[simp] theorem State.complete_ftTotal (s : State) (e : ErrorCode) (r : Word) : (s.complete e r).ftTotal = s.ftTotal := rfl
@[simp] theorem State.complete_taddr (s : State) (e : ErrorCode) (r : Word) : (s.complete e r).taddr = s.taddr := rfl
@[simp] theorem State.complete_work (s : State) (e : ErrorCode) (r : Word) : (s.complete e r).work = freeWork s.fresh := rfl
@[simp] theorem State.complete_freq (s : State) (e : ErrorCode) (r : Word) : (s.complete e r).freq = s.freq := rfl
@[simp] theorem State.complete_cum (s : State) (e : ErrorCode) (r : Word) : (s.complete e r).cum = s.cum := rfl
@[simp] theorem State.complete_enc (s : State) (e : ErrorCode) (r : Word) : (s.complete e r).enc = s.enc := rfl
@[simp] theorem State.complete_dec (s : State) (e : ErrorCode) (r : Word) : (s.complete e r).dec = s.dec := rfl
@[simp] theorem State.complete_inv (s : State) (e : ErrorCode) (r : Word) : (s.complete e r).inv = s.inv := rfl
@[simp] theorem State.complete_mem (s : State) (e : ErrorCode) (r : Word) : (s.complete e r).mem = s.mem := rfl
@[simp] theorem State.complete_memTop (s : State) (e : ErrorCode) (r : Word) : (s.complete e r).memTop = s.memTop := rfl
@[simp] theorem State.complete_script (s : State) (e : ErrorCode) (r : Word) : (s.complete e r).script = s.script := rfl
@[simp] theorem State.complete_reads (s : State) (e : ErrorCode) (r : Word) : (s.complete e r).reads = s.reads := rfl
@[simp] theorem State.complete_fresh (s : State) (e : ErrorCode) (r : Word) : (s.complete e r).fresh = s.fresh + 1 := rfl

@[simp] theorem State.raise_cmd (s : State) (e : ErrorCode) : (s.raise e).cmd = s.cmd := rfl
@[simp] theorem State.raise_busy (s : State) (e : ErrorCode) : (s.raise e).busy = false := rfl
@[simp] theorem State.raise_done (s : State) (e : ErrorCode) : (s.raise e).done = true := rfl
@[simp] theorem State.raise_err (s : State) (e : ErrorCode) : (s.raise e).err = e := rfl
@[simp] theorem State.raise_sstate (s : State) (e : ErrorCode) : (s.raise e).sstate = s.sstate := rfl
@[simp] theorem State.raise_tvar (s : State) (e : ErrorCode) : (s.raise e).tvar = s.tvar := rfl
@[simp] theorem State.raise_result (s : State) (e : ErrorCode) : (s.raise e).result = 0 := by simp [State.raise, State.complete]
@[simp] theorem State.raise_aSrc (s : State) (e : ErrorCode) : (s.raise e).aSrc = s.aSrc := rfl
@[simp] theorem State.raise_nSrc (s : State) (e : ErrorCode) : (s.raise e).nSrc = s.nSrc := rfl
@[simp] theorem State.raise_aBuf (s : State) (e : ErrorCode) : (s.raise e).aBuf = s.aBuf := rfl
@[simp] theorem State.raise_nBuf (s : State) (e : ErrorCode) : (s.raise e).nBuf = s.nBuf := rfl
@[simp] theorem State.raise_ftTotal (s : State) (e : ErrorCode) : (s.raise e).ftTotal = s.ftTotal := rfl
@[simp] theorem State.raise_taddr (s : State) (e : ErrorCode) : (s.raise e).taddr = s.taddr := rfl
@[simp] theorem State.raise_work (s : State) (e : ErrorCode) : (s.raise e).work = freeWork s.fresh := rfl
@[simp] theorem State.raise_freq (s : State) (e : ErrorCode) : (s.raise e).freq = s.freq := rfl
@[simp] theorem State.raise_cum (s : State) (e : ErrorCode) : (s.raise e).cum = s.cum := rfl
@[simp] theorem State.raise_enc (s : State) (e : ErrorCode) : (s.raise e).enc = s.enc := rfl
@[simp] theorem State.raise_dec (s : State) (e : ErrorCode) : (s.raise e).dec = s.dec := rfl
@[simp] theorem State.raise_inv (s : State) (e : ErrorCode) : (s.raise e).inv = s.inv := rfl
@[simp] theorem State.raise_mem (s : State) (e : ErrorCode) : (s.raise e).mem = s.mem := rfl
@[simp] theorem State.raise_memTop (s : State) (e : ErrorCode) : (s.raise e).memTop = s.memTop := rfl
@[simp] theorem State.raise_script (s : State) (e : ErrorCode) : (s.raise e).script = s.script := rfl
@[simp] theorem State.raise_reads (s : State) (e : ErrorCode) : (s.raise e).reads = s.reads := rfl
@[simp] theorem State.raise_fresh (s : State) (e : ErrorCode) : (s.raise e).fresh = s.fresh + 1 := rfl

@[simp] theorem State.loseStatistics_cmd (s : State) : s.loseStatistics.cmd = s.cmd := rfl
@[simp] theorem State.loseStatistics_busy (s : State) : s.loseStatistics.busy = s.busy := rfl
@[simp] theorem State.loseStatistics_done (s : State) : s.loseStatistics.done = s.done := rfl
@[simp] theorem State.loseStatistics_err (s : State) : s.loseStatistics.err = s.err := rfl
@[simp] theorem State.loseStatistics_sstate (s : State) : s.loseStatistics.sstate = .invalid := rfl
@[simp] theorem State.loseStatistics_tvar (s : State) : s.loseStatistics.tvar = s.tvar := rfl
@[simp] theorem State.loseStatistics_result (s : State) : s.loseStatistics.result = s.result := rfl
@[simp] theorem State.loseStatistics_aSrc (s : State) : s.loseStatistics.aSrc = s.aSrc := rfl
@[simp] theorem State.loseStatistics_nSrc (s : State) : s.loseStatistics.nSrc = s.nSrc := rfl
@[simp] theorem State.loseStatistics_aBuf (s : State) : s.loseStatistics.aBuf = s.aBuf := rfl
@[simp] theorem State.loseStatistics_nBuf (s : State) : s.loseStatistics.nBuf = s.nBuf := rfl
@[simp] theorem State.loseStatistics_ftTotal (s : State) : s.loseStatistics.ftTotal = s.ftTotal := rfl
@[simp] theorem State.loseStatistics_taddr (s : State) : s.loseStatistics.taddr = s.taddr := rfl
@[simp] theorem State.loseStatistics_work (s : State) : s.loseStatistics.work = s.work := rfl
@[simp] theorem State.loseStatistics_freq (s : State) : s.loseStatistics.freq = freeFreq s.fresh := rfl
@[simp] theorem State.loseStatistics_cum (s : State) : s.loseStatistics.cum = freeCum s.fresh := rfl
@[simp] theorem State.loseStatistics_enc (s : State) : s.loseStatistics.enc = s.enc := rfl
@[simp] theorem State.loseStatistics_dec (s : State) : s.loseStatistics.dec = s.dec := rfl
@[simp] theorem State.loseStatistics_inv (s : State) : s.loseStatistics.inv = s.inv := rfl
@[simp] theorem State.loseStatistics_mem (s : State) : s.loseStatistics.mem = s.mem := rfl
@[simp] theorem State.loseStatistics_memTop (s : State) : s.loseStatistics.memTop = s.memTop := rfl
@[simp] theorem State.loseStatistics_script (s : State) : s.loseStatistics.script = s.script := rfl
@[simp] theorem State.loseStatistics_reads (s : State) : s.loseStatistics.reads = s.reads := rfl
@[simp] theorem State.loseStatistics_fresh (s : State) : s.loseStatistics.fresh = s.fresh := rfl

@[simp] theorem State.loseTables_cmd (s : State) : s.loseTables.cmd = s.cmd := rfl
@[simp] theorem State.loseTables_busy (s : State) : s.loseTables.busy = s.busy := rfl
@[simp] theorem State.loseTables_done (s : State) : s.loseTables.done = s.done := rfl
@[simp] theorem State.loseTables_err (s : State) : s.loseTables.err = s.err := rfl
@[simp] theorem State.loseTables_sstate (s : State) : s.loseTables.sstate = s.sstate := rfl
@[simp] theorem State.loseTables_tvar (s : State) : s.loseTables.tvar = .none := rfl
@[simp] theorem State.loseTables_result (s : State) : s.loseTables.result = s.result := rfl
@[simp] theorem State.loseTables_aSrc (s : State) : s.loseTables.aSrc = s.aSrc := rfl
@[simp] theorem State.loseTables_nSrc (s : State) : s.loseTables.nSrc = s.nSrc := rfl
@[simp] theorem State.loseTables_aBuf (s : State) : s.loseTables.aBuf = s.aBuf := rfl
@[simp] theorem State.loseTables_nBuf (s : State) : s.loseTables.nBuf = s.nBuf := rfl
@[simp] theorem State.loseTables_ftTotal (s : State) : s.loseTables.ftTotal = s.ftTotal := rfl
@[simp] theorem State.loseTables_taddr (s : State) : s.loseTables.taddr = s.taddr := rfl
@[simp] theorem State.loseTables_work (s : State) : s.loseTables.work = s.work := rfl
@[simp] theorem State.loseTables_freq (s : State) : s.loseTables.freq = s.freq := rfl
@[simp] theorem State.loseTables_cum (s : State) : s.loseTables.cum = s.cum := rfl
@[simp] theorem State.loseTables_mem (s : State) : s.loseTables.mem = s.mem := rfl
@[simp] theorem State.loseTables_memTop (s : State) : s.loseTables.memTop = s.memTop := rfl
@[simp] theorem State.loseTables_script (s : State) : s.loseTables.script = s.script := rfl
@[simp] theorem State.loseTables_reads (s : State) : s.loseTables.reads = s.reads := rfl
@[simp] theorem State.loseTables_fresh (s : State) : s.loseTables.fresh = s.fresh := rfl

@[simp] theorem State.loseDestination_cmd (s : State) : s.loseDestination.cmd = s.cmd := rfl
@[simp] theorem State.loseDestination_busy (s : State) : s.loseDestination.busy = s.busy := rfl
@[simp] theorem State.loseDestination_done (s : State) : s.loseDestination.done = s.done := rfl
@[simp] theorem State.loseDestination_err (s : State) : s.loseDestination.err = s.err := rfl
@[simp] theorem State.loseDestination_sstate (s : State) : s.loseDestination.sstate = s.sstate := rfl
@[simp] theorem State.loseDestination_tvar (s : State) : s.loseDestination.tvar = s.tvar := rfl
@[simp] theorem State.loseDestination_result (s : State) : s.loseDestination.result = s.result := rfl
@[simp] theorem State.loseDestination_aSrc (s : State) : s.loseDestination.aSrc = s.aSrc := rfl
@[simp] theorem State.loseDestination_nSrc (s : State) : s.loseDestination.nSrc = s.nSrc := rfl
@[simp] theorem State.loseDestination_aBuf (s : State) : s.loseDestination.aBuf = s.aBuf := rfl
@[simp] theorem State.loseDestination_nBuf (s : State) : s.loseDestination.nBuf = s.nBuf := rfl
@[simp] theorem State.loseDestination_ftTotal (s : State) : s.loseDestination.ftTotal = s.ftTotal := rfl
@[simp] theorem State.loseDestination_taddr (s : State) : s.loseDestination.taddr = s.taddr := rfl
@[simp] theorem State.loseDestination_work (s : State) : s.loseDestination.work = s.work := rfl
@[simp] theorem State.loseDestination_freq (s : State) : s.loseDestination.freq = s.freq := rfl
@[simp] theorem State.loseDestination_cum (s : State) : s.loseDestination.cum = s.cum := rfl
@[simp] theorem State.loseDestination_enc (s : State) : s.loseDestination.enc = s.enc := rfl
@[simp] theorem State.loseDestination_dec (s : State) : s.loseDestination.dec = s.dec := rfl
@[simp] theorem State.loseDestination_inv (s : State) : s.loseDestination.inv = s.inv := rfl
@[simp] theorem State.loseDestination_mem (s : State) : s.loseDestination.mem = s.mem.fill s.aBuf.toNat s.nBuf.toNat (fun i => free 8 s.fresh (.dest i)) := rfl
@[simp] theorem State.loseDestination_memTop (s : State) : s.loseDestination.memTop = s.memTop := rfl
@[simp] theorem State.loseDestination_script (s : State) : s.loseDestination.script = s.script := rfl
@[simp] theorem State.loseDestination_reads (s : State) : s.loseDestination.reads = s.reads := rfl
@[simp] theorem State.loseDestination_fresh (s : State) : s.loseDestination.fresh = s.fresh := rfl

@[simp] theorem State.countStage_cmd (s : State) : s.countStage.cmd = s.cmd := rfl
@[simp] theorem State.countStage_busy (s : State) : s.countStage.busy = s.busy := rfl
@[simp] theorem State.countStage_done (s : State) : s.countStage.done = s.done := rfl
@[simp] theorem State.countStage_err (s : State) : s.countStage.err = s.err := rfl
@[simp] theorem State.countStage_sstate (s : State) : s.countStage.sstate = .counted := rfl
@[simp] theorem State.countStage_tvar (s : State) : s.countStage.tvar = s.tvar := rfl
@[simp] theorem State.countStage_result (s : State) : s.countStage.result = s.result := rfl
@[simp] theorem State.countStage_aSrc (s : State) : s.countStage.aSrc = s.aSrc := rfl
@[simp] theorem State.countStage_nSrc (s : State) : s.countStage.nSrc = s.nSrc := rfl
@[simp] theorem State.countStage_aBuf (s : State) : s.countStage.aBuf = s.aBuf := rfl
@[simp] theorem State.countStage_nBuf (s : State) : s.countStage.nBuf = s.nBuf := rfl
@[simp] theorem State.countStage_ftTotal (s : State) : s.countStage.ftTotal = s.ftTotal := rfl
@[simp] theorem State.countStage_taddr (s : State) : s.countStage.taddr = s.taddr := rfl
@[simp] theorem State.countStage_work (s : State) : s.countStage.work = s.work := rfl
@[simp] theorem State.countStage_freq (s : State) : s.countStage.freq = countFreq s.mem s.aSrc.toNat s.nSrc.toNat := rfl
@[simp] theorem State.countStage_cum (s : State) : s.countStage.cum = freeCum s.fresh := rfl
@[simp] theorem State.countStage_enc (s : State) : s.countStage.enc = s.enc := rfl
@[simp] theorem State.countStage_dec (s : State) : s.countStage.dec = s.dec := rfl
@[simp] theorem State.countStage_inv (s : State) : s.countStage.inv = s.inv := rfl
@[simp] theorem State.countStage_mem (s : State) : s.countStage.mem = s.mem := rfl
@[simp] theorem State.countStage_memTop (s : State) : s.countStage.memTop = s.memTop := rfl
@[simp] theorem State.countStage_script (s : State) : s.countStage.script = s.script := rfl
@[simp] theorem State.countStage_reads (s : State) : s.countStage.reads = s.reads := rfl
@[simp] theorem State.countStage_fresh (s : State) : s.countStage.fresh = s.fresh := rfl

@[simp] theorem State.setStatistics_cmd (s : State) (c : Nat → Nat) : (s.setStatistics c).cmd = s.cmd := rfl
@[simp] theorem State.setStatistics_busy (s : State) (c : Nat → Nat) : (s.setStatistics c).busy = s.busy := rfl
@[simp] theorem State.setStatistics_done (s : State) (c : Nat → Nat) : (s.setStatistics c).done = s.done := rfl
@[simp] theorem State.setStatistics_err (s : State) (c : Nat → Nat) : (s.setStatistics c).err = s.err := rfl
@[simp] theorem State.setStatistics_sstate (s : State) (c : Nat → Nat) : (s.setStatistics c).sstate = .normal := rfl
@[simp] theorem State.setStatistics_tvar (s : State) (c : Nat → Nat) : (s.setStatistics c).tvar = s.tvar := rfl
@[simp] theorem State.setStatistics_result (s : State) (c : Nat → Nat) : (s.setStatistics c).result = s.result := rfl
@[simp] theorem State.setStatistics_aSrc (s : State) (c : Nat → Nat) : (s.setStatistics c).aSrc = s.aSrc := rfl
@[simp] theorem State.setStatistics_nSrc (s : State) (c : Nat → Nat) : (s.setStatistics c).nSrc = s.nSrc := rfl
@[simp] theorem State.setStatistics_aBuf (s : State) (c : Nat → Nat) : (s.setStatistics c).aBuf = s.aBuf := rfl
@[simp] theorem State.setStatistics_nBuf (s : State) (c : Nat → Nat) : (s.setStatistics c).nBuf = s.nBuf := rfl
@[simp] theorem State.setStatistics_ftTotal (s : State) (c : Nat → Nat) : (s.setStatistics c).ftTotal = s.ftTotal := rfl
@[simp] theorem State.setStatistics_taddr (s : State) (c : Nat → Nat) : (s.setStatistics c).taddr = s.taddr := rfl
@[simp] theorem State.setStatistics_work (s : State) (c : Nat → Nat) : (s.setStatistics c).work = s.work := rfl
@[simp] theorem State.setStatistics_freq (s : State) (c : Nat → Nat) : (s.setStatistics c).freq = tabulate 256 (fun i => BitVec.ofNat 32 (gap c i)) := rfl
@[simp] theorem State.setStatistics_cum (s : State) (c : Nat → Nat) : (s.setStatistics c).cum = tabulate 257 (fun i => BitVec.ofNat 32 (c i)) := rfl
@[simp] theorem State.setStatistics_enc (s : State) (c : Nat → Nat) : (s.setStatistics c).enc = s.enc := rfl
@[simp] theorem State.setStatistics_dec (s : State) (c : Nat → Nat) : (s.setStatistics c).dec = s.dec := rfl
@[simp] theorem State.setStatistics_inv (s : State) (c : Nat → Nat) : (s.setStatistics c).inv = s.inv := rfl
@[simp] theorem State.setStatistics_mem (s : State) (c : Nat → Nat) : (s.setStatistics c).mem = s.mem := rfl
@[simp] theorem State.setStatistics_memTop (s : State) (c : Nat → Nat) : (s.setStatistics c).memTop = s.memTop := rfl
@[simp] theorem State.setStatistics_script (s : State) (c : Nat → Nat) : (s.setStatistics c).script = s.script := rfl
@[simp] theorem State.setStatistics_reads (s : State) (c : Nat → Nat) : (s.setStatistics c).reads = s.reads := rfl
@[simp] theorem State.setStatistics_fresh (s : State) (c : Nat → Nat) : (s.setStatistics c).fresh = s.fresh := rfl

@[simp] theorem State.buildTables_cmd (s : State) (v : TVar) (g : EncEntry → Nat → Nat → EncEntry) : (s.buildTables v g).cmd = s.cmd := rfl
@[simp] theorem State.buildTables_busy (s : State) (v : TVar) (g : EncEntry → Nat → Nat → EncEntry) : (s.buildTables v g).busy = s.busy := rfl
@[simp] theorem State.buildTables_done (s : State) (v : TVar) (g : EncEntry → Nat → Nat → EncEntry) : (s.buildTables v g).done = s.done := rfl
@[simp] theorem State.buildTables_err (s : State) (v : TVar) (g : EncEntry → Nat → Nat → EncEntry) : (s.buildTables v g).err = s.err := rfl
@[simp] theorem State.buildTables_sstate (s : State) (v : TVar) (g : EncEntry → Nat → Nat → EncEntry) : (s.buildTables v g).sstate = s.sstate := rfl
@[simp] theorem State.buildTables_tvar (s : State) (v : TVar) (g : EncEntry → Nat → Nat → EncEntry) : (s.buildTables v g).tvar = v := rfl
@[simp] theorem State.buildTables_result (s : State) (v : TVar) (g : EncEntry → Nat → Nat → EncEntry) : (s.buildTables v g).result = s.result := rfl
@[simp] theorem State.buildTables_aSrc (s : State) (v : TVar) (g : EncEntry → Nat → Nat → EncEntry) : (s.buildTables v g).aSrc = s.aSrc := rfl
@[simp] theorem State.buildTables_nSrc (s : State) (v : TVar) (g : EncEntry → Nat → Nat → EncEntry) : (s.buildTables v g).nSrc = s.nSrc := rfl
@[simp] theorem State.buildTables_aBuf (s : State) (v : TVar) (g : EncEntry → Nat → Nat → EncEntry) : (s.buildTables v g).aBuf = s.aBuf := rfl
@[simp] theorem State.buildTables_nBuf (s : State) (v : TVar) (g : EncEntry → Nat → Nat → EncEntry) : (s.buildTables v g).nBuf = s.nBuf := rfl
@[simp] theorem State.buildTables_ftTotal (s : State) (v : TVar) (g : EncEntry → Nat → Nat → EncEntry) : (s.buildTables v g).ftTotal = s.ftTotal := rfl
@[simp] theorem State.buildTables_taddr (s : State) (v : TVar) (g : EncEntry → Nat → Nat → EncEntry) : (s.buildTables v g).taddr = s.taddr := rfl
@[simp] theorem State.buildTables_work (s : State) (v : TVar) (g : EncEntry → Nat → Nat → EncEntry) : (s.buildTables v g).work = s.work := rfl
@[simp] theorem State.buildTables_freq (s : State) (v : TVar) (g : EncEntry → Nat → Nat → EncEntry) : (s.buildTables v g).freq = s.freq := rfl
@[simp] theorem State.buildTables_cum (s : State) (v : TVar) (g : EncEntry → Nat → Nat → EncEntry) : (s.buildTables v g).cum = s.cum := rfl
@[simp] theorem State.buildTables_dec (s : State) (v : TVar) (g : EncEntry → Nat → Nat → EncEntry) : (s.buildTables v g).dec = buildDec s.freq s.cum := rfl
@[simp] theorem State.buildTables_inv (s : State) (v : TVar) (g : EncEntry → Nat → Nat → EncEntry) : (s.buildTables v g).inv = buildInv s.cum s.inv := rfl
@[simp] theorem State.buildTables_mem (s : State) (v : TVar) (g : EncEntry → Nat → Nat → EncEntry) : (s.buildTables v g).mem = s.mem := rfl
@[simp] theorem State.buildTables_memTop (s : State) (v : TVar) (g : EncEntry → Nat → Nat → EncEntry) : (s.buildTables v g).memTop = s.memTop := rfl
@[simp] theorem State.buildTables_script (s : State) (v : TVar) (g : EncEntry → Nat → Nat → EncEntry) : (s.buildTables v g).script = s.script := rfl
@[simp] theorem State.buildTables_reads (s : State) (v : TVar) (g : EncEntry → Nat → Nat → EncEntry) : (s.buildTables v g).reads = s.reads := rfl
@[simp] theorem State.buildTables_fresh (s : State) (v : TVar) (g : EncEntry → Nat → Nat → EncEntry) : (s.buildTables v g).fresh = s.fresh := rfl

@[simp] theorem State.observe_cmd (s : State) (v : Word) : (s.observe v).cmd = s.cmd := rfl
@[simp] theorem State.observe_busy (s : State) (v : Word) : (s.observe v).busy = s.busy := rfl
@[simp] theorem State.observe_done (s : State) (v : Word) : (s.observe v).done = s.done := rfl
@[simp] theorem State.observe_err (s : State) (v : Word) : (s.observe v).err = s.err := rfl
@[simp] theorem State.observe_sstate (s : State) (v : Word) : (s.observe v).sstate = s.sstate := rfl
@[simp] theorem State.observe_tvar (s : State) (v : Word) : (s.observe v).tvar = s.tvar := rfl
@[simp] theorem State.observe_result (s : State) (v : Word) : (s.observe v).result = s.result := rfl
@[simp] theorem State.observe_aSrc (s : State) (v : Word) : (s.observe v).aSrc = s.aSrc := rfl
@[simp] theorem State.observe_nSrc (s : State) (v : Word) : (s.observe v).nSrc = s.nSrc := rfl
@[simp] theorem State.observe_aBuf (s : State) (v : Word) : (s.observe v).aBuf = s.aBuf := rfl
@[simp] theorem State.observe_nBuf (s : State) (v : Word) : (s.observe v).nBuf = s.nBuf := rfl
@[simp] theorem State.observe_ftTotal (s : State) (v : Word) : (s.observe v).ftTotal = s.ftTotal := rfl
@[simp] theorem State.observe_taddr (s : State) (v : Word) : (s.observe v).taddr = s.taddr := rfl
@[simp] theorem State.observe_work (s : State) (v : Word) : (s.observe v).work = s.work := rfl
@[simp] theorem State.observe_freq (s : State) (v : Word) : (s.observe v).freq = s.freq := rfl
@[simp] theorem State.observe_cum (s : State) (v : Word) : (s.observe v).cum = s.cum := rfl
@[simp] theorem State.observe_enc (s : State) (v : Word) : (s.observe v).enc = s.enc := rfl
@[simp] theorem State.observe_dec (s : State) (v : Word) : (s.observe v).dec = s.dec := rfl
@[simp] theorem State.observe_inv (s : State) (v : Word) : (s.observe v).inv = s.inv := rfl
@[simp] theorem State.observe_mem (s : State) (v : Word) : (s.observe v).mem = s.mem := rfl
@[simp] theorem State.observe_memTop (s : State) (v : Word) : (s.observe v).memTop = s.memTop := rfl
@[simp] theorem State.observe_script (s : State) (v : Word) : (s.observe v).script = s.script := rfl
@[simp] theorem State.observe_reads (s : State) (v : Word) : (s.observe v).reads = s.reads ++ [v] := rfl
@[simp] theorem State.observe_fresh (s : State) (v : Word) : (s.observe v).fresh = s.fresh := rfl

@[simp] theorem Run.setX_x (r : Run) (v : Nat) : (r.setX v).work.x = BitVec.ofNat 64 v := rfl
@[simp] theorem Run.setX_acc (r : Run) (v : Nat) : (r.setX v).work.acc = r.work.acc := rfl
@[simp] theorem Run.setX_bitpos (r : Run) (v : Nat) : (r.setX v).work.bitpos = r.work.bitpos := rfl
@[simp] theorem Run.setX_wr (r : Run) (v : Nat) : (r.setX v).work.wr = r.work.wr := rfl
@[simp] theorem Run.setX_rd (r : Run) (v : Nat) : (r.setX v).work.rd = r.work.rd := rfl
@[simp] theorem Run.setX_dacc (r : Run) (v : Nat) : (r.setX v).work.dacc = r.work.dacc := rfl
@[simp] theorem Run.setX_dbits (r : Run) (v : Nat) : (r.setX v).work.dbits = r.work.dbits := rfl
@[simp] theorem Run.setX_idx (r : Run) (v : Nat) : (r.setX v).work.idx = r.work.idx := rfl
@[simp] theorem Run.setX_mem (r : Run) (v : Nat) : (r.setX v).mem = r.mem := rfl
@[simp] theorem Run.setIdx_x (r : Run) (i : Nat) : (r.setIdx i).work.x = r.work.x := rfl
@[simp] theorem Run.setIdx_acc (r : Run) (i : Nat) : (r.setIdx i).work.acc = r.work.acc := rfl
@[simp] theorem Run.setIdx_bitpos (r : Run) (i : Nat) : (r.setIdx i).work.bitpos = r.work.bitpos := rfl
@[simp] theorem Run.setIdx_wr (r : Run) (i : Nat) : (r.setIdx i).work.wr = r.work.wr := rfl
@[simp] theorem Run.setIdx_rd (r : Run) (i : Nat) : (r.setIdx i).work.rd = r.work.rd := rfl
@[simp] theorem Run.setIdx_dacc (r : Run) (i : Nat) : (r.setIdx i).work.dacc = r.work.dacc := rfl
@[simp] theorem Run.setIdx_dbits (r : Run) (i : Nat) : (r.setIdx i).work.dbits = r.work.dbits := rfl
@[simp] theorem Run.setIdx_idx (r : Run) (i : Nat) : (r.setIdx i).work.idx = BitVec.ofNat 33 i := rfl
@[simp] theorem Run.setIdx_mem (r : Run) (i : Nat) : (r.setIdx i).mem = r.mem := rfl
@[simp] theorem emitBits_x (v n : Nat) (r : Run) : (emitBits v n r).work.x = r.work.x := rfl
@[simp] theorem emitBits_acc (v n : Nat) (r : Run) : (emitBits v n r).work.acc = BitVec.ofNat 64 (r.work.acc.toNat ||| ((v &&& bitmask n) <<< r.work.bitpos.toNat)) := rfl
@[simp] theorem emitBits_bitpos (v n : Nat) (r : Run) : (emitBits v n r).work.bitpos = BitVec.ofNat 7 (r.work.bitpos.toNat + n) := rfl
@[simp] theorem emitBits_wr (v n : Nat) (r : Run) : (emitBits v n r).work.wr = r.work.wr := rfl
@[simp] theorem emitBits_rd (v n : Nat) (r : Run) : (emitBits v n r).work.rd = r.work.rd := rfl
@[simp] theorem emitBits_dacc (v n : Nat) (r : Run) : (emitBits v n r).work.dacc = r.work.dacc := rfl
@[simp] theorem emitBits_dbits (v n : Nat) (r : Run) : (emitBits v n r).work.dbits = r.work.dbits := rfl
@[simp] theorem emitBits_idx (v n : Nat) (r : Run) : (emitBits v n r).work.idx = r.work.idx := rfl
@[simp] theorem emitBits_mem (v n : Nat) (r : Run) : (emitBits v n r).mem = r.mem := rfl
@[simp] theorem State.decodeSymbol_acc (s : State) (i : Nat) (r : Run) : (s.decodeSymbol i r).work.acc = r.work.acc := rfl
@[simp] theorem State.decodeSymbol_bitpos (s : State) (i : Nat) (r : Run) : (s.decodeSymbol i r).work.bitpos = r.work.bitpos := rfl
@[simp] theorem State.decodeSymbol_wr (s : State) (i : Nat) (r : Run) : (s.decodeSymbol i r).work.wr = r.work.wr := rfl
@[simp] theorem State.decodeSymbol_rd (s : State) (i : Nat) (r : Run) : (s.decodeSymbol i r).work.rd = r.work.rd := rfl
@[simp] theorem State.decodeSymbol_dacc (s : State) (i : Nat) (r : Run) : (s.decodeSymbol i r).work.dacc = r.work.dacc := rfl
@[simp] theorem State.decodeSymbol_dbits (s : State) (i : Nat) (r : Run) : (s.decodeSymbol i r).work.dbits = r.work.dbits := rfl
@[simp] theorem State.decodeSymbol_idx (s : State) (i : Nat) (r : Run) : (s.decodeSymbol i r).work.idx = r.work.idx := rfl
@[simp] theorem State.decodeSymbol_mem (s : State) (i : Nat) (r : Run) :
    (s.decodeSymbol i r).mem = r.mem.write (s.aBuf.toNat + i) (s.invOf r.work.x.toNat) := rfl

@[simp] theorem State.hostReset_cmd (s : State) : s.hostReset.cmd = 0 := rfl
@[simp] theorem State.hostReset_busy (s : State) : s.hostReset.busy = false := rfl
@[simp] theorem State.hostReset_done (s : State) : s.hostReset.done = false := rfl
@[simp] theorem State.hostReset_err (s : State) : s.hostReset.err = .none := rfl
@[simp] theorem State.hostReset_sstate (s : State) : s.hostReset.sstate = .invalid := rfl
@[simp] theorem State.hostReset_tvar (s : State) : s.hostReset.tvar = .none := rfl
@[simp] theorem State.hostReset_result (s : State) : s.hostReset.result = 0 := rfl
@[simp] theorem State.hostReset_aSrc (s : State) : s.hostReset.aSrc = 0 := rfl
@[simp] theorem State.hostReset_nSrc (s : State) : s.hostReset.nSrc = 0 := rfl
@[simp] theorem State.hostReset_aBuf (s : State) : s.hostReset.aBuf = 0 := rfl
@[simp] theorem State.hostReset_nBuf (s : State) : s.hostReset.nBuf = 0 := rfl
@[simp] theorem State.hostReset_ftTotal (s : State) : s.hostReset.ftTotal = 16384 := rfl
@[simp] theorem State.hostReset_taddr (s : State) : s.hostReset.taddr = 0 := rfl
@[simp] theorem State.hostReset_work (s : State) : s.hostReset.work = freeWork s.fresh := rfl
@[simp] theorem State.hostReset_freq (s : State) : s.hostReset.freq = freeFreq s.fresh := rfl
@[simp] theorem State.hostReset_cum (s : State) : s.hostReset.cum = freeCum s.fresh := rfl
@[simp] theorem State.hostReset_mem (s : State) : s.hostReset.mem = s.mem := rfl
@[simp] theorem State.hostReset_memTop (s : State) : s.hostReset.memTop = s.memTop := rfl
@[simp] theorem State.hostReset_script (s : State) : s.hostReset.script = s.script := rfl
@[simp] theorem State.hostReset_reads (s : State) : s.hostReset.reads = s.reads := rfl
@[simp] theorem State.hostReset_fresh (s : State) : s.hostReset.fresh = s.fresh + 1 := rfl

@[simp] theorem State.withFetchWord_cmd (s : State) (nbits w : Nat) : (s.withFetchWord nbits w).cmd = s.cmd := rfl
@[simp] theorem State.withFetchWord_busy (s : State) (nbits w : Nat) : (s.withFetchWord nbits w).busy = s.busy := rfl
@[simp] theorem State.withFetchWord_done (s : State) (nbits w : Nat) : (s.withFetchWord nbits w).done = s.done := rfl
@[simp] theorem State.withFetchWord_err (s : State) (nbits w : Nat) : (s.withFetchWord nbits w).err = s.err := rfl
@[simp] theorem State.withFetchWord_sstate (s : State) (nbits w : Nat) : (s.withFetchWord nbits w).sstate = s.sstate := rfl
@[simp] theorem State.withFetchWord_tvar (s : State) (nbits w : Nat) : (s.withFetchWord nbits w).tvar = s.tvar := rfl
@[simp] theorem State.withFetchWord_result (s : State) (nbits w : Nat) : (s.withFetchWord nbits w).result = s.result := rfl
@[simp] theorem State.withFetchWord_aSrc (s : State) (nbits w : Nat) : (s.withFetchWord nbits w).aSrc = s.aSrc := rfl
@[simp] theorem State.withFetchWord_nSrc (s : State) (nbits w : Nat) : (s.withFetchWord nbits w).nSrc = s.nSrc := rfl
@[simp] theorem State.withFetchWord_aBuf (s : State) (nbits w : Nat) : (s.withFetchWord nbits w).aBuf = s.aBuf := rfl
@[simp] theorem State.withFetchWord_nBuf (s : State) (nbits w : Nat) : (s.withFetchWord nbits w).nBuf = s.nBuf := rfl
@[simp] theorem State.withFetchWord_ftTotal (s : State) (nbits w : Nat) : (s.withFetchWord nbits w).ftTotal = s.ftTotal := rfl
@[simp] theorem State.withFetchWord_taddr (s : State) (nbits w : Nat) : (s.withFetchWord nbits w).taddr = s.taddr := rfl
@[simp] theorem State.withFetchWord_work (s : State) (nbits w : Nat) : (s.withFetchWord nbits w).work = s.work := rfl
@[simp] theorem State.withFetchWord_freq (s : State) (nbits w : Nat) : (s.withFetchWord nbits w).freq = s.freq := rfl
@[simp] theorem State.withFetchWord_cum (s : State) (nbits w : Nat) : (s.withFetchWord nbits w).cum = s.cum := rfl
@[simp] theorem State.withFetchWord_enc (s : State) (nbits w : Nat) : (s.withFetchWord nbits w).enc = s.enc := rfl
@[simp] theorem State.withFetchWord_dec (s : State) (nbits w : Nat) : (s.withFetchWord nbits w).dec = s.dec := rfl
@[simp] theorem State.withFetchWord_inv (s : State) (nbits w : Nat) : (s.withFetchWord nbits w).inv = s.inv := rfl
@[simp] theorem State.withFetchWord_mem (s : State) (nbits w : Nat) : (s.withFetchWord nbits w).mem = s.mem := rfl
@[simp] theorem State.withFetchWord_memTop (s : State) (nbits w : Nat) : (s.withFetchWord nbits w).memTop = s.memTop := rfl
@[simp] theorem State.withFetchWord_reads (s : State) (nbits w : Nat) : (s.withFetchWord nbits w).reads = s.reads := rfl
@[simp] theorem State.withFetchWord_fresh (s : State) (nbits w : Nat) : (s.withFetchWord nbits w).fresh = s.fresh := rfl

theorem State.memSize_congr {s t : State} (h : t.memTop = s.memTop) : t.memSize = s.memSize := by simp [State.memSize, h]

end Sys2Proof.Machine
end

