-- ==== Sys2Proof/Laws/Memory.lean ====
section
/-! SUPPORT. The laws of buffer memory (spec/20_memory.md R61, R63, R64): what a read after a write gives, that every operation keeps the
canonical form, and the bytes of a run as one number (spec/43_fixed_accuracy_codec.md R195). The read laws hold of every list, canonical or not. -/

namespace Sys2Proof.Machine

@[simp] theorem Memory.read_nil (a : Nat) : Memory.read [] a = Config.unlistedByte := rfl

theorem Memory.read_cons (c : Host.Cell) (m : Memory) (a : Nat) :
    Memory.read (c :: m) a = if c.1 = a then c.2 else Memory.read m a := rfl

theorem Memory.read_erase (m : Memory) (a x : Nat) :
    Memory.read (m.erase a) x = if x = a then Config.unlistedByte else m.read x := by
  induction m with
  | nil => simp [Memory.erase]
  | cons c t ih =>
    simp only [Memory.erase] at ih
    by_cases hc : c.1 = a
    · simp only [Memory.erase, List.filter_cons, hc, ne_eq, not_true, decide_false, Bool.false_eq_true, if_false, ih,
        Memory.read_cons]
      by_cases hx : x = a
      · simp [hx]
      · simp [hx, Ne.symm hx]
    · simp only [Memory.erase, List.filter_cons, hc, ne_eq, not_false_iff, decide_true, if_true, Memory.read_cons, ih]
      by_cases hx : c.1 = x
      · subst hx; simp [hc]
      · simp [hx]

theorem Memory.read_insert (m : Memory) (a x : Nat) (b : Byte) (h : ∀ c ∈ m, c.1 ≠ a) :
    (m.insert a b).read x = if x = a then b else m.read x := by
  induction m with
  | nil =>
    by_cases hx : x = a
    · simp [hx, Memory.insert, Memory.read_cons]
    · simp [hx, Memory.insert, Memory.read_cons, Ne.symm hx]
  | cons c t ih =>
    have hc : c.1 ≠ a := h c (by simp)
    have ih := ih (fun d hd => h d (by simp [hd]))
    simp only [Memory.insert]
    split
    · rw [Memory.read_cons]
      by_cases hx : x = a
      · simp [hx]
      · simp [hx, Ne.symm hx]
    · rw [Memory.read_cons, ih, Memory.read_cons]
      by_cases hx : x = a
      · subst hx; simp [hc]
      · simp [hx]

theorem Memory.not_mem_erase (m : Memory) (a : Nat) : ∀ c ∈ m.erase a, c.1 ≠ a := by
  intro c hc
  simpa [Memory.erase] using (List.mem_filter.mp hc).2

/-- Read after write: the byte written at that address, every other byte as before (R61). -/
theorem Memory.read_write (m : Memory) (a x : Nat) (b : Byte) : (m.write a b).read x = if x = a then b else m.read x := by
  unfold Memory.write
  split
  · rename_i hb
    rw [Memory.read_erase, hb]
  · rw [Memory.read_insert _ _ _ _ (Memory.not_mem_erase m a), Memory.read_erase]
    by_cases hx : x = a <;> simp [hx]

@[simp] theorem Memory.read_write_same (m : Memory) (a : Nat) (b : Byte) : (m.write a b).read a = b := by
  simp [Memory.read_write]

theorem Memory.read_write_ne (m : Memory) {a x : Nat} (b : Byte) (h : x ≠ a) : (m.write a b).read x = m.read x := by
  simp [Memory.read_write, h]

/-- A wide write leaves every byte outside its own bytes (R64). -/
theorem Memory.read_writeLE_outside (m : Memory) (a n v x : Nat) (h : x < a ∨ a + n ≤ x) :
    (m.writeLE a n v).read x = m.read x := by
  induction n generalizing m a v with
  | zero => rfl
  | succ n ih =>
    rw [Memory.writeLE, ih _ _ _ (by omega), Memory.read_write_ne _ _ (by omega)]

/-- Byte `j` of a wide write (R64). -/
theorem Memory.read_writeLE_inside (m : Memory) (a n v j : Nat) (h : j < n) :
    (m.writeLE a n v).read (a + j) = BitVec.ofNat 8 (v / 2 ^ (8 * j)) := by
  induction n generalizing m a v j with
  | zero => omega
  | succ n ih =>
    rw [Memory.writeLE]
    cases j with
    | zero =>
      rw [Memory.read_writeLE_outside _ _ _ _ _ (by omega), Nat.add_zero, Memory.read_write_same]; simp
    | succ j =>
      rw [show a + (j + 1) = a + 1 + j by omega, ih _ _ _ _ (by omega), Nat.div_div_eq_div_mul,
        show 8 * (j + 1) = 8 + 8 * j by omega, pow_add]

theorem Memory.readLE_congr {m m' : Memory} {a n : Nat} (h : ∀ j < n, m'.read (a + j) = m.read (a + j)) :
    m'.readLE a n = m.readLE a n := by
  induction n generalizing a with
  | zero => rfl
  | succ n ih =>
    have h0 := h 0 (by omega)
    simp only [Nat.add_zero] at h0
    rw [Memory.readLE, Memory.readLE, h0, ih]
    intro j hj
    have := h (j + 1) (by omega)
    rwa [show a + (j + 1) = a + 1 + j by omega] at this

/-- A wide read of a wide write gives the value back (R63, R64). -/
theorem Memory.readLE_writeLE (m : Memory) (a n v : Nat) : (m.writeLE a n v).readLE a n = v % 2 ^ (8 * n) := by
  induction n generalizing m a v with
  | zero => simp [Memory.readLE, Nat.mod_one]
  | succ n ih =>
    rw [Memory.writeLE, Memory.readLE, ih, Memory.read_writeLE_outside _ _ _ _ _ (by omega), Memory.read_write_same,
      BitVec.toNat_ofNat, show 8 * (n + 1) = 8 + 8 * n by omega, pow_add, Nat.mod_mul]

theorem Memory.readLE_lt (m : Memory) (a n : Nat) : m.readLE a n < 2 ^ (8 * n) := by
  induction n generalizing a with
  | zero => simp [Memory.readLE]
  | succ n ih =>
    have h1 := ih (a + 1)
    have h2 := (m.read a).isLt
    rw [Memory.readLE, show 8 * (n + 1) = 8 * n + 8 by omega, pow_add]
    omega

theorem Memory.fill_succ (m : Memory) (a n : Nat) (f : Nat → Byte) :
    m.fill a (n + 1) f = (m.fill a n f).write (a + n) (f n) := by
  simp [Memory.fill, List.range_succ]

/-- A fill writes its own bytes and no other. -/
theorem Memory.read_fill (m : Memory) (a n x : Nat) (f : Nat → Byte) :
    (m.fill a n f).read x = if a ≤ x ∧ x < a + n then f (x - a) else m.read x := by
  induction n with
  | zero => simp [Memory.fill]
  | succ n ih =>
    rw [Memory.fill_succ, Memory.read_write, ih]
    by_cases h : x = a + n
    · subst h; simp
    · simp only [if_neg h]
      by_cases h2 : a ≤ x ∧ x < a + n
      · rw [if_pos h2, if_pos (by omega)]
      · rw [if_neg h2, if_neg (by omega)]

/-! ### The canonical form -/

theorem Memory.mem_insert {m : Memory} {a : Nat} {b : Byte} {c : Host.Cell} (h : c ∈ m.insert a b) : c = (a, b) ∨ c ∈ m := by
  induction m with
  | nil => simp [Memory.insert] at h; exact Or.inl h
  | cons d t ih =>
    simp only [Memory.insert] at h
    split at h
    · simpa using h
    · rcases List.mem_cons.mp h with h | h
      · exact Or.inr (by simp [h])
      · rcases ih h with h | h
        · exact Or.inl h
        · exact Or.inr (by simp [h])

theorem Memory.sorted_insert {m : Memory} {a : Nat} (b : Byte) (hs : m.Pairwise (fun c d => c.1 < d.1)) (hn : ∀ c ∈ m, c.1 ≠ a) :
    (m.insert a b).Pairwise (fun c d => c.1 < d.1) := by
  induction m with
  | nil => simp [Memory.insert]
  | cons d t ih =>
    have hs' := List.pairwise_cons.mp hs
    simp only [Memory.insert]
    split
    · rename_i hlt
      refine List.pairwise_cons.mpr ⟨fun c hc => ?_, hs⟩
      rcases List.mem_cons.mp hc with rfl | hc
      · exact hlt
      · exact Nat.lt_trans hlt (hs'.1 c hc)
    · rename_i hge
      have hd := hn d (by simp)
      refine List.pairwise_cons.mpr ⟨fun c hc => ?_, ih hs'.2 (fun c hc => hn c (by simp [hc]))⟩
      rcases Memory.mem_insert hc with rfl | hc
      · show d.1 < a; omega
      · exact hs'.1 c hc

/-- A write keeps the canonical form. -/
theorem Memory.wf_write {m : Memory} (h : m.wf) (a : Nat) (b : Byte) : (m.write a b).wf := by
  have he : (m.erase a).wf := ⟨h.1.filter _, fun c hc => h.2 c (List.mem_filter.mp hc).1⟩
  unfold Memory.write
  split
  · exact he
  · rename_i hb
    refine ⟨Memory.sorted_insert b he.1 (Memory.not_mem_erase m a), fun c hc => ?_⟩
    rcases Memory.mem_insert hc with rfl | hc
    · exact hb
    · exact he.2 c hc

theorem Memory.wf_writeLE {m : Memory} (h : m.wf) (a n v : Nat) : (m.writeLE a n v).wf := by
  induction n generalizing m a v with
  | zero => exact h
  | succ n ih => exact ih (Memory.wf_write h _ _) _ _

theorem Memory.wf_fill {m : Memory} (h : m.wf) (a n : Nat) (f : Nat → Byte) : (m.fill a n f).wf := by
  induction n with
  | zero => exact h
  | succ n ih => rw [Memory.fill_succ]; exact Memory.wf_write ih _ _

/-- A write lists no address but its own. -/
theorem Memory.mem_write {m : Memory} {a : Nat} {b : Byte} {c : Host.Cell} (h : c ∈ m.write a b) : c.1 = a ∨ c ∈ m := by
  unfold Memory.write at h
  split at h
  · exact Or.inr (List.mem_filter.mp h).1
  · rcases Memory.mem_insert h with rfl | h
    · exact Or.inl rfl
    · exact Or.inr (List.mem_filter.mp h).1

theorem Memory.mem_writeLE {m : Memory} {a n v : Nat} {c : Host.Cell} (h : c ∈ m.writeLE a n v) :
    (a ≤ c.1 ∧ c.1 < a + n) ∨ c ∈ m := by
  induction n generalizing m a v with
  | zero => exact Or.inr h
  | succ n ih =>
    rcases ih h with h | h
    · exact Or.inl (by omega)
    · rcases Memory.mem_write h with h | h
      · exact Or.inl (by omega)
      · exact Or.inr h

theorem Memory.mem_fill {m : Memory} {a n : Nat} {f : Nat → Byte} {c : Host.Cell} (h : c ∈ m.fill a n f) :
    (a ≤ c.1 ∧ c.1 < a + n) ∨ c ∈ m := by
  induction n with
  | zero => exact Or.inr h
  | succ n ih =>
    rw [Memory.fill_succ] at h
    rcases Memory.mem_write h with h | h
    · exact Or.inl (by omega)
    · rcases ih h with h | h
      · exact Or.inl (by omega)
      · exact Or.inr h

/-! ### Bytes as one number, the first most significant (43 R195) -/

/-- The number depends on its bytes alone. -/
theorem numberBE_congr {m m' : Memory} {a n : Nat} (h : ∀ j < n, m'.read (a + j) = m.read (a + j)) : numberBE m' a n = numberBE m a n := by
  induction n with
  | zero => rfl
  | succ n ih => rw [numberBE, numberBE, ih (fun j hj => h j (by omega)), h n (by omega)]

/-- The bytes of a run split in two: the first part is the most significant. -/
theorem numberBE_add (m : Memory) (a n k : Nat) : numberBE m a (n + k) = 2 ^ (8 * k) * numberBE m a n + numberBE m (a + n) k := by
  induction k with
  | zero => simp [numberBE]
  | succ k ih =>
    rw [← Nat.add_assoc, numberBE, numberBE, ih, show 8 * (k + 1) = 8 * k + 8 by omega, Nat.pow_add, ← Nat.add_assoc a n k]
    ring

theorem numberBE_lt (m : Memory) (a n : Nat) : numberBE m a n < 2 ^ (8 * n) := by
  induction n with
  | zero => simp [numberBE]
  | succ n ih =>
    rw [numberBE, show 8 * (n + 1) = 8 * n + 8 by omega, Nat.pow_add]
    have := (m.read (a + n)).isLt
    omega

/-- The memory of the reset state is canonical and lists no address. -/
theorem State.resetWith_memoryOk (top : Word) : (State.resetWith top).MemoryOk := by
  simp [State.MemoryOk, State.resetWith, Memory.wf]

end Sys2Proof.Machine
end

