-- ==== Sys2Proof/Laws/Tables.lean ====
section
/-! SUPPORT. The laws of the table memories: what an entry of a tabulated, updated or built table is. -/

namespace Sys2Proof.Machine

@[simp] theorem getElem_tabulate (n : Nat) (f : Nat → α) (i : Nat) (h : i < n) : (tabulate n f)[i] = f i := by
  simp [tabulate]

theorem wordAt_of_lt (v : Vector Word n) {i : Nat} (h : i < n) : wordAt v i = (v[i]).toNat := by simp [wordAt, h]

theorem wordAt_of_ge (v : Vector Word n) {i : Nat} (h : n ≤ i) : wordAt v i = 0 := by simp [wordAt, Nat.not_lt.mpr h]

theorem wordAt_lt (v : Vector Word n) (i : Nat) : wordAt v i < 2 ^ 32 := by
  by_cases h : i < n
  · rw [wordAt_of_lt v h]; exact (v[i]).isLt
  · rw [wordAt_of_ge v (by omega)]; decide

theorem wordAt_tabulate (n : Nat) (f : Nat → Word) {i : Nat} (h : i < n) : wordAt (tabulate n f) i = (f i).toNat := by
  rw [wordAt_of_lt _ h, getElem_tabulate]

/-- An entry given as a number below 2^32. -/
theorem wordAt_tabulate_ofNat (n : Nat) (f : Nat → Nat) {i : Nat} (h : i < n) (hf : f i < 2 ^ 32) :
    wordAt (tabulate n (fun i => BitVec.ofNat 32 (f i))) i = f i := by
  rw [wordAt_tabulate _ _ h, BitVec.toNat_ofNat, Nat.mod_eq_of_lt hf]

@[simp] theorem wordAt_replicate_zero (n i : Nat) : wordAt (Vector.replicate n (0 : Word)) i = 0 := by
  by_cases h : i < n <;> simp [wordAt, h]

theorem wordAt_set (v : Vector Word n) (i : Nat) (x : Word) (h : i < n) (j : Nat) :
    wordAt (v.set i x h) j = if j = i then x.toNat else wordAt v j := by
  by_cases hj : j < n
  · rw [wordAt_of_lt _ hj, Vector.getElem_set, wordAt_of_lt _ hj]
    by_cases hij : j = i
    · simp [hij]
    · simp [hij, Ne.symm hij]
  · rw [wordAt_of_ge _ (by omega), wordAt_of_ge _ (by omega), if_neg (by omega)]

/-- `BITMASK[n] = 2^n - 1` for every index the table has (10 R40). -/
theorem bitmask_eq {n : Nat} (h : n ≤ 32) : bitmask n = 2 ^ n - 1 := by
  rw [bitmask, bitmaskTable, wordAt_tabulate_ofNat 33 (fun n => 2 ^ n - 1) (by omega)]
  have : 2 ^ n ≤ 2 ^ 32 := Nat.pow_le_pow_right (by decide) h
  omega

/-- Taking the low `n` bits with the mask (10 R40). -/
theorem and_bitmask (v : Nat) {n : Nat} (h : n ≤ 32) : v &&& bitmask n = low v n := by
  rw [bitmask_eq h, Nat.and_two_pow_sub_one_eq_mod, low]

/-! ### Built tables -/

theorem encOf_buildTables (s : State) (v : TVar) (g : EncEntry → Nat → Nat → EncEntry) (b : Byte) :
    (s.buildTables v g).encOf b =
      g { freeEncEntry s.fresh b.toNat with
          freq := BitVec.ofNat 32 (wordAt s.freq b.toNat), start := BitVec.ofNat 32 (wordAt s.cum b.toNat) }
        (wordAt s.freq b.toNat) (wordAt s.cum b.toNat) := by
  simp [State.encOf, State.buildTables]

theorem decOf_buildTables (s : State) (v : TVar) (g : EncEntry → Nat → Nat → EncEntry) (b : Byte) :
    (s.buildTables v g).decOf b =
      { start := BitVec.ofNat 32 (wordAt s.cum b.toNat), freq := BitVec.ofNat 32 (wordAt s.freq b.toNat) } := by
  simp [State.decOf, State.buildTables, buildDec]

theorem ofNat_wordAt_toNat (v : Vector Word n) (i : Nat) : (BitVec.ofNat 32 (wordAt v i)).toNat = wordAt v i := by
  rw [BitVec.toNat_ofNat, Nat.mod_eq_of_lt (wordAt_lt v i)]

/-- Setting the fields of the variants leaves `freq` and `start`. With the new values as variables the check of `rfl` is short. -/
theorem setFast_frame (e : EncEntry) (m : Word) (r : DWord) (h b : Word) :
    ({ e with cmplFreq := m, rcp := r, rcpShift := h, bias := b } : EncEntry).freq = e.freq
      ∧ ({ e with cmplFreq := m, rcp := r, rcpShift := h, bias := b } : EncEntry).start = e.start
      ∧ ({ e with cmplFreq := m, rcp := r, rcpShift := h, bias := b } : EncEntry).delta = e.delta := ⟨rfl, rfl, rfl⟩

@[inherit_doc setFast_frame]
theorem setFa_frame (e : EncEntry) (d : Word) :
    ({ e with delta := d } : EncEntry).freq = e.freq ∧ ({ e with delta := d } : EncEntry).start = e.start := ⟨rfl, rfl⟩

@[simp] theorem refEntry_freq (e : EncEntry) (f c : Nat) : (refEntry e f c).freq = e.freq := rfl
@[simp] theorem refEntry_start (e : EncEntry) (f c : Nat) : (refEntry e f c).start = e.start := rfl
@[simp] theorem fastEntry_freq (e : EncEntry) (f c : Nat) : (fastEntry e f c).freq = e.freq := (setFast_frame _ _ _ _ _).1
@[simp] theorem fastEntry_start (e : EncEntry) (f c : Nat) : (fastEntry e f c).start = e.start := (setFast_frame _ _ _ _ _).2.1
@[simp] theorem fastEntry_delta (e : EncEntry) (f c : Nat) : (fastEntry e f c).delta = e.delta := (setFast_frame _ _ _ _ _).2.2
@[simp] theorem faEntry_freq (e : EncEntry) (f c : Nat) : (faEntry e f c).freq = e.freq := (setFa_frame _ _).1
@[simp] theorem faEntry_start (e : EncEntry) (f c : Nat) : (faEntry e f c).start = e.start := (setFa_frame _ _).2
@[simp] theorem faEntry_delta (e : EncEntry) (f c : Nat) : (faEntry e f c).delta = faDelta f := rfl

/-- Filling the fields of `TBL.FAST` a second time changes nothing. -/
theorem fastEntry_idem (e : EncEntry) (f c : Nat) : fastEntry (fastEntry e f c) f c = fastEntry e f c := rfl

/-- A symbol that owns slot `k` alone is what `INV[k]` holds (41 R132). -/
theorem slotSymbol_eq (cum : Vector Word 257) (k : Nat) (old b : Byte)
    (hb : wordAt cum b.toNat ≤ k ∧ k < wordAt cum (b.toNat + 1))
    (hu : ∀ i < 256, wordAt cum i ≤ k → k < wordAt cum (i + 1) → i = b.toNat) : slotSymbol cum k old = b := by
  have key : ∀ n ≤ 256, (List.range n).foldl
      (fun c i => if wordAt cum i ≤ k ∧ k < wordAt cum (i + 1) then BitVec.ofNat 8 i else c) old
        = if b.toNat < n then b else old := by
    intro n
    induction n with
    | zero => intro _; simp
    | succ n ih =>
      intro hn
      rw [List.range_succ, List.foldl_append, ih (by omega)]
      simp only [List.foldl_cons, List.foldl_nil]
      by_cases hk : wordAt cum n ≤ k ∧ k < wordAt cum (n + 1)
      · have : n = b.toNat := hu n (by omega) hk.1 hk.2
        rw [if_pos hk, if_pos (by omega), this]; simp
      · rw [if_neg hk]
        have : b.toNat ≠ n := by rintro rfl; exact hk hb
        by_cases hlt : b.toNat < n
        · rw [if_pos hlt, if_pos (by omega)]
        · rw [if_neg hlt, if_neg (by omega)]
  have h256 : b.toNat < 256 := b.isLt
  have := key 256 (Nat.le_refl _)
  rw [if_pos h256] at this
  exact this

/-- Boundaries that rise from one symbol to the next rise over any distance. -/
theorem wordAt_mono_of_steps {cum : Vector Word 257} (hm : ∀ i < 256, wordAt cum i ≤ wordAt cum (i + 1)) {i j : Nat} (hij : i ≤ j)
    (hj : j ≤ 256) : wordAt cum i ≤ wordAt cum j := by
  induction j with
  | zero => rw [Nat.le_zero.mp hij]
  | succ j ih =>
    rcases Nat.lt_or_eq_of_le hij with h | rfl
    · exact Nat.le_trans (ih (by omega) (by omega)) (hm j (by omega))
    · exact Nat.le_refl _

/-- Every slot below the last boundary lies in the interval of some symbol (41 R132). -/
theorem exists_slot_owner {cum : Vector Word 257} (h0 : wordAt cum 0 = 0) {k : Nat} (n : Nat) (hk : k < wordAt cum n) :
    ∃ i < n, wordAt cum i ≤ k ∧ k < wordAt cum (i + 1) := by
  induction n with
  | zero => omega
  | succ n ih =>
    by_cases h : k < wordAt cum n
    · obtain ⟨i, hi, h⟩ := ih h; exact ⟨i, by omega, h⟩
    · exact ⟨n, by omega, by omega, hk⟩

/-- After `TBL.v` on rising boundaries every slot of a symbol's interval names the symbol (41 R132). -/
theorem invOf_buildTables (s : State) (v : TVar) (g : EncEntry → Nat → Nat → EncEntry)
    (hm : ∀ i < 256, wordAt s.cum i ≤ wordAt s.cum (i + 1)) (k : Nat) (hk : k < 16384) (b : Byte)
    (hb : wordAt s.cum b.toNat ≤ k ∧ k < wordAt s.cum (b.toNat + 1)) : (s.buildTables v g).invOf k = b := by
  simp only [State.invOf, State.buildTables, buildInv, getElem_tabulate]
  have hmod : k % 2 ^ 14 = k := Nat.mod_eq_of_lt hk
  rw [hmod]
  refine slotSymbol_eq _ _ _ b hb ?_
  intro i hi h1 h2
  have hb8 : b.toNat < 256 := b.isLt
  rcases Nat.lt_trichotomy i b.toNat with h | h | h
  · have := wordAt_mono_of_steps hm (show i + 1 ≤ b.toNat by omega) (by omega); omega
  · exact h
  · have := wordAt_mono_of_steps hm (show b.toNat + 1 ≤ i by omega) (by omega); omega

/-- What `TBL.v` builds from valid statistics of total 16384 is a valid table set (10 R48). -/
theorem intervalsOk_buildTables (s : State) (v : TVar) (g : EncEntry → Nat → Nat → EncEntry)
    (hg : ∀ e f c, (g e f c).freq = e.freq ∧ (g e f c).start = e.start) (h0 : wordAt s.cum 0 = 0)
    (hs : ∀ i < 256, wordAt s.cum (i + 1) = wordAt s.cum i + wordAt s.freq i) (h : wordAt s.cum 256 = 16384) :
    (s.buildTables v g).IntervalsOk := by
  have hm : ∀ i < 256, wordAt s.cum i ≤ wordAt s.cum (i + 1) := fun i hi => by rw [hs i hi]; omega
  have hd : ∀ i < 256, (s.buildTables v g).decStart i = wordAt s.cum i ∧ (s.buildTables v g).decFreq i = wordAt s.freq i := by
    intro i hi
    have : i % 2 ^ 8 = i := Nat.mod_eq_of_lt hi
    simp only [State.decStart, State.decFreq, decOf_buildTables, BitVec.toNat_ofNat, this]
    exact ⟨Nat.mod_eq_of_lt (wordAt_lt _ _), Nat.mod_eq_of_lt (wordAt_lt _ _)⟩
  refine ⟨?_, ?_, ?_, ?_, ?_⟩
  · intro b; simp [encOf_buildTables, decOf_buildTables, hg]
  · rw [(hd 0 (by omega)).1, h0]
  · intro i hi; rw [(hd (i + 1) (by omega)).1, (hd i (by omega)).1, (hd i (by omega)).2, hs i (by omega)]
  · rw [(hd 255 (by omega)).1, (hd 255 (by omega)).2, ← hs 255 (by omega), h]
  · intro k hk
    obtain ⟨i, hi, h1, h2⟩ := exists_slot_owner h0 256 (h ▸ hk)
    have hi8 : (BitVec.ofNat 8 i).toNat = i := by rw [BitVec.toNat_ofNat]; exact Nat.mod_eq_of_lt hi
    rw [invOf_buildTables s v g hm k hk (BitVec.ofNat 8 i) (by rw [hi8]; exact ⟨h1, h2⟩)]
    have := hd i hi
    simp only [State.decStart, State.decFreq] at this
    rw [this.1, this.2, ← hs i hi]
    exact ⟨h1, h2⟩

/-- The table set `TBL.REF` builds from valid statistics is valid (41 R131). -/
theorem tablesOk_buildTables_ref (s : State) (h : (s.buildTables .ref refEntry).IntervalsOk) : (s.buildTables .ref refEntry).TablesOk :=
  ⟨fun _ => h, nofun, nofun⟩

/-- The table set `TBL.FAST` builds from valid statistics is valid (42 R161). -/
theorem tablesOk_buildTables_fast (s : State) (h : (s.buildTables .fast fastEntry).IntervalsOk) : (s.buildTables .fast fastEntry).TablesOk := by
  refine ⟨fun _ => h, fun _ b => ?_, nofun⟩
  rw [encOf_buildTables, fastEntry_freq, fastEntry_start, ofNat_wordAt_toNat, ofNat_wordAt_toNat, fastEntry_idem]

/-- The table set `TBL.FA` builds from valid statistics is valid (43 R183). -/
theorem tablesOk_buildTables_fa (s : State) (h : (s.buildTables .fa faEntry).IntervalsOk) : (s.buildTables .fa faEntry).TablesOk := by
  refine ⟨fun _ => h, nofun, fun _ b => ?_⟩
  rw [encOf_buildTables, faEntry_delta, faEntry_freq, ofNat_wordAt_toNat]

end Sys2Proof.Machine
end

