-- ==== Sys2Proof/Laws/Running.lean ====
section
/-! SUPPORT. What a running command can do, once for each shared operation: the stream write, the loops, the prologue, a step. -/

namespace Sys2Proof.Machine

/-- A sequence of two parts ends without error exactly when both do. -/
theorem bind_eq_ok {α β : Type} (x : Except ErrorCode α) (f : α → Except ErrorCode β) (b : β) :
    (x >>= f) = .ok b ↔ ∃ a, x = .ok a ∧ f a = .ok b := by
  cases x with
  | error e => simp [bind, Except.bind]
  | ok a => simp [bind, Except.bind]

/-- The stream write: space for `n` bytes is left, `WR` falls by `n`, the bytes land there; nothing else changes (60 R232). -/
theorem emit_ok {base n v : Nat} {r r' : Run} (h : r.emit base n v = .ok r') :
    base + n ≤ base + (r.work.wr.toNat - base) ∧
      r' = { work := { r.work with wr := BitVec.ofNat 33 (r.work.wr.toNat - n) }, mem := r.mem.writeLE (r.work.wr.toNat - n) n v } := by
  unfold Run.emit at h
  split at h
  · cases h
  · cases h; exact ⟨by omega, rfl⟩

/-- The only error of the stream write (60 R232). -/
theorem emit_error {base n v : Nat} {r : Run} {e : ErrorCode} (h : r.emit base n v = .error e) :
    e = .bufferTooSmall ∧ r.work.wr.toNat - base < n := by
  unfold Run.emit at h
  split at h
  · cases h; exact ⟨rfl, by assumption⟩
  · cases h

/-- What every step of the encode loop keeps, the loop keeps. -/
theorem encLoop_keeps {step : Byte → Run → Except ErrorCode Run} {src : Nat} (P : Run → Prop)
    (hidx : ∀ r i, P r → P (r.setIdx i)) (hstep : ∀ b r r', P r → step b r = .ok r' → P r') :
    ∀ n r r', P r → encLoop step src n r = .ok r' → P r' := by
  intro n
  induction n with
  | zero => intro r r' hP h; cases h; exact hP
  | succ n ih =>
    intro r r' hP h
    obtain ⟨a, ha, hb⟩ := (bind_eq_ok _ _ _).mp h
    exact ih a r' (hstep _ _ _ (hidx _ _ hP) ha) hb

/-- What every step of the decode loop keeps, the loop keeps. -/
theorem decLoop_keeps {step : Nat → Run → Except ErrorCode Run} (P : Run → Prop)
    (hidx : ∀ r i, P r → P (r.setIdx i)) (lo hi : Nat) (hstep : ∀ i r r', lo ≤ i → i < hi → P r → step i r = .ok r' → P r') :
    ∀ n i r r', lo ≤ i → i + n ≤ hi → P r → decLoop step n i r = .ok r' → P r' := by
  intro n
  induction n with
  | zero => intro i r r' _ _ hP h; cases h; exact hP
  | succ n ih =>
    intro i r r' hlo hhi hP h
    obtain ⟨a, ha, hb⟩ := (bind_eq_ok _ _ _).mp h
    exact ih (i + 1) a r' (by omega) (by omega) (hstep i _ _ hlo (by omega) (hidx _ _ hP) ha) hb

/-- The only errors a loop raises are those of its step. -/
theorem encLoop_error {step : Byte → Run → Except ErrorCode Run} {src : Nat} (Q : ErrorCode → Prop)
    (hstep : ∀ b r e, step b r = .error e → Q e) : ∀ n r e, encLoop step src n r = .error e → Q e := by
  intro n
  induction n with
  | zero => intro r e h; cases h
  | succ n ih =>
    intro r e h
    unfold encLoop at h
    cases hs : step (r.mem.read (src + n)) (r.setIdx n) with
    | error e' => rw [hs] at h; cases h; exact hstep _ _ _ hs
    | ok a => rw [hs] at h; exact ih a e h

@[inherit_doc encLoop_error]
theorem decLoop_error {step : Nat → Run → Except ErrorCode Run} (Q : ErrorCode → Prop)
    (hstep : ∀ i r e, step i r = .error e → Q e) : ∀ n i r e, decLoop step n i r = .error e → Q e := by
  intro n
  induction n with
  | zero => intro i r e h; cases h
  | succ n ih =>
    intro i r e h
    unfold decLoop at h
    cases hs : step i (r.setIdx i) with
    | error e' => rw [hs] at h; cases h; exact hstep _ _ _ hs
    | ok a => rw [hs] at h; exact ih (i + 1) a e h

/-- What a command can do after decoding (30 R103): `BadOperand`, `NotReady`, or its own rule. -/
theorem withPrologue_cases {ok ready : Bool} {s t : State} {body : State → State} (h : withPrologue ok ready s body = .next t) :
    (ok = false ∧ t = s.raise .badOperand) ∨ (ok = true ∧ ready = false ∧ t = s.raise .notReady)
      ∨ (ok = true ∧ ready = true ∧ t = body s) := by
  unfold withPrologue at h
  cases ok <;> cases ready <;> simp_all

/-- When the conditions of the prologue hold, the command's own rule is its meaning. -/
theorem withPrologue_runs {ok ready : Bool} (s : State) (body : State → State) (h : ok = true) (h' : ready = true) :
    withPrologue ok ready s body = .next (body s) := by
  simp [withPrologue, h, h']

/-- What a step can do: hold still with an empty script, or perform the script's first operation (70 R280). -/
theorem step_cases {s : State} {o : Host.Outcome State Fault Refusal} (h : step s = o) :
    (s.script = [] ∧ o = .next s)
      ∨ (∃ op rest w, s.script = op :: rest ∧ commandOf op = some w ∧ o = State.runCommand { s with script := rest } w)
      ∨ (∃ op rest, s.script = op :: rest ∧ commandOf op = none ∧ o = State.hostOp { s with script := rest } op) := by
  unfold step State.stepHost at h
  cases hs : s.script with
  | nil => rw [hs] at h; exact Or.inl ⟨rfl, h.symm⟩
  | cons op rest =>
    rw [hs] at h
    simp only [State.perform] at h
    cases hc : commandOf op with
    | some w => rw [hc] at h; exact Or.inr (Or.inl ⟨op, rest, w, rfl, hc, h.symm⟩)
    | none => rw [hc] at h; exact Or.inr (Or.inr ⟨op, rest, rfl, hc, h.symm⟩)

end Sys2Proof.Machine
end

