-- ==== Sys2Proof/Laws/Codec.lean ====
section
/-! SUPPORT. What the parts of the codecs can do, once for each: the renormalization, the state flush, the word pull, the byte flush and pull,
the bit-packer, the update of a decoder, and how a coding command ends. -/

namespace Sys2Proof.Machine

/-! ### Reference and fast codec -/

/-- The renormalization: below the threshold nothing happens, else one word leaves and `X` is shifted (41 R137). -/
theorem renormalize_ok {base f : Nat} {r r' : Run} (h : renormalize base f r = .ok r') :
    (r.work.x.toNat < xMax f ∧ r' = r)
      ∨ (xMax f ≤ r.work.x.toNat ∧ 4 ≤ r.work.wr.toNat - base
        ∧ r' = { work := { r.work with x := BitVec.ofNat 64 (r.work.x.toNat >>> 32), wr := BitVec.ofNat 33 (r.work.wr.toNat - 4) },
                 mem := r.mem.writeLE (r.work.wr.toNat - 4) 4 (low r.work.x.toNat 32) }) := by
  unfold renormalize at h
  simp only at h
  split at h
  · rename_i hx
    obtain ⟨a, ha, hb⟩ := (bind_eq_ok _ _ _).mp h
    obtain ⟨h4, rfl⟩ := emit_ok ha
    cases hb
    exact Or.inr ⟨hx, by omega, rfl⟩
  · rename_i hx
    cases h
    exact Or.inl ⟨by omega, rfl⟩

/-- The only error of the renormalization (60 R232). -/
theorem renormalize_error {base f : Nat} {r : Run} {e : ErrorCode} (h : renormalize base f r = .error e) :
    e = .bufferTooSmall ∧ xMax f ≤ r.work.x.toNat ∧ r.work.wr.toNat - base < 4 := by
  unfold renormalize at h
  simp only at h
  split at h
  · rename_i hx
    cases he : r.emit base 4 (low r.work.x.toNat 32) with
    | ok a => rw [he] at h; cases h
    | error e' => rw [he] at h; cases h; exact ⟨(emit_error he).1, hx, (emit_error he).2⟩
  · cases h

/-- What an encode step can do: the symbol has a frequency, and its update runs on the renormalized state (41 R136 to R138, 42 R167). -/
theorem encStep_ok {update : EncEntry → DWord → Nat} {s : State} {b : Byte} {r r' : Run} (h : encStep update s b r = .ok r') :
    (s.encOf b).freq ≠ 0 ∧ ∃ a, renormalize s.aBuf.toNat (s.encOf b).freq.toNat r = .ok a ∧ r' = a.setX (update (s.encOf b) a.work.x) := by
  unfold encStep at h
  simp only at h
  split at h
  · cases h
  · rename_i hf
    obtain ⟨a, ha, hb⟩ := (bind_eq_ok _ _ _).mp h
    cases hb
    exact ⟨hf, a, ha, rfl⟩

/-- The two errors of an encode step, in their order (60 R243). -/
theorem encStep_error {update : EncEntry → DWord → Nat} {s : State} {b : Byte} {r : Run} {e : ErrorCode} (h : encStep update s b r = .error e) :
    ((s.encOf b).freq = 0 ∧ e = .zeroFrequencySymbol)
      ∨ ((s.encOf b).freq ≠ 0 ∧ e = .bufferTooSmall ∧ renormalize s.aBuf.toNat (s.encOf b).freq.toNat r = .error e) := by
  unfold encStep at h
  simp only at h
  split at h
  · rename_i hf; cases h; exact Or.inl ⟨hf, rfl⟩
  · rename_i hf
    cases hr : renormalize s.aBuf.toNat (s.encOf b).freq.toNat r with
    | ok a => rw [hr] at h; cases h
    | error e' => rw [hr] at h; cases h; exact Or.inr ⟨hf, (renormalize_error hr).1, rfl⟩

/-- The state flush: 8 bytes, the low word at the lower address (41 R139). -/
theorem flushState_ok {base : Nat} {r r' : Run} (h : flushState base r = .ok r') :
    8 ≤ r.work.wr.toNat - base
      ∧ r' = { work := { r.work with wr := BitVec.ofNat 33 (r.work.wr.toNat - 8) },
               mem := (r.mem.writeLE (r.work.wr.toNat - 8) 4 (low r.work.x.toNat 32)).writeLE (r.work.wr.toNat - 8 + 4) 4 (r.work.x.toNat >>> 32) } := by
  unfold flushState at h
  simp only at h
  split at h
  · cases h
  · cases h; exact ⟨by omega, rfl⟩

/-- The only error of the state flush (60 R232). -/
theorem flushState_error {base : Nat} {r : Run} {e : ErrorCode} (h : flushState base r = .error e) :
    e = .bufferTooSmall ∧ r.work.wr.toNat - base < 8 := by
  unfold flushState at h
  simp only at h
  split at h
  · cases h; exact ⟨rfl, by assumption⟩
  · cases h

/-- The word pull: at `L` and above nothing happens, else the next word comes in (41 R144). -/
theorem pullWord_ok {tailEnd : Nat} {r r' : Run} (h : pullWord tailEnd r = .ok r') :
    (Config.lowerBound ≤ r.work.x.toNat ∧ r' = r)
      ∨ (r.work.x.toNat < Config.lowerBound ∧ 4 ≤ tailEnd - r.work.rd.toNat
        ∧ r' = { r with work := { r.work with
                  x := BitVec.ofNat 64 ((r.work.x.toNat <<< 32) + r.mem.readLE r.work.rd.toNat 4)
                  rd := BitVec.ofNat 33 (r.work.rd.toNat + 4) } }) := by
  unfold pullWord at h
  simp only at h
  split at h
  · rename_i hx
    split at h
    · cases h
    · cases h; exact Or.inr ⟨hx, by omega, rfl⟩
  · cases h; exact Or.inl ⟨by omega, rfl⟩

/-- The only error of the word pull (60 R233). -/
theorem pullWord_error {tailEnd : Nat} {r : Run} {e : ErrorCode} (h : pullWord tailEnd r = .error e) :
    e = .invalidLength ∧ r.work.x.toNat < Config.lowerBound ∧ tailEnd - r.work.rd.toNat < 4 := by
  unfold pullWord at h
  simp only at h
  split at h
  · rename_i hx
    split at h
    · cases h; exact ⟨rfl, hx, by assumption⟩
    · cases h
  · cases h

/-! ### Fixed-accuracy codec -/

/-- The bit-packer within its capacity: the new bits stand above the pending ones (43 R186, R188). -/
theorem emitBits_exact {v n : Nat} {r : Run} (hn : n ≤ 32) (hacc : r.work.acc.toNat < 2 ^ r.work.bitpos.toNat)
    (hcap : r.work.bitpos.toNat + n ≤ 64) :
    (emitBits v n r).work.acc.toNat = r.work.acc.toNat + low v n * 2 ^ r.work.bitpos.toNat
      ∧ (emitBits v n r).work.bitpos.toNat = r.work.bitpos.toNat + n := by
  have hlow : low v n < 2 ^ n := Nat.mod_lt _ (Nat.two_pow_pos _)
  have hor : r.work.acc.toNat ||| (low v n) <<< r.work.bitpos.toNat = r.work.acc.toNat + low v n * 2 ^ r.work.bitpos.toNat := by
    rw [Nat.or_comm, ← Nat.shiftLeft_add_eq_or_of_lt hacc, Nat.shiftLeft_eq, Nat.add_comm]
  have hlt : r.work.acc.toNat + low v n * 2 ^ r.work.bitpos.toNat < 2 ^ 64 := by
    have h1 : low v n * 2 ^ r.work.bitpos.toNat ≤ (2 ^ n - 1) * 2 ^ r.work.bitpos.toNat := Nat.mul_le_mul_right _ (by omega)
    have h2 : (2 ^ n - 1) * 2 ^ r.work.bitpos.toNat + 2 ^ r.work.bitpos.toNat = 2 ^ (r.work.bitpos.toNat + n) := by
      rw [Nat.sub_mul, Nat.one_mul, Nat.sub_add_cancel (Nat.le_mul_of_pos_left _ (Nat.two_pow_pos _)), ← Nat.pow_add, Nat.add_comm]
    have h3 : 2 ^ (r.work.bitpos.toNat + n) ≤ 2 ^ 64 := Nat.pow_le_pow_right (by decide) hcap
    omega
  constructor
  · show (BitVec.ofNat 64 (r.work.acc.toNat ||| ((v &&& bitmask n) <<< r.work.bitpos.toNat))).toNat = _
    rw [and_bitmask v hn, hor, BitVec.toNat_ofNat, Nat.mod_eq_of_lt hlt]
  · show (BitVec.ofNat 7 (r.work.bitpos.toNat + n)).toNat = _
    rw [BitVec.toNat_ofNat, Nat.mod_eq_of_lt (by omega)]

/-- One byte leaves the accumulator (43 R187). -/
theorem flushByte_ok {base : Nat} {r r' : Run} (h : flushByte base r = .ok r') :
    1 ≤ r.work.wr.toNat - base
      ∧ r' = { work := { r.work with
                 acc := r.work.acc >>> 8
                 bitpos := BitVec.ofNat 7 (r.work.bitpos.toNat - 8)
                 wr := BitVec.ofNat 33 (r.work.wr.toNat - 1) },
               mem := r.mem.writeLE (r.work.wr.toNat - 1) 1 (low r.work.acc.toNat 8) } := by
  unfold flushByte at h
  obtain ⟨a, ha, hb⟩ := (bind_eq_ok _ _ _).mp h
  obtain ⟨h1, rfl⟩ := emit_ok ha
  cases hb
  exact ⟨by omega, rfl⟩

/-- The only error of a flush (60 R232). -/
theorem flushBytes_error {base : Nat} {n : Nat} {r : Run} {e : ErrorCode} (h : flushBytes base n r = .error e) : e = .bufferTooSmall := by
  induction n generalizing r with
  | zero => cases h
  | succ n ih =>
    unfold flushBytes at h
    cases hf : flushByte base r with
    | ok a => rw [hf] at h; exact ih h
    | error e' =>
      rw [hf] at h
      cases h
      unfold flushByte at hf
      cases he : r.emit base 1 (low r.work.acc.toNat 8) with
      | ok a => rw [he] at hf; cases hf
      | error e'' => rw [he] at hf; cases hf; exact (emit_error he).1

/-- The step of `ENC.FA` has one error, its first test (43 R191). -/
theorem faEncStep_cases (s : State) (b : Byte) (r : Run) :
    ((s.encOf b).freq = 0 ∧ faEncStep s b r = .error .zeroFrequencySymbol)
      ∨ ((s.encOf b).freq ≠ 0 ∧ faEncStep s b r = .ok ((emitBits r.work.x.toNat (faShift (s.encOf b) r.work.x.toNat) r).setX
          (faFold (s.encOf b) (r.work.x.toNat >>> faShift (s.encOf b) r.work.x.toNat)))) := by
  unfold faEncStep
  by_cases h : (s.encOf b).freq = 0
  · exact Or.inl ⟨h, if_pos h⟩
  · exact Or.inr ⟨h, if_neg h⟩

/-- One byte comes into the reader (43 R198). -/
theorem pullByte_ok {tailEnd : Nat} {r r' : Run} (h : pullByte tailEnd r = .ok r') :
    r.work.rd.toNat < tailEnd
      ∧ r' = { r with work := { r.work with
                dacc := BitVec.ofNat 64 ((r.work.dacc.toNat <<< 8) + (r.mem.read r.work.rd.toNat).toNat)
                rd := BitVec.ofNat 33 (r.work.rd.toNat + 1)
                dbits := BitVec.ofNat 7 (r.work.dbits.toNat + 8) } } := by
  unfold pullByte at h
  simp only at h
  split at h
  · cases h
  · cases h; exact ⟨by omega, rfl⟩

/-- The only error of the reader (60 R233). -/
theorem pullBytes_error {tailEnd n : Nat} {r : Run} {e : ErrorCode} (h : pullBytes tailEnd n r = .error e) : e = .invalidLength := by
  induction n generalizing r with
  | zero => cases h
  | succ n ih =>
    unfold pullBytes at h
    cases hf : pullByte tailEnd r with
    | ok a => rw [hf] at h; exact ih h
    | error e' =>
      rw [hf] at h
      cases h
      unfold pullByte at hf
      simp only at hf
      split at hf <;> cases hf
      rfl

/-! ### The streams in plain terms -/

@[simp] theorem streamBytes_fa (s : State) (l : List Byte) : s.streamBytes .fa l = (s.faStream l).bits / 8 := rfl
@[simp] theorem streamBytes_ref (s : State) (l : List Byte) : s.streamBytes .ref l = 4 * (s.refStream l).2.length := rfl
@[simp] theorem streamBytes_fast (s : State) (l : List Byte) : s.streamBytes .fast l = 4 * (s.refStream l).2.length := rfl

/-- The update of a decode step is `decodedState`, narrowed to the 64 bits of `X` (41 R143). -/
theorem decodeSymbol_x (s : State) (i : Nat) (r : Run) :
    (s.decodeSymbol i r).work.x = BitVec.ofNat 64 (s.decodedState r.work.x.toNat) := by
  simp [State.decodeSymbol, State.decodedState, low, Nat.shiftRight_eq_div_pow, Config.scaleBits]

/-! ### The end of a coding command -/

/-- How `ENC.v` ends: with the run's memory and the bytes written, or with its error and the destination lost (30 R93, 60 R237). -/
theorem finishEncode_cases (s : State) (o : Except ErrorCode Run) :
    (∃ r, o = .ok r ∧ s.finishEncode o = { s with mem := r.mem }.complete .none (BitVec.ofNat 32 (s.bufEnd - r.work.wr.toNat)))
      ∨ ∃ e, o = .error e ∧ s.finishEncode o = s.loseDestination.raise e := by
  cases o with
  | ok r => exact Or.inl ⟨r, rfl, rfl⟩
  | error e => exact Or.inr ⟨e, rfl, rfl⟩

/-- How `DEC.v` ends (30 R93, 60 R237). -/
theorem finishDecode_cases (s : State) (o : Except ErrorCode Run) :
    (∃ r, o = .ok r ∧ s.finishDecode o = { s with mem := r.mem }.complete .none 0)
      ∨ ∃ e, o = .error e ∧ s.finishDecode o = s.loseDestination.raise e := by
  cases o with
  | ok r => exact Or.inl ⟨r, rfl, rfl⟩
  | error e => exact Or.inr ⟨e, rfl, rfl⟩

end Sys2Proof.Machine
end

