-- ==== Sys2Proof/Laws/PerInstr.lean ====
section
/-! SUPPORT. The family of statements about commands as syntax: every command is well formed, its word has a zero field, and its word decodes
to it (spec/30_encoding.md R90, R91, R94). -/

namespace Sys2Proof.Laws.Encoding

/-- The word of a well-formed command has `ZERO` = 0 and decodes to the command. -/
def Statement (i : Instr) : Prop := i.WellFormed = true ∧ zeroField (encode i) = 0 ∧ (decode (encode i)).toOption = some i

theorem ftCount : Statement .ftCount := ⟨rfl, by decide, by decide⟩
theorem ftNorm : Statement .ftNorm := ⟨rfl, by decide, by decide⟩
theorem tblRef : Statement .tblRef := ⟨rfl, by decide, by decide⟩
theorem tblFast : Statement .tblFast := ⟨rfl, by decide, by decide⟩
theorem tblFa : Statement .tblFa := ⟨rfl, by decide, by decide⟩
theorem initRef : Statement .initRef := ⟨rfl, by decide, by decide⟩
theorem initFast : Statement .initFast := ⟨rfl, by decide, by decide⟩
theorem initFa : Statement .initFa := ⟨rfl, by decide, by decide⟩
theorem encRef : Statement .encRef := ⟨rfl, by decide, by decide⟩
theorem encFast : Statement .encFast := ⟨rfl, by decide, by decide⟩
theorem encFa : Statement .encFa := ⟨rfl, by decide, by decide⟩
theorem decRef : Statement .decRef := ⟨rfl, by decide, by decide⟩
theorem decFast : Statement .decFast := ⟨rfl, by decide, by decide⟩
theorem decFa : Statement .decFa := ⟨rfl, by decide, by decide⟩

end Sys2Proof.Laws.Encoding
end

