-- ==== Sys2Proof/Tests/Slice0.lean ====
section
/-! SUPPORT. The model's own tests: what is ill formed is refused, words written out bit by bit decode, single steps against the vectors of
spec/95_test_vectors.md, and for each obligation with hypotheses a witness that meets them. -/

namespace Sys2Proof.Tests
open Sys2Proof Sys2Proof.Machine

-- Each test is checked before the next is read: many kernel evaluations at once would each hold a thread.
set_option Elab.async false

/-! ### Helpers -/

/-- A core right after reset with a buffer memory of 4096 bytes. -/
def core0 : State := State.resetWith 0xFFF

/-- One thing of the state an outcome goes on to. -/
def after {α : Type} (o : Host.Outcome State Fault Refusal) (f : State → α) : Option α :=
  match o with
  | .next s => some (f s)
  | .fault _ => none
  | .refused _ => none

theorem exists_of_after {α : Type} {o : Host.Outcome State Fault Refusal} {f : State → α} {a : α} (h : after o f = some a) :
    ∃ t, o = .next t ∧ f t = a := by
  cases o with
  | next s => exact ⟨s, rfl, by simpa [after] using h⟩
  | fault _ => simp [after] at h
  | refused _ => simp [after] at h

theorem exists_next {o : Host.Outcome State Fault Refusal} (h : after o (fun _ => true) = some true) : ∃ t, o = .next t :=
  let ⟨t, ht, _⟩ := exists_of_after h
  ⟨t, ht⟩

/-- The `n` bytes from `a`. -/
def bytesAt (t : State) (a n : Nat) : List Nat := (List.range n).map (fun j => (t.mem.read (a + j)).toNat)

/-- Buffer memory holding `bytes` from address 0 on. -/
def memOf (bytes : List Byte) : Memory := Memory.fill [] 0 bytes.length (fun i => bytes.getD i 0)

/-- The sequence of the spec's scenario (95 section 1). -/
def seq7 : List Byte := [0, 0, 0, 0, 1, 1, 2]

/-- A table memory that begins with `l` and goes on with `x`. -/
def padded {n : Nat} (l : List Word) (x : Word) (h : l.length ≤ n) : Vector Word n :=
  ⟨(l ++ List.replicate (n - l.length) x).toArray, by simp only [List.size_toArray, List.length_append, List.length_replicate]; omega⟩

/-- Raw counts of symbols 0, 1, ... and a total, ready for `FT.NORM`. -/
def counted (counts : List Word) (total : Word) (h : counts.length ≤ 256 := by decide) : State :=
  { core0 with freq := padded counts 0 h, sstate := .counted, ftTotal := total }

theorem wordAt_padded {n : Nat} (l : List Word) (h : l.length ≤ n) (i : Nat) : wordAt (padded l 0 h) i = (l.getD i 0).toNat := by
  by_cases hi : i < n
  · rw [wordAt_of_lt _ hi]
    simp only [padded, Vector.getElem_mk, List.getElem_toArray, List.getElem_append, List.getD_eq_getElem?_getD]
    split <;> simp_all
  · rw [wordAt_of_ge _ (by omega)]; simp [List.getElem?_eq_none (show l.length ≤ i by omega)]

theorem rawSum_padded (l : List Word) (h : l.length ≤ 256) (i : Nat) : rawSum (padded l 0 h) i = ((l.take i).map BitVec.toNat).sum := by
  induction i with
  | zero => rfl
  | succ i ih =>
    rw [rawSum, ih, wordAt_padded, List.take_add_one, List.map_append, List.sum_append]
    cases hl : l[i]? <;> simp [hl]

theorem normalizedCum_padded (t : Nat) (l : List Word) (h : l.length ≤ 256) : normalizedCum t (padded l 0 h)
    = repair (fun i => (l.getD i 0).toNat) (rescale t (fun i => ((l.take i).map BitVec.toNat).sum)) := by
  rw [normalizedCum, funext (wordAt_padded l h), funext (rawSum_padded l h)]

theorem execFtNorm_counted (l : List Word) (t : Word) (h : l.length ≤ 256) (ht : LegalTotal t) : execFtNorm (counted l t h)
    = .next (match repair (fun i => (l.getD i 0).toNat) (rescale t.toNat (fun i => ((l.take i).map BitVec.toNat).sum)) with
        | .ok cum => ((counted l t h).setStatistics cum).complete .none 0
        | .error e => (counted l t h).loseStatistics.raise e) := by
  rw [execFtNorm, withPrologue_runs (counted l t h) _ (decide_eq_true (show LegalTotal (counted l t h).ftTotal from ht)) (by rfl), State.ftNorm]
  exact congrArg Host.Outcome.next (by rw [← normalizedCum_padded t.toNat l h]; rfl)

theorem distinctSymbols_padded (l : List Word) (h : l.length ≤ 256) : distinctSymbols (padded l 0 h)
    = ((List.range 256).filter (fun i => decide ((l.getD i 0).toNat ≠ 0))).length := by
  simp only [distinctSymbols, wordAt_padded]

/-- Statistics T7 (95 section 3.2 row 2). -/
def stat7 : State :=
  { core0 with
    freq := tabulate 256 (fun i => [9362#32, 4681, 2341].getD i 0)
    cum := tabulate 257 (fun i => [0#32, 9362, 14043].getD i 16384)
    sstate := .normal }

/-- Table set T7 of a variant (95 section 4). -/
def tables7 (v : TVar) (g : EncEntry → Nat → Nat → EncEntry) : State := stat7.buildTables v g

/-- Statistics of the bytes 61 62 63 (95 section 9 row 5). -/
def statAbc : State :=
  { core0 with
    freq := tabulate 256 (fun i => if i = 0x61 then 5461 else if i = 0x62 then 5462 else if i = 0x63 then 5461 else 0)
    cum := tabulate 257 (fun i => if i ≤ 0x61 then 0 else if i = 0x62 then 5461 else if i = 0x63 then 10923 else 16384)
    sstate := .normal }

/-- `INV` of those statistics, written out so that the kernel finds an entry fast. -/
def invAbc : Vector Byte 16384 :=
  ⟨(List.replicate 5461 (0x61 : Byte) ++ (List.replicate 5462 (0x62 : Byte) ++ List.replicate 5461 (0x63 : Byte))).toArray, by
    simp only [List.size_toArray, List.length_append, List.length_replicate]⟩

/-- Their table set. -/
def tablesAbc (v : TVar) (g : EncEntry → Nat → Nat → EncEntry) : State := { statAbc.buildTables v g with inv := invAbc }

/-- A coding command's regions: `bytes` at 0 as the source, `n` bytes at 0x100 as the destination. -/
def regions (s : State) (bytes : List Byte) (n : Word) : State :=
  { s with mem := memOf bytes, aSrc := 0, nSrc := BitVec.ofNat 32 bytes.length, aBuf := 0x100, nBuf := n }

/-- A running coding command at coder state `x`, its write cursor at 0x200. -/
def runAt (x : DWord) : Run := { work := { Work.zero with x := x, wr := 0x200 }, mem := [] }

/-- An entry of frequency `f` and start `c`. -/
def entry (f c : Word) : EncEntry := { EncEntry.zero with freq := f, start := c }

/-- The fields of an `ENC` entry that `TBL.FAST` writes, in the order of 95 section 5. -/
def fieldsOf (e : EncEntry) : List Nat := [e.freq.toNat, e.start.toNat, e.cmplFreq.toNat, e.rcp.toNat, e.rcpShift.toNat, e.bias.toNat]

/-! ### Well-formedness: each check and an ill-formed term it refuses -/

theorem test_wellFormed_instr : (encode .ftCount).toNat = 0x10 ∧ Instr.ftCount.WellFormed = true := by decide
theorem test_illFormed_memRead : HostOp.WellFormed 4096 (.memRead 0x1000) = false ∧ HostOp.WellFormed 4096 (.memRead 0xFFF) = true := by decide
theorem test_illFormed_memWrite : HostOp.WellFormed 4096 (.memWrite 0x1000 1) = false := by decide
theorem test_illFormed_wrRegister : Line.WellFormed 4096 (.wr 16 0) = false := by decide
theorem test_illFormed_wrValue : Line.WellFormed 4096 (.wr 3 (2 ^ 32)) = false ∧ Line.WellFormed 4096 (.wr 15 (2 ^ 32 - 1)) = true := by decide +kernel
theorem test_illFormed_rdRegister : Line.WellFormed 4096 (.rd 16) = false := by decide
theorem test_illFormed_memAddress : Line.WellFormed 4096 (.mem 4095 [1, 2]) = false := by decide
theorem test_illFormed_memByte : Line.WellFormed 4096 (.mem 0 [256]) = false := by decide
theorem test_illFormed_dump : Line.WellFormed 4096 (.dump 4090 7) = false := by decide
theorem test_illFormed_srcAddress : Line.WellFormed 4096 (.src (2 ^ 32) 0) = false := by decide +kernel
theorem test_illFormed_srcLength : Line.WellFormed 4096 (.src 0 (2 ^ 32)) = false := by decide +kernel
theorem test_illFormed_bufAddress : Line.WellFormed 4096 (.buf (2 ^ 32) 0) = false := by decide +kernel
theorem test_illFormed_bufLength : Line.WellFormed 4096 (.buf 0 (2 ^ 32)) = false := by decide +kernel

/-! ### Decoding: `ZERO`, `OP`, `VAR` of each row of the opcode map, bit by bit (30 R90, R94; 95 section 2) -/

theorem test_decode_ftCount : decode (0#24 ++ 0b0001#4 ++ 0b0000#4) = .ok .ftCount := by decide
theorem test_decode_ftNorm : decode (0#24 ++ 0b0010#4 ++ 0b0000#4) = .ok .ftNorm := by decide
theorem test_decode_tblRef : decode (0#24 ++ 0b0011#4 ++ 0b0001#4) = .ok .tblRef := by decide
theorem test_decode_tblFast : decode (0#24 ++ 0b0011#4 ++ 0b0010#4) = .ok .tblFast := by decide
theorem test_decode_tblFa : decode (0#24 ++ 0b0011#4 ++ 0b0011#4) = .ok .tblFa := by decide
theorem test_decode_initRef : decode (0#24 ++ 0b0100#4 ++ 0b0001#4) = .ok .initRef := by decide
theorem test_decode_initFast : decode (0#24 ++ 0b0100#4 ++ 0b0010#4) = .ok .initFast := by decide
theorem test_decode_initFa : decode (0#24 ++ 0b0100#4 ++ 0b0011#4) = .ok .initFa := by decide
theorem test_decode_encRef : decode (0#24 ++ 0b0101#4 ++ 0b0001#4) = .ok .encRef := by decide
theorem test_decode_encFast : decode (0#24 ++ 0b0101#4 ++ 0b0010#4) = .ok .encFast := by decide
theorem test_decode_encFa : decode (0#24 ++ 0b0101#4 ++ 0b0011#4) = .ok .encFa := by decide
theorem test_decode_decRef : decode (0#24 ++ 0b0110#4 ++ 0b0001#4) = .ok .decRef := by decide
theorem test_decode_decFast : decode (0#24 ++ 0b0110#4 ++ 0b0010#4) = .ok .decFast := by decide
theorem test_decode_decFa : decode (0#24 ++ 0b0110#4 ++ 0b0011#4) = .ok .decFa := by decide

theorem test_decode_illegalOperation : [0x00000000#32, 0x00000001, 0x00000070, 0x00000071, 0x000000F1].map decode
    = List.replicate 5 (.error .noSuchOperation) := by decide
theorem test_decode_illegalVariant : [0x00000011#32, 0x00000021, 0x00000030, 0x00000034, 0x00000040, 0x00000050, 0x00000060, 0x0000005F].map decode
    = List.replicate 8 (.error .noSuchVariant) := by decide
theorem test_decode_illegalZeroField : [0x00000151#32, 0x80000010, 0xFFFFFFFF].map decode = List.replicate 3 (.error .zeroFieldNotZero) := by decide
theorem test_decodeTableWord : decodeTableWord 32 0x53 = some .encFa ∧ decodeTableWord 32 0x153 = none ∧ decodeTableWord 8 0x63 = some .decFa := by
  decide

/-! ### The frequency table builder (95 section 3) -/

theorem test_ftCount : after (execFtCount (regions core0 seq7 0)) (fun t => (t.err, t.sstate, (List.range 4).map (wordAt t.freq)))
    = some (.none, .counted, [4, 2, 1, 0]) := by decide +kernel

theorem test_ftCount_badRegion : after (execFtCount { core0 with nSrc := 0x1001 }) (fun t => (t.statusWord, t.result)) = some (0x72, 0) := by
  decide +kernel

theorem test_ftNorm_row19 : after (execFtNorm (counted [1, 30, 30, 1] 8)) (fun t => (t.sstate, (List.range 5).map (wordAt t.cum),
    (List.range 4).map (wordAt t.freq))) = some (.normal, [0, 1, 3, 7, 8], [1, 2, 4, 1]) := by
  rw [execFtNorm_counted _ _ _ (by decide +kernel)]; decide +kernel

theorem test_ftNorm_row11 : after (execFtNorm (counted [1, 1, 1] 2)) (fun t => t.statusWord) = some 0x32 := by
  rw [execFtNorm_counted _ _ _ (by decide +kernel)]; decide +kernel

theorem test_rescale_halfUp : (List.range 3).map (rescale 2 (rawSum (counted [1, 3] 2).freq)) = [0, 1, 2] := by
  simp only [counted, funext (rawSum_padded _ _)]; decide +kernel

/-! ### Tables (95 sections 4 to 6) -/

theorem test_tblRef : after (execTblRef stat7) (fun t =>
      ([0, 1, 2, 255].map (fun b => ((t.encOf b).freq.toNat, (t.decOf b).start.toNat)), t.tvar))
    = some ([(9362, 0), (4681, 9362), (2341, 14043), (0, 16384)], .ref) := by decide +kernel

theorem test_tblFast : after (execTblFast stat7) (fun t => [1, 3].map (fun b => fieldsOf (t.encOf b)))
    = some [[4681, 9362, 11703, 0xE001C0038007000F, 12, 9362], [0, 16384, 16384, 0xFFFFFFFFFFFFFFFF, 0, 32767]] := by decide +kernel

theorem test_tblFa : after (execTblFa stat7) (fun t => [0, 1, 2, 3].map (fun b => (t.encOf b).delta.toNat))
    = some [112352, 374496, 636608, 3932160] := by decide +kernel

theorem test_tbl_notReady : after (execTblRef core0) (fun t => t.statusWord) = some 0x82 := by decide +kernel

theorem test_faDelta : faDelta 16384 = 0xFFFE0000 ∧ faDelta 8193 = 0x0001FFF0 ∧ faDelta 16129 = 0x00000FF0 := by decide

theorem test_initRef : after (execInitRef (regions core0 seq7 0)) (fun t => (t.statusWord, (List.range 4).map (wordAt t.cum), (t.encOf 1).start.toNat))
    = some (0x1202, [0, 9362, 14043, 16384], 9362) := by decide +kernel

theorem test_initFast : after (execInitFast (regions core0 seq7 0)) (fun t => (t.tvar, (t.encOf 2).rcp.toNat, (t.encOf 2).rcpShift.toNat))
    = some (.fast, 0xDFF5807DFA1846DD, 11) := by decide +kernel

theorem test_initFa : after (execInitFa (regions core0 seq7 0)) (fun t => (t.tvar, (t.encOf 0).delta.toNat)) = some (.fa, 112352) := by
  decide +kernel

/-! ### The steps of the codecs (95 sections 5, 7, 8, 10) -/

theorem test_refUpdate : refUpdate (entry 2341 14043) 0x80000000 = 0x37FD63723 ∧ refUpdate (entry 3 5) 0x5FFFFFFFFFFFF = 0x7FFFFFFFFFFFC007 := by
  decide

theorem test_fastUpdate : fastUpdate (fastEntry (entry 2341 14043) 2341 14043) 0x80000000 = 0x37FD63723
    ∧ fastUpdate (fastEntry (entry 1 100) 1 100) 0x80000000 = 0x200000000064 := by decide

theorem test_renormalize : (renormalize 0x100 3 (runAt 0x6000000000001)).toOption.map (fun r => (r.work.x, r.work.wr, r.mem))
      = some (0x60000, 0x1FC, [(0x1FC, 1)])
    ∧ (renormalize 0x100 3 (runAt 0x5FFFFFFFFFFFF)).toOption = some (runAt 0x5FFFFFFFFFFFF) := by decide +kernel

theorem test_faShift : faShift { entry 3 7 with delta := faDelta 3 } 196607 = 12 ∧ faShift { entry 3 7 with delta := faDelta 3 } 196608 = 13
    ∧ faShift { entry 16384 0 with delta := faDelta 16384 } 262143 = 0 := by decide

theorem test_faFold : faFold (entry 3 7) 47 = 245769 ∧ faFold (entry 9362 0) 131072 = 229380 ∧ faFold (entry 2341 14043) 32768 = 229370 := by decide

theorem test_bitPacker : (flushBits 0x100 (emitBits 0x3FFF 14 (emitBits 0xFFFF 0 (emitBits 0x2A5 3 (runAt 0))))).toOption.map
    (fun r => (r.work.acc, r.work.bitpos, r.mem)) = some (1, 1, [(0x1FE, 0xFF), (0x1FF, 0xFD)]) := by decide +kernel

theorem test_readBits : (do
      let (_, r) ← readBits 3 3 { runAt 0 with mem := memOf [0xA5, 0x5A, 0xC3] }
      let (_, r) ← readBits 3 5 r
      let (v, r) ← readBits 3 14 r
      return (v, r.work.dacc, r.work.dbits)).toOption = some (5808, 3, 2) := by decide +kernel

/-! ### Whole coding commands (95 sections 9, 11) -/

theorem test_encRef : after (execEncRef (regions (tables7 .ref refEntry) seq7 24)) (fun t => (t.err, t.result.toNat, bytesAt t 0x110 8))
    = some (.none, 8, [0x8A, 0x11, 0xFD, 0x1E, 0x92, 0x01, 0, 0]) := by decide +kernel

theorem test_encRef_bufferTooSmall : after (execEncRef (regions (tables7 .ref refEntry) seq7 7)) (fun t => (t.err, t.result))
    = some (.bufferTooSmall, 0) := by decide +kernel

theorem test_encFast : after (execEncFast (regions (tables7 .fast fastEntry) seq7 24)) (fun t => (t.err, t.result.toNat, bytesAt t 0x110 8))
    = some (.none, 8, [0x8A, 0x11, 0xFD, 0x1E, 0x92, 0x01, 0, 0]) := by decide +kernel

theorem test_encFast_zeroFrequency : after (execEncFast (regions (tables7 .fast fastEntry) [0, 3] 24)) (fun t => (t.err, t.result))
    = some (.zeroFrequencySymbol, 0) := by decide +kernel

theorem test_encFa : after (execEncFa (regions (tables7 .fa faEntry) seq7 24)) (fun t => (t.err, t.result.toNat, bytesAt t 0x113 5))
    = some (.none, 5, [0x00, 0x06, 0x30, 0x58, 0x08]) := by decide +kernel

theorem test_encFa_bufferTooSmall : after (execEncFa (regions (tables7 .fa faEntry) seq7 4)) (fun t => (t.err, t.result))
    = some (.bufferTooSmall, 0) := by decide +kernel

theorem test_decRef : after (execDecRef (regions (tablesAbc .ref refEntry) [0x39, 0xC0, 0x01, 0x80, 0x0D, 0x00, 0, 0] 2))
    (fun t => (t.err, bytesAt t 0x100 3)) = some (.none, [0x61, 0x62, 0]) := by decide +kernel

theorem test_decFast : after (execDecFast (regions (tablesAbc .fast fastEntry) [0x39, 0xC0, 0x01, 0x80, 0x0D, 0x00, 0, 0] 1))
    (fun t => (t.err, bytesAt t 0x100 2)) = some (.none, [0x61, 0]) := by decide +kernel

theorem test_decFast_invalidLength : after (execDecFast (regions (tablesAbc .ref refEntry) [0x39, 0xC0, 0x01, 0x80, 0x0D, 0x00, 0] 1))
    (fun t => (t.err, t.result)) = some (.invalidLength, 0) := by decide +kernel

theorem test_decFa : after (execDecFa (regions (tablesAbc .fa faEntry) [0x00, 0x38, 0x55, 0x76] 2)) (fun t => (t.err, bytesAt t 0x100 3))
    = some (.none, [0x61, 0x62, 0]) := by decide +kernel

theorem test_decFa_malformed : after (execDecFa (regions (tablesAbc .fa faEntry) [0x00, 0x01, 0xFF, 0xFF] 1)) (fun t => (t.err, t.result))
    = some (.malformedStream, 0) := by decide +kernel

/-! ### Host operations (30 R98 to R105) -/

theorem test_script : scriptOps [.src 0 7, .command .initRef, .rd 1, .mem 5 [1, 2]]
    = [.regWrite 3 0, .regWrite 4 7, .regWrite 0 0x41, .regRead 1, .memWrite 5 1, .memWrite 6 2] := by decide

theorem test_statusIgnoresWrites : after (step { core0 with script := [.regWrite 1 0xFFFF, .reset] }) (fun t => (t.statusWord, t.script))
    = some (0, [.reset]) := by decide +kernel

theorem test_reset : after (step { core0 with script := [.reset], ftTotal := 8, mem := [(4, 9)], sstate := .normal, err := .notReady })
    (fun t => (t.ftTotal, t.mem, t.statusWord)) = some (16384, [(4, 9)], 0) := by decide +kernel

theorem test_tdata : after (step { stat7 with taddr := 0x200, script := [.regRead 9] }) (fun t => t.reads) = some [16384] := by decide +kernel

theorem test_hostMemRead : after (step { core0 with script := [.memRead 0xFFF], mem := [(0xFFF, 0x5A)] }) (fun t => t.reads) = some [0x5A] := by
  decide +kernel

theorem test_placedWord : after (step (State.reset.withFetchWord 32 0x31)) (fun t => (t.cmd, t.err)) = some (0x31, .notReady) := by
  decide +kernel

/-! ### Witnesses: a state and operands that meet the hypotheses of each obligation that has any -/

/-- T7 is valid for each variant. -/
theorem stat7_steps : ∀ i < 256, wordAt stat7.cum (i + 1) = wordAt stat7.cum i + wordAt stat7.freq i := by
  intro i hi
  simp only [stat7]
  rw [wordAt_tabulate _ _ (by omega), wordAt_tabulate _ _ (by omega), wordAt_tabulate _ _ (by omega)]
  match i with
  | 0 => rfl
  | 1 => rfl
  | 2 => rfl
  | i + 3 => simp

theorem stat7_ends : wordAt stat7.cum 0 = 0 ∧ wordAt stat7.cum 256 = 16384 := by decide +kernel
theorem stat7_ok : stat7.sstate = .normal ∧ wordAt stat7.cum 256 = 16384 ∧ stat7.StatisticsOk :=
  ⟨rfl, stat7_ends.2, fun _ => ⟨stat7_ends.1, stat7_steps, 14, by decide, stat7_ends.2⟩⟩

theorem tables7_intervals (v : TVar) (g : EncEntry → Nat → Nat → EncEntry)
    (hg : ∀ e f c, (g e f c).freq = e.freq ∧ (g e f c).start = e.start) : (tables7 v g).IntervalsOk :=
  intervalsOk_buildTables stat7 v g hg stat7_ends.1 stat7_steps stat7_ends.2

theorem tables7_ref : (tables7 .ref refEntry).TablesOk := tablesOk_buildTables_ref stat7 (tables7_intervals _ _ (fun _ _ _ => ⟨rfl, rfl⟩))
theorem tables7_fast : (tables7 .fast fastEntry).TablesOk := tablesOk_buildTables_fast stat7 (tables7_intervals _ _ (fun e f c => ⟨fastEntry_freq e f c, fastEntry_start e f c⟩))
theorem tables7_fa : (tables7 .fa faEntry).TablesOk := tablesOk_buildTables_fa stat7 (tables7_intervals _ _ (fun e f c => ⟨faEntry_freq e f c, faEntry_start e f c⟩))

/-- The scenario's state for an encoder: T7, the sequence, a buffer of 2n + 10 bytes. -/
def ready (s : State) : State := regions s seq7 24

theorem ready_ref : (ready (tables7 .ref refEntry)).tvar = .ref ∧ (ready (tables7 .ref refEntry)).TablesOk := ⟨rfl, tables7_ref⟩
theorem ready_fast : (ready (tables7 .fast fastEntry)).tvar = .fast ∧ (ready (tables7 .fast fastEntry)).TablesOk := ⟨rfl, tables7_fast⟩
theorem ready_fa : (ready (tables7 .fa faEntry)).tvar = .fa ∧ (ready (tables7 .fa faEntry)).TablesOk := ⟨rfl, tables7_fa⟩

theorem witness_DecodeOfEncode : Instr.decFa.WellFormed = true := rfl

theorem witness_IllegalWordChangesNothingElse : ∀ i, (0x151 : Word) ≠ encode i := by intro i; cases i <;> decide

theorem witness_StepRunsDecodedCommand : let s := { core0 with script := [.regWrite 0 0x10] }
    s.script = .regWrite 0 0x10 :: [] ∧ (0 : BitVec 4) = 0 ∧ decode 0x10 = .ok .ftCount := ⟨rfl, rfl, by decide⟩

/-- Both branches of `StepStopsOnlyOutsideMemory` occur. -/
theorem witness_StepStopsOnlyOutsideMemory :
    step { core0 with script := [.memRead 0x1000] } = .fault (.hostAddressOutsideMemory 0x1000)
      ∧ step { core0 with script := [.memWrite 0x1000 1] } = .fault (.hostAddressOutsideMemory 0x1000) ∧ step core0 = .next core0 :=
  ⟨rfl, rfl, rfl⟩

theorem witness_RegReadReturnsTheRegister : ∀ i ∈ [0#4, 8, 10, 15],
    let s := { core0 with script := [.regRead i] }
    s.script = .regRead i :: [] ∧ i ≠ 9 := by decide +kernel

theorem witness_RegWriteStoresOrRuns : ∀ i ∈ [0#4, 1, 3, 8, 9, 15],
    let s := { core0 with script := [.regWrite i 0xFFFFFFFF] }
    s.script = .regWrite i 0xFFFFFFFF :: [] := by decide +kernel

/-- The last entry of each part of the table space, with the tables that make it valid. -/
theorem witness_TdataReadsTheTableSpace :
    (let s := { stat7 with taddr := 0xFF, script := [.regRead 9] };
      s.script = .regRead 9 :: [] ∧ s.taddr.toNat = 255 ∧ s.sstate ≠ .invalid)
    ∧ (let s := { stat7 with taddr := 0x200 };
      s.taddr.toNat = 0x100 + 256 ∧ s.sstate = .normal)
    ∧ (let s := { tables7 .ref refEntry with taddr := 0xDFF };
      s.tvar ≠ .none ∧ s.taddr.toNat = 0xD00 + (255#8).toNat)
    ∧ (let s := { tables7 .fast fastEntry with taddr := 0xAFF };
      s.tvar = .fast ∧ s.taddr.toNat = 0xA00 + (255#8).toNat)
    ∧ (let s := { tables7 .fa faEntry with taddr := 0xBFF };
      s.tvar = .fa ∧ s.taddr.toNat = 0xB00 + (255#8).toNat)
    ∧ (let s := { tables7 .ref refEntry with taddr := 0x7FFF };
      s.tvar ≠ .none ∧ s.taddr.toNat = 0x4000 + 16383) := by
  refine ⟨⟨rfl, rfl, nofun⟩, ⟨rfl, rfl⟩, ⟨nofun, rfl⟩, ⟨rfl, rfl⟩, ⟨rfl, rfl⟩, ⟨nofun, rfl⟩⟩

theorem witness_HostMemoryAccess :
    (let s := { core0 with script := [.memWrite 0xFFF 1] };
      s.script = .memWrite 0xFFF 1 :: [] ∧ (0xFFF#32).toNat < s.memSize)
    ∧ (let s := { core0 with script := [.memRead 0xFFF] };
      s.script = .memRead 0xFFF :: [] ∧ (0xFFF#32).toNat < s.memSize) := by decide +kernel

theorem witness_ResetOperationValues : let s := { core0 with script := [.reset] }
    s.script = .reset :: [] := rfl

theorem witness_FreshCoreRefusesTableReaders : ∀ i ∈ [Instr.ftNorm, .tblRef, .tblFast, .tblFa, .encRef, .encFast, .encFa, .decRef, .decFast, .decFa],
    i ∉ [Instr.ftCount, .initRef, .initFast, .initFa] := by decide

theorem witness_OnlyCommandsAndResetChangeFlags :
    (∃ t, step { core0 with script := [.reset] } = .next t)
    ∧ (∃ t, step { core0 with script := [.regWrite 7 8] } = .next t) ∧ HostOp.regWrite 7 8 ≠ .reset ∧ (∀ w, HostOp.regWrite 7 8 ≠ .regWrite 0 w)
    ∧ core0.script = [] :=
  ⟨exists_next (by decide +kernel), exists_next (by decide +kernel), nofun, nofun, rfl⟩

theorem witness_WordsAreLittleEndian : 2 ^ 32 - 1 < 2 ^ 32 ∧ 2 ^ 8 - 1 < 2 ^ 8 := by decide

/-- Each way an operand is illegal: a source region one byte too long, such a destination, an overlap of one byte, a total that is no power
of two or too large. -/
theorem witness_BadOperandComesFirst :
    ¬ operandsLegal { core0 with aSrc := 0xFFF, nSrc := 2 } .ftCount
    ∧ ¬ operandsLegal { core0 with aBuf := 0x1000, nBuf := 1 } .encRef
    ∧ ¬ operandsLegal { core0 with nSrc := 9, aBuf := 8, nBuf := 8 } .decFa
    ∧ ¬ operandsLegal { core0 with ftTotal := 0 } .ftNorm
    ∧ ¬ operandsLegal { core0 with ftTotal := 32768 } .ftNorm
    ∧ operandsLegal { core0 with ftTotal := 1 } .ftNorm := by
  simp only [operandsLegal]; decide +kernel

theorem witness_NotReadyComesSecond :
    (operandsLegal core0 .ftNorm ∧ ¬ needsMet core0 .ftNorm)
    ∧ (operandsLegal core0 .tblFa ∧ ¬ needsMet core0 .tblFa)
    ∧ (operandsLegal core0 .encRef ∧ ¬ needsMet core0 .encRef)
    ∧ (operandsLegal { core0 with tvar := .fa } .decRef ∧ ¬ needsMet { core0 with tvar := .fa } .decRef)
    ∧ (operandsLegal { core0 with tvar := .fast } .decFa ∧ ¬ needsMet { core0 with tvar := .fast } .decFa)
    ∧ (operandsLegal { core0 with tvar := .fast } .decRef ∧ needsMet { core0 with tvar := .fast } .decRef) := by
  simp only [operandsLegal, needsMet]; decide +kernel

theorem witness_FrameOfEveryCommand :
    (∃ t, exec .encRef core0 = .next t) ∧ writesMemory .encRef = true ∧ (∃ t, exec .initFa core0 = .next t) ∧ writesMemory .initFa = false
    ∧ (∃ t, exec .ftNorm core0 = .next t) ∧ Instr.ftNorm ∈ [Instr.ftCount, .ftNorm]
    ∧ (∃ t, exec .tblFa core0 = .next t) ∧ Instr.tblFa ∈ [Instr.tblRef, .tblFast, .tblFa] :=
  ⟨exists_next (by decide +kernel), rfl, exists_next (by decide +kernel), rfl, exists_next (by decide +kernel), by decide, exists_next (by decide +kernel), by decide⟩

/-- Its clause about an encoder without error, with a buffer of exactly the stream's length, below 2n + 10. -/
theorem witness_FrameOfEveryCommand_encoder : Instr.encRef ∈ [Instr.encRef, .encFast, .encFa]
    ∧ ∃ t, exec .encRef (regions (tables7 .ref refEntry) seq7 8) = .next t ∧ t.err = .none :=
  ⟨by decide, exists_of_after (f := fun t => t.err) (by decide +kernel)⟩

/-- The longest source region of a memory of 4096 bytes, and the empty one at its end. -/
theorem witness_CountGivesOccurrences : State.SourceOk { core0 with nSrc := 0x1000 } ∧ State.SourceOk { core0 with aSrc := 0x1000 } := by
  decide +kernel

/-- The smallest total that suffices, and the largest. -/
theorem witness_NormalizeGivesValidStatistics :
    (LegalTotal (counted [1, 1] 2).ftTotal ∧ (counted [1, 1] 2).sstate = .counted
      ∧ distinctSymbols (counted [1, 1] 2).freq ≤ (counted [1, 1] 2).ftTotal.toNat)
    ∧ (LegalTotal (counted [40000, 1] 16384).ftTotal ∧ (counted [40000, 1] 16384).sstate = .counted
      ∧ distinctSymbols (counted [40000, 1] 16384).freq ≤ (counted [40000, 1] 16384).ftTotal.toNat
      ∧ rawSum (counted [40000, 1] 16384).freq 256 ≠ 0) := by
  simp only [counted, distinctSymbols_padded, rawSum_padded]; decide +kernel

theorem witness_NormalizeRoundsHalfUp : let s := counted [1, 3] 2
    LegalTotal s.ftTotal ∧ s.sstate = .counted ∧ 0 < rawSum s.freq 256 ∧ ∀ i < 256, wordAt s.freq i ≠ 0 →
      (2 * s.ftTotal.toNat * rawSum s.freq i + rawSum s.freq 256) / (2 * rawSum s.freq 256)
        < (2 * s.ftTotal.toNat * rawSum s.freq (i + 1) + rawSum s.freq 256) / (2 * rawSum s.freq 256) := by
  simp only [counted, rawSum_padded, wordAt_padded]; decide +kernel

/-- Exactly one present symbol is rounded to frequency 0, and the total suffices. -/
theorem witness_NormalizeRoundsHalfUp_oneShift : let s := counted [3, 1] 2
    let c := fun i => (2 * s.ftTotal.toNat * rawSum s.freq i + rawSum s.freq 256) / (2 * rawSum s.freq 256)
    LegalTotal s.ftTotal ∧ s.sstate = .counted ∧ 0 < rawSum s.freq 256 ∧ wordAt s.freq 1 ≠ 0 ∧ c 2 = c 1
      ∧ (∀ j < 256, j ≠ 1 → wordAt s.freq j ≠ 0 → c j < c (j + 1)) ∧ distinctSymbols s.freq ≤ s.ftTotal.toNat := by
  simp only [counted, rawSum_padded, wordAt_padded, distinctSymbols_padded]; decide +kernel

theorem witness_NormalizeEmptySequence : let s := counted [] 1
    LegalTotal s.ftTotal ∧ s.sstate = .counted ∧ ∀ i < 256, wordAt s.freq i = 0 := by
  simp only [counted, wordAt_padded]; decide +kernel

theorem witness_NormalizeSingleSymbol : let s := counted [0, 5] 16384
    LegalTotal s.ftTotal ∧ s.sstate = .counted ∧ 1 < 256 ∧ wordAt s.freq 1 ≠ 0 ∧ ∀ i < 256, i ≠ 1 → wordAt s.freq i = 0 := by
  simp only [counted, wordAt_padded]; decide +kernel

/-- One total below the number of symbols and one equal to it. -/
theorem witness_DegenerateWhenTooManySymbols :
    (LegalTotal (counted [1, 1] 1).ftTotal ∧ (counted [1, 1] 1).sstate = .counted ∧ (counted [1, 1] 1).ftTotal.toNat < distinctSymbols (counted [1, 1] 1).freq)
    ∧ (LegalTotal (counted [5] 1).ftTotal ∧ (counted [5] 1).sstate = .counted ∧ ¬ (counted [5] 1).ftTotal.toNat < distinctSymbols (counted [5] 1).freq) := by
  simp only [counted, distinctSymbols_padded]; decide +kernel

/-- The donor below the recipient (95 section 3.2 row 5) and above it (row 9). -/
theorem witness_ShiftMovesOneUnit :
    (let cum := fun j : Nat => if j = 0 then 0 else 2;
      (∀ j < 256, cum j ≤ cum (j + 1)) ∧ 1 < gap cum 0 ∧ gap cum 255 = 0)
    ∧ (let cum := fun j : Nat => if j < 256 then 0 else 8;
      (∀ j < 256, cum j ≤ cum (j + 1)) ∧ 1 < gap cum 255 ∧ gap cum 0 = 0) := by decide +kernel

theorem witness_TblRefCopiesStatistics : stat7.sstate = .normal ∧ wordAt stat7.cum 256 = 16384 := ⟨rfl, stat7_ends.2⟩

theorem witness_TblFastComputesReciprocals : stat7.sstate = .normal ∧ wordAt stat7.cum 256 = 16384 ∧ stat7.StatisticsOk
    ∧ wordAt stat7.freq (3#8).toNat < 2 ∧ 2 ≤ wordAt stat7.freq (0#8).toNat :=
  ⟨rfl, stat7_ok.2.1, stat7_ok.2.2, by decide +kernel, by decide +kernel⟩

theorem witness_TblFaComputesDeltas : stat7.sstate = .normal ∧ wordAt stat7.cum 256 = 16384 ∧ stat7.StatisticsOk := stat7_ok

theorem witness_SlotsNameTheirSymbol : Instr.tblFa ∈ [Instr.tblRef, .tblFast, .tblFa] ∧ stat7.sstate = .normal ∧ wordAt stat7.cum 256 = 16384
    ∧ stat7.StatisticsOk ∧ (∃ t, exec .tblFa stat7 = .next t) ∧ wordAt stat7.cum (2#8).toNat ≤ 16383 ∧ 16383 < wordAt stat7.cum ((2#8).toNat + 1) :=
  ⟨by decide, rfl, stat7_ok.2.1, stat7_ok.2.2,
    exists_next (by decide +kernel), by decide +kernel, by decide +kernel⟩

theorem witness_InitBuildsValidTables : (Instr.initFa, TVar.fa) ∈ [(Instr.initRef, TVar.ref), (.initFast, .fast), (.initFa, .fa)]
    ∧ State.SourceOk (regions core0 seq7 0) := by decide +kernel

theorem witness_InitEqualsTheChain :
    (Instr.initFast, Instr.tblFast, TVar.fast) ∈ [(Instr.initRef, Instr.tblRef, TVar.ref), (.initFast, .tblFast, .fast), (.initFa, .tblFa, .fa)]
    ∧ State.SourceOk (regions core0 seq7 0) := by decide +kernel

/-- The same bytes at two places, after different histories. -/
theorem witness_InitDependsOnlyOnTheBytes :
    (Instr.initRef, TVar.ref) ∈ [(Instr.initRef, TVar.ref), (.initFast, .fast), (.initFa, .fa)]
    ∧ State.SourceOk { core0 with nSrc := 2, mem := [(1, 5)] } ∧ State.SourceOk { stat7 with aSrc := 0x10, nSrc := 2, mem := [(0x11, 5)] }
    ∧ State.sourceBytes { core0 with nSrc := 2, mem := [(1, 5)] } = State.sourceBytes { stat7 with aSrc := 0x10, nSrc := 2, mem := [(0x11, 5)] }
    ∧ (∃ t, exec .initRef { core0 with nSrc := 2, mem := [(1, 5)] } = .next t)
    ∧ ∃ t, exec .initRef { stat7 with aSrc := 0x10, nSrc := 2, mem := [(0x11, 5)] } = .next t :=
  ⟨by decide, by decide +kernel, by decide +kernel, by decide +kernel,
    exists_next (by decide +kernel), exists_next (by decide +kernel)⟩

theorem witness_ReciprocalDividesExactly : ∀ f ∈ [2, 16384], 2 ≤ f ∧ f ≤ 16384 ∧ (0x7FFFFFFFFFFFFFFF#64).toNat < 2 ^ 63 := by decide

theorem witness_FastUpdateIsRefUpdate :
    ((entry 1 16383).freq.toNat = 1 ∧ (entry 1 16383).start.toNat = 16383 ∧ 1 ≤ 1 ∧ 16383 + 1 ≤ 16384 ∧ 1 ≤ (0x1FFFFFFFFFFFF#64).toNat
      ∧ (0x1FFFFFFFFFFFF#64).toNat < 2 ^ 49 * 1)
    ∧ ((entry 16384 0).freq.toNat = 16384 ∧ (entry 16384 0).start.toNat = 0 ∧ 1 ≤ 16384 ∧ 0 + 16384 ≤ 16384
      ∧ 1 ≤ (0x7FFFFFFFFFFFFFFF#64).toNat ∧ (0x7FFFFFFFFFFFFFFF#64).toNat < 2 ^ 49 * 16384) := by decide

/-- A step that renormalizes and one that does not. -/
theorem witness_EncodeStepKeepsStateRange :
    ((tables7 .ref refEntry).encOf 2).start.toNat + ((tables7 .ref refEntry).encOf 2).freq.toNat ≤ 2 ^ 14
    ∧ (2 ^ 31 ≤ (runAt 0x80000000).work.x.toNat ∧ (runAt 0x80000000).work.x.toNat < 2 ^ 63
      ∧ (encStep refUpdate (tables7 .ref refEntry) 2 (runAt 0x80000000)).isOk = true)
    ∧ 2 ^ 31 ≤ (runAt 0x7FFFFFFFFFFFFFFF).work.x.toNat ∧ (runAt 0x7FFFFFFFFFFFFFFF).work.x.toNat < 2 ^ 63
      ∧ (encStep refUpdate (tables7 .ref refEntry) 2 (runAt 0x7FFFFFFFFFFFFFFF)).isOk = true := by decide +kernel

theorem witness_DecodeStepNeverWraps : (tables7 .ref refEntry).IntervalsOk ∧ (runAt 0xFFFFFFFFFFFFFFFF).work.x = 0xFFFFFFFFFFFFFFFF :=
  ⟨tables7_intervals _ _ (fun _ _ _ => ⟨rfl, rfl⟩), rfl⟩

theorem witness_RefUpdateIsInvertible : ∀ e ∈ [entry 1 16383, entry 16384 0], 1 ≤ e.freq.toNat ∧ e.start.toNat + e.freq.toNat ≤ 2 ^ 14 := by decide

/-- Both ends of the state range, and both sides of `theta` for f = 3 (95 section 8). -/
theorem witness_FaShiftReachesItsInterval : ∀ p ∈ [(1, 131072), (16384, 262143), (3, 196607), (3, 196608)],
    1 ≤ p.1 ∧ p.1 ≤ 2 ^ 14 ∧ 2 ^ 17 ≤ p.2 ∧ p.2 < 2 ^ 18 ∧ (faEntry (entry 0 0) p.1 0).delta = faDelta p.1 := by decide

theorem witness_FaFoldIsDivision : ∀ p ∈ [(entry 1 16383, 8), (entry 1 16383, 15), (entry 16384 0, 262143)],
    1 ≤ p.1.freq.toNat ∧ p.1.start.toNat + p.1.freq.toNat ≤ 2 ^ 14 ∧ 8 * p.1.freq.toNat ≤ p.2 ∧ p.2 < 16 * p.1.freq.toNat := by decide

/-- A full accumulator. -/
def fullAcc : Run := { work := { Work.zero with acc := 0xFFFFFFFFFFFFFFFF, bitpos := 64, wr := 0x200 }, mem := [] }

/-- The most bits an emission can bring, onto the most that leave room for them. -/
theorem witness_FlushLeavesAtMostSevenBits_emit : let r : Run := { work := { Work.zero with acc := 0xFFFFFFFF, bitpos := 32 }, mem := [] }
    32 ≤ 32 ∧ r.work.acc.toNat < 2 ^ r.work.bitpos.toNat ∧ r.work.bitpos.toNat + 32 ≤ 64 := by decide

theorem witness_FlushLeavesAtMostSevenBits : fullAcc.work.bitpos.toNat ≤ 64 ∧ fullAcc.work.acc.toNat < 2 ^ fullAcc.work.bitpos.toNat
    ∧ (flushBits 0x100 fullAcc).isOk = true := by decide +kernel

/-- The largest state and the most bits left that `read_state` gives. -/
def faRun : Run := { work := { Work.zero with x := 0x3FFFF, dacc := 127, dbits := 7 }, mem := [] }

theorem witness_FaDecoderStateStaysInRange : (regions (tables7 .fa faEntry) [0x01, 0xFF, 0xFF, 0xFF] 1).IntervalsOk
    ∧ (regions (tables7 .fa faEntry) [0x01, 0xFF, 0xFF, 0xFF] 1).readState.isOk = true
    ∧ 2 ^ 17 ≤ faRun.work.x.toNat ∧ faRun.work.x.toNat < 2 ^ 18 ∧ faRun.work.dacc.toNat < 2 ^ faRun.work.dbits.toNat ∧ faRun.work.dbits.toNat ≤ 7
    ∧ (faDecStep (regions (tables7 .fa faEntry) [0x01, 0xFF, 0xFF, 0xFF] 1) 0 faRun).isOk = true := by
  have h : (regions (tables7 .fa faEntry) [0x01, 0xFF, 0xFF, 0xFF] 1).invOf faRun.work.x.toNat = 2 :=
    invOf_buildTables stat7 .fa faEntry (fun i hi => by rw [stat7_steps i hi]; omega) 16383 (by decide) 2 (by decide +kernel)
  refine ⟨tables7_intervals .fa faEntry (fun e f c => ⟨faEntry_freq e f c, faEntry_start e f c⟩), by decide +kernel, by decide, by decide, by decide, by decide, ?_⟩
  rw [faDecStep, State.decodeSymbol, h]; decide +kernel

/-- `read_bits(14)` with 7 bits left: one byte is missing, and the tail ends before it or after it; with 0 bits two are. -/
theorem witness_FaDecoderStateStaysInRange_readBits :
    (0 ≤ 2 ^ 32 ∧ 14 ≤ 14 ∧ faRun.work.dbits.toNat ≤ 7 ∧ faRun.work.dacc.toNat < 2 ^ faRun.work.dbits.toNat
      ∧ 0 < (14 - faRun.work.dbits.toNat + 7) / 8 ∧ 0 < faRun.work.rd.toNat + (14 - faRun.work.dbits.toNat + 7) / 8)
    ∧ ¬ (1 < faRun.work.rd.toNat + (14 - faRun.work.dbits.toNat + 7) / 8)
    ∧ (runAt 0).work.dbits.toNat ≤ 7 ∧ (runAt 0).work.dacc.toNat < 2 ^ (runAt 0).work.dbits.toNat
    ∧ ¬ (2 ^ 32 < (runAt 0).work.rd.toNat + (14 - (runAt 0).work.dbits.toNat + 7) / 8) := by decide

/-- `SymbolsCoded` as a test. -/
def allCoded (s : State) : Bool := s.sourceBytes.all (fun b => decide (s.symFreq b ≠ 0))

theorem allCoded_iff (s : State) : allCoded s = true ↔ s.SymbolsCoded := by simp [allCoded, State.SymbolsCoded]

/-- Premises of the encoders that the kernel decides. -/
theorem ready_premises : ∀ s ∈ [ready (tables7 .ref refEntry), ready (tables7 .fast fastEntry), ready (tables7 .fa faEntry)],
    s.RegionsOk ∧ s.SymbolsCoded ∧ s.BufferLargeEnough := by
  have h : ∀ s ∈ [ready (tables7 .ref refEntry), ready (tables7 .fast fastEntry), ready (tables7 .fa faEntry)],
      s.RegionsOk ∧ allCoded s = true ∧ 2 * s.nSrc.toNat + 10 ≤ s.nBuf.toNat := by decide +kernel
  exact fun s hs => ⟨(h s hs).1, (allCoded_iff s).mp (h s hs).2.1, (h s hs).2.2⟩

theorem witness_EncRefAndFastComplete :
    ((ready (tables7 .ref refEntry)).tvar = .ref ∧ (ready (tables7 .ref refEntry)).TablesOk ∧ (ready (tables7 .ref refEntry)).RegionsOk
      ∧ (ready (tables7 .ref refEntry)).SymbolsCoded ∧ (ready (tables7 .ref refEntry)).BufferLargeEnough)
    ∧ ((ready (tables7 .fast fastEntry)).tvar = .fast ∧ (ready (tables7 .fast fastEntry)).TablesOk ∧ (ready (tables7 .fast fastEntry)).RegionsOk
      ∧ (ready (tables7 .fast fastEntry)).SymbolsCoded ∧ (ready (tables7 .fast fastEntry)).BufferLargeEnough) :=
  ⟨⟨rfl, tables7_ref, ready_premises _ (by simp)⟩, ⟨rfl, tables7_fast, ready_premises _ (by simp)⟩⟩

theorem witness_EncFaCompletes : (ready (tables7 .fa faEntry)).tvar = .fa ∧ (ready (tables7 .fa faEntry)).TablesOk
    ∧ (ready (tables7 .fa faEntry)).RegionsOk ∧ (ready (tables7 .fa faEntry)).SymbolsCoded ∧ (ready (tables7 .fa faEntry)).BufferLargeEnough :=
  ⟨rfl, tables7_fa, ready_premises _ (by simp)⟩

/-- The threshold of the renormalization from both sides, and for each emission the last cursor that has no room and the first that has. -/
theorem witness_EmptySequenceEncodesTheInitialState_writes :
    ((runAt 0x5FFFFFFFFFFFF).work.x.toNat < 2 ^ 49 * 3)
    ∧ (2 ^ 49 * 3 ≤ (runAt 0x6000000000000).work.x.toNat ∧ (runAt 0x6000000000000).work.wr.toNat < 0x1FD + 4)
    ∧ (2 ^ 49 * 3 ≤ (runAt 0x6000000000000).work.x.toNat ∧ 0x1FC + 4 ≤ (runAt 0x6000000000000).work.wr.toNat)
    ∧ (runAt 0).work.wr.toNat < 0x1F9 + 8 ∧ 0x1F8 + 8 ≤ (runAt 0).work.wr.toNat
    ∧ (let r : Run := { work := { Work.zero with x := 0x3FFFF, acc := 127, bitpos := 7, wr := 0x200 }, mem := [] };
      r.work.x.toNat < 2 ^ 18 ∧ r.work.bitpos.toNat ≤ 7 ∧ r.work.acc.toNat < 2 ^ r.work.bitpos.toNat
        ∧ r.work.wr.toNat < 0x1FD + 4 ∧ 0x1FC + 4 ≤ r.work.wr.toNat) := by decide

theorem witness_EmptySequenceEncodesTheInitialState :
    (let s := { core0 with tvar := .fast, aBuf := 0xFF8, nBuf := 8 };
      s.tvar = .fast ∧ s.RegionsOk ∧ s.nSrc = 0 ∧ 8 ≤ s.nBuf.toNat)
    ∧ (let s := { core0 with tvar := .fa, aBuf := 0xFFC, nBuf := 4 };
      s.tvar = .fa ∧ s.RegionsOk ∧ s.nSrc = 0 ∧ 4 ≤ s.nBuf.toNat) := by decide +kernel

theorem witness_EncodersWriteTheirStream :
    (Instr.encFast ∈ [Instr.encRef, .encFast] ∧ (ready (tables7 .fast fastEntry)).TablesOk
      ∧ ∃ t, exec .encFast (ready (tables7 .fast fastEntry)) = .next t ∧ t.err = .none)
    ∧ (ready (tables7 .fa faEntry)).TablesOk ∧ ∃ t, exec .encFa (ready (tables7 .fa faEntry)) = .next t ∧ t.err = .none :=
  ⟨⟨by decide, tables7_fast, exists_of_after (f := fun t => t.err) (by decide +kernel)⟩,
    tables7_fa, exists_of_after (f := fun t => t.err) (by decide +kernel)⟩

/-- The streams of the scenario (95 sections 9.1 and 9.4): the state and the words; the state, the bits' number and the bits. -/
theorem test_streams : (ready (tables7 .ref refEntry)).refStream seq7 = (0x1921EFD118A, [])
    ∧ (ready (tables7 .fa faEntry)).faStream seq7 = { x := 202796, bits := 9, emitted := 8 } := by decide +kernel

/-- A symbol that does not code with a buffer large enough; a buffer smaller than the final state; one too small for the stream. -/
theorem witness_EncoderErrors :
    (let s := regions (tables7 .ref refEntry) [3] 12;
      s.tvar = .ref ∧ s.TablesOk ∧ s.RegionsOk ∧ ¬ s.SymbolsCoded ∧ s.BufferLargeEnough)
    ∧ (let s := regions (tables7 .fast fastEntry) [0] 7;
      s.tvar = .fast ∧ s.TablesOk ∧ s.RegionsOk ∧ s.SymbolsCoded ∧ s.nBuf.toNat < 8)
    ∧ (let s := regions (tables7 .fa faEntry) seq7 4;
      s.tvar = .fa ∧ s.TablesOk ∧ s.RegionsOk ∧ s.SymbolsCoded ∧ after (exec .encFa s) (fun t => t.err) = some .bufferTooSmall) :=
  have h : (regions (tables7 .ref refEntry) [3] 12).RegionsOk ∧ allCoded (regions (tables7 .ref refEntry) [3] 12) = false ∧ 2 * 1 + 10 ≤ 12 := by
    decide +kernel
  have h' : (regions (tables7 .fast fastEntry) [0] 7).RegionsOk ∧ allCoded (regions (tables7 .fast fastEntry) [0] 7) = true ∧ 7 < 8 := by
    decide +kernel
  have h'' : (regions (tables7 .fa faEntry) seq7 4).RegionsOk ∧ allCoded (regions (tables7 .fa faEntry) seq7 4) = true
      ∧ after (exec .encFa (regions (tables7 .fa faEntry) seq7 4)) (fun t => t.err) = some .bufferTooSmall := by decide +kernel
  ⟨⟨rfl, tables7_ref, h.1, fun hc => by rw [(allCoded_iff _).mpr hc] at h; exact Bool.noConfusion h.2.1, h.2.2⟩,
    ⟨rfl, tables7_fast, h'.1, (allCoded_iff _).mp h'.2.1, h'.2.2⟩, ⟨rfl, tables7_fa, h''.1, (allCoded_iff _).mp h''.2.1, h''.2.2⟩⟩

/-- A symbol that does not code, before two that do: the bytes behind it fit. For `ENC.FA` the group they stand in is not flushed by then. -/
theorem witness_EncoderErrors_zeroFrequency : ∀ v ∈ [TVar.ref, .fa],
    let s := regions (tables7 v (if v = .fa then faEntry else refEntry)) [0, 3, 0, 2] 0
    s.sourceBytes = [0] ++ 3 :: [0, 2] ∧ s.symFreq 3 = 0 ∧ (s.symFreq 0 ≠ 0 ∧ s.symFreq 2 ≠ 0)
      ∧ s.streamBytes v ([0, 2].drop (if v = .fa then 2 % 3 else 0)) ≤ s.nBuf.toNat := by decide +kernel

/-- Five bytes are exactly what `ENC.FA` writes for the scenario, and eight what `ENC.REF` does (95 section 9). -/
theorem test_streamBytes : 4 + (ready (tables7 .fa faEntry)).streamBytes .fa seq7 = 5 ∧ 8 + (ready (tables7 .ref refEntry)).streamBytes .ref seq7 = 8 := by
  decide +kernel

theorem witness_FastEncodesExactlyAsRef : (ready (tables7 .fast fastEntry)).tvar = .fast ∧ (ready (tables7 .fast fastEntry)).TablesOk
    ∧ ∃ t, exec .encFast (ready (tables7 .fast fastEntry)) = .next t :=
  ⟨rfl, tables7_fast, exists_next (by decide +kernel)⟩

theorem witness_DecRefAndFastComplete : ∀ s ∈ [regions (tables7 .ref refEntry) [0x8A, 0x11, 0xFD, 0x1E, 0x92, 0x01, 0, 0, 0, 0, 0, 0] 1,
      regions (tables7 .fast fastEntry) [0, 0, 0, 0, 0, 0, 0, 0] 0],
    s.SharedTables ∧ s.RegionsOk ∧ 8 + 4 * s.nBuf.toNat ≤ s.nSrc.toNat := by decide +kernel

/-- The smallest terminal word and the largest (95 section 10), each with the shortest tail the statement allows. -/
theorem witness_DecFaCompletes : ∀ p ∈ [([0x00#8, 0x02, 0x00, 0x00], 0#32), ([0x01#8, 0xFF, 0xFF, 0xFF, 0xA5, 0x5A], 1)],
    let s := regions (tables7 .fa faEntry) p.1 p.2
    s.tvar = .fa ∧ s.TablesOk ∧ s.RegionsOk ∧ 4 + 2 * s.nBuf.toNat ≤ s.nSrc.toNat
      ∧ 18 ≤ bitWidth (readBE4 s.mem s.aSrc.toNat) ∧ bitWidth (readBE4 s.mem s.aSrc.toNat) ≤ 25 := by
  have h : ∀ p ∈ [([0x00#8, 0x02, 0x00, 0x00], 0#32), ([0x01#8, 0xFF, 0xFF, 0xFF, 0xA5, 0x5A], 1)],
      let s := regions (tables7 .fa faEntry) p.1 p.2
      s.RegionsOk ∧ 4 + 2 * s.nBuf.toNat ≤ s.nSrc.toNat
        ∧ 18 ≤ bitWidth (readBE4 s.mem s.aSrc.toNat) ∧ bitWidth (readBE4 s.mem s.aSrc.toNat) ≤ 25 := by decide +kernel
  exact fun p hp => ⟨rfl, tables7_fa, h p hp⟩

/-- Seven bytes of tail, and eight. -/
theorem witness_RefDecoderErrors :
    (let s := { core0 with tvar := .ref, nSrc := 7, aBuf := 0x100, nBuf := 1 };
      s.SharedTables ∧ s.RegionsOk ∧ s.nSrc.toNat < 8)
    ∧ (let s := { core0 with tvar := .fast, nSrc := 8, aBuf := 0x100, nBuf := 1 };
      s.SharedTables ∧ s.RegionsOk) := by decide +kernel

/-- The word pull on both sides of 2^31, with one byte too few before the end of the tail and with just enough. -/
theorem witness_RefDecoderErrors_pullWord :
    0x304 ≤ 2 ^ 32 ∧ 2 ^ 31 ≤ (runAt 0x80000000).work.x.toNat
    ∧ (let r : Run := { work := { Work.zero with x := 0x7FFFFFFF, rd := 0x300 }, mem := [] };
      r.work.x.toNat < 2 ^ 31 ∧ 0x303 < r.work.rd.toNat + 4 ∧ r.work.rd.toNat + 4 ≤ 0x304) := by decide

/-- A valid table set and a tail of exactly the eight bytes of the state. -/
theorem witness_RefDecoderErrors_tail : Instr.decRef ∈ [Instr.decRef, .decFast]
    ∧ (let s := regions (tables7 .ref refEntry) [0x8A, 0x11, 0xFD, 0x1E, 0x92, 0x01, 0, 0] 7;
      s.SharedTables ∧ s.RegionsOk ∧ s.IntervalsOk ∧ 8 ≤ s.nSrc.toNat) :=
  have h : (regions (tables7 .ref refEntry) [0x8A, 0x11, 0xFD, 0x1E, 0x92, 0x01, 0, 0] 7).SharedTables
      ∧ (regions (tables7 .ref refEntry) [0x8A, 0x11, 0xFD, 0x1E, 0x92, 0x01, 0, 0] 7).RegionsOk := by decide +kernel
  ⟨by decide, h.1, h.2, tables7_intervals .ref refEntry (fun _ _ _ => ⟨rfl, rfl⟩), by decide +kernel⟩

/-- What the decoders make of the tails of 95 section 9: their sequence, and nothing for one symbol
more, which needs a word or a byte beyond the end (41 R147, 43 R201). -/
theorem test_refDecoded : let s := regions (tablesAbc .ref refEntry) [0x39, 0xC0, 0x01, 0x80, 0x0D, 0x00, 0, 0] 3
    s.refDecoded 3 0xD8001C039 8 = some [0x61, 0x62, 0x63] ∧ s.refDecoded 4 0xD8001C039 8 = none := by decide +kernel

theorem test_faDecoded : let s := regions (tablesAbc .fa faEntry) [0x00, 0x38, 0x55, 0x76] 3
    bitWidth (readBE4 s.mem 0) = 22 ∧ s.faDecoded 3 (0x385576 / 2 ^ 4) (0x385576 % 2 ^ 4) 4 4 = some [0x61, 0x62, 0x63]
      ∧ s.faDecoded 4 (0x385576 / 2 ^ 4) (0x385576 % 2 ^ 4) 4 4 = none := by decide +kernel

/-- The least and the most pending bits of a terminal word, on a valid table set. -/
theorem witness_FaDecoderErrors_tail : ∀ p ∈ [([0x00#8, 0x02, 0x00, 0x00], 0), ([0x01, 0xFF, 0xFF, 0xFF], 7)],
    let s := regions (tables7 .fa faEntry) p.1 1
    s.tvar = .fa ∧ s.RegionsOk ∧ s.IntervalsOk ∧ 4 ≤ s.nSrc.toNat ∧ p.2 ≤ 7 ∧ bitWidth (readBE4 s.mem s.aSrc.toNat) = 18 + p.2 := by
  have h : ∀ p ∈ [([0x00#8, 0x02, 0x00, 0x00], 0), ([0x01, 0xFF, 0xFF, 0xFF], 7)],
      let s := regions (tables7 .fa faEntry) p.1 1
      s.RegionsOk ∧ 4 ≤ s.nSrc.toNat ∧ p.2 ≤ 7 ∧ bitWidth (readBE4 s.mem s.aSrc.toNat) = 18 + p.2 := by decide +kernel
  exact fun p hp => ⟨rfl, (h p hp).1, tables7_intervals .fa faEntry (fun e f c => ⟨faEntry_freq e f c, faEntry_start e f c⟩), (h p hp).2⟩

/-- Three bytes of tail, and four that are no terminal word on either side and that are. -/
theorem witness_FaDecoderErrors :
    (let s := { core0 with tvar := .fa, nSrc := 3, aBuf := 0x100, nBuf := 1 };
      s.tvar = .fa ∧ s.RegionsOk ∧ s.nSrc.toNat < 4)
    ∧ ∀ p ∈ [([0x00#8, 0x01, 0xFF, 0xFF], true), ([0x02, 0x00, 0x00, 0x00], true), ([0x00, 0x02, 0x00, 0x00], false)],
      let s := regions { core0 with tvar := .fa } p.1 1
      s.tvar = .fa ∧ s.RegionsOk ∧ 4 ≤ s.nSrc.toNat
        ∧ decide (bitWidth (readBE4 s.mem s.aSrc.toNat) < 18 ∨ 25 < bitWidth (readBE4 s.mem s.aSrc.toNat)) = p.2 := by decide +kernel

theorem witness_RefAndFastRoundTrip : Instr.encFast ∈ [Instr.encRef, .encFast] ∧ Instr.decRef ∈ [Instr.decRef, .decFast]
    ∧ (ready (tables7 .fast fastEntry)).TablesOk ∧ (ready (tables7 .fast fastEntry)).nSrc = 7
    ∧ ∃ t, exec .encFast (ready (tables7 .fast fastEntry)) = .next t ∧ t.err = .none ∧ (t.pointAtTail 0x300 7).RegionsOk := by
  have h : after (exec .encFast (ready (tables7 .fast fastEntry))) (fun t => (t.err, decide (t.pointAtTail 0x300 7).RegionsOk))
      = some (.none, true) := by decide +kernel
  obtain ⟨t, ht, hf⟩ := exists_of_after h
  simp only [Prod.mk.injEq, decide_eq_true_eq] at hf
  exact ⟨by decide, by decide, tables7_fast, rfl, t, ht, hf⟩

theorem witness_FaRoundTrip : (ready (tables7 .fa faEntry)).TablesOk ∧ (ready (tables7 .fa faEntry)).nSrc = 7
    ∧ ∃ t, exec .encFa (ready (tables7 .fa faEntry)) = .next t ∧ t.err = .none ∧ (t.pointAtTail 0x300 7).RegionsOk := by
  have h : after (exec .encFa (ready (tables7 .fa faEntry))) (fun t => (t.err, decide (t.pointAtTail 0x300 7).RegionsOk))
      = some (.none, true) := by decide +kernel
  obtain ⟨t, ht, hf⟩ := exists_of_after h
  simp only [Prod.mk.injEq, decide_eq_true_eq] at hf
  exact ⟨tables7_fa, rfl, t, ht, hf⟩

/-- A state with valid tables, statistics and memory whose step runs a command. -/
def busyHost : State := { tables7 .fa faEntry with mem := [(3, 5)], script := [.regWrite 0 0x10] }

theorem witness_EveryStepKeepsTheInvariant : busyHost.Inv ∧ ∃ t, step busyHost = .next t :=
  ⟨⟨rfl, ⟨by decide, by decide⟩, stat7_ok.2.2, nofun, tables7_fa⟩, exists_next (by decide +kernel)⟩

end Sys2Proof.Tests
end

/-! ### The invariant, piece by piece

`State.Inv` speaks of four parts of the state: buffer memory, the statistics, the raw counts and the table set. Each part depends on a few
fields only, so a step keeps the invariant when every part is either untouched or built anew by a rule whose result is valid. -/

section
namespace Sys2Proof.Machine

/-- The invariant without `BUSY`: what holds also while a command runs. -/
def State.ContentsOk (s : State) : Prop := s.MemoryOk ∧ s.StatisticsOk ∧ s.CountsOk ∧ s.TablesOk

/-- `t` meets the invariant and has the memory size of `s`: what every step from `s` is to give. -/
def KeepsInv (s t : State) : Prop := t.Inv ∧ t.memTop = s.memTop

theorem State.inv_iff (s : State) : s.Inv ↔ s.busy = false ∧ s.ContentsOk := Iff.rfl

theorem State.statisticsOk_congr {s t : State} (h : SameStatistics s t) (hs : s.StatisticsOk) : t.StatisticsOk := by
  obtain ⟨hf, hc, hn⟩ := h
  simpa only [State.StatisticsOk, hf, hc, hn] using hs

theorem State.countsOk_congr {s t : State} (h : SameStatistics s t) (hs : s.CountsOk) : t.CountsOk := by
  obtain ⟨hf, -, hn⟩ := h
  simpa only [State.CountsOk, hf, hn] using hs

theorem State.tablesOk_congr {s t : State} (h : SameTables s t) (hs : s.TablesOk) : t.TablesOk := by
  obtain ⟨he, hd, hi, hv⟩ := h
  simpa only [State.TablesOk, State.IntervalsOk, State.decStart, State.decFreq, State.encOf, State.decOf, State.invOf, he, hd, hi, hv]
    using hs

theorem State.memoryOk_congr {s t : State} (hm : t.mem = s.mem) (htop : t.memTop = s.memTop) (hs : s.MemoryOk) : t.MemoryOk := by
  simpa only [State.MemoryOk, State.memSize, hm, htop] using hs

/-- A change of memory alone keeps the contents valid when the new memory is. -/
theorem State.ContentsOk.of_memoryOk {s t : State} (h : s.ContentsOk) (hm : t.MemoryOk) (hs : SameStatistics s t) (ht : SameTables s t) :
    t.ContentsOk := by
  obtain ⟨-, hstat, hcount, htab⟩ := h
  exact ⟨hm, statisticsOk_congr hs hstat, countsOk_congr hs hcount, tablesOk_congr ht htab⟩

/-- A change of registers alone keeps the contents valid. -/
theorem State.ContentsOk.of_same {s t : State} (h : s.ContentsOk) (hm : t.mem = s.mem) (htop : t.memTop = s.memTop)
    (hs : SameStatistics s t) (ht : SameTables s t) : t.ContentsOk :=
  h.of_memoryOk (memoryOk_congr hm htop h.1) hs ht

/-- Without statistics and without a table set only memory has a rule to meet (10 R41, R42). -/
theorem State.contentsOk_of_invalid {s : State} (hm : s.MemoryOk) (hs : s.sstate = .invalid) (hv : s.tvar = .none) : s.ContentsOk := by
  refine ⟨hm, ?_, ?_, ?_⟩
  · simp [State.StatisticsOk, hs]
  · simp [State.CountsOk, hs]
  · simp [State.TablesOk, hv]

/-- Completion ends the command and leaves its contents (30 R93). -/
theorem State.complete_meetsInv {s : State} (h : s.ContentsOk) (e : ErrorCode) (r : Word) : (s.complete e r).Inv :=
  ⟨rfl, h.of_same rfl rfl ⟨rfl, rfl, rfl⟩ ⟨rfl, rfl, rfl, rfl⟩⟩

theorem State.raise_meetsInv {s : State} (h : s.ContentsOk) (e : ErrorCode) : (s.raise e).Inv := complete_meetsInv h e 0

/-- A command keeps the invariant when its own rule does; the prologue's errors change no contents (60 R237). -/
theorem withPrologue_keepsInv {ok ready : Bool} {s t : State} {body : State → State} (h : s.ContentsOk)
    (ht : withPrologue ok ready s body = .next t) (hbody : ok = true → ready = true → KeepsInv s (body s)) : KeepsInv s t := by
  obtain ⟨-, rfl⟩ | ⟨-, -, rfl⟩ | ⟨hok, hready, rfl⟩ := withPrologue_cases ht
  · exact ⟨State.raise_meetsInv h _, rfl⟩
  · exact ⟨State.raise_meetsInv h _, rfl⟩
  · exact hbody hok hready

end Sys2Proof.Machine
end

/-! ### Memory: every write lands below MEM_SIZE -/

section
namespace Sys2Proof.Machine

/-- The memory is canonical and lists no address at or above `top`. -/
def Memory.Within (m : Memory) (top : Nat) : Prop := m.wf ∧ ∀ c ∈ m, c.1 < top

theorem State.memoryOk_iff (s : State) : s.MemoryOk ↔ s.mem.Within s.memSize := Iff.rfl

theorem Memory.within_write {m : Memory} {top a : Nat} (h : m.Within top) (ha : a < top) (b : Byte) : (m.write a b).Within top := by
  refine ⟨Memory.wf_write h.1 a b, fun c hc => ?_⟩
  obtain hc | hc := Memory.mem_write hc
  · omega
  · exact h.2 c hc

theorem Memory.within_writeLE {m : Memory} {top a n : Nat} (h : m.Within top) (ha : a + n ≤ top) (v : Nat) :
    (m.writeLE a n v).Within top := by
  refine ⟨Memory.wf_writeLE h.1 a n v, fun c hc => ?_⟩
  obtain hc | hc := Memory.mem_writeLE hc
  · omega
  · exact h.2 c hc

theorem Memory.within_fill {m : Memory} {top a n : Nat} (h : m.Within top) (ha : a + n ≤ top) (f : Nat → Byte) :
    (m.fill a n f).Within top := by
  refine ⟨Memory.wf_fill h.1 a n f, fun c hc => ?_⟩
  obtain hc | hc := Memory.mem_fill hc
  · omega
  · exact h.2 c hc

/-- What an encoder keeps: memory inside `top`, and the write cursor, below which it writes next, at most `top`. -/
def Run.Within (top : Nat) (r : Run) : Prop := r.mem.Within top ∧ r.work.wr.toNat ≤ top

variable {top base : Nat} {r r' : Run}

theorem cursor_le {n : Nat} (h : n ≤ top) : (BitVec.ofNat 33 n).toNat ≤ top := by
  rw [BitVec.toNat_ofNat]; exact Nat.le_trans (Nat.mod_le _ _) h

theorem setX_within (hr : r.Within top) (v : Nat) : (r.setX v).Within top := hr

theorem setIdx_within (hr : r.Within top) (i : Nat) : (r.setIdx i).Within top := hr

theorem emitBits_within (hr : r.Within top) (v n : Nat) : (emitBits v n r).Within top := hr

theorem emit_within {n v : Nat} (hr : r.Within top) (h : r.emit base n v = .ok r') : r'.Within top := by
  obtain ⟨hm, hw⟩ := hr
  obtain ⟨hroom, rfl⟩ := emit_ok h
  exact ⟨Memory.within_writeLE hm (by omega) v, cursor_le (by omega)⟩

theorem renormalize_within {f : Nat} (hr : r.Within top) (h : renormalize base f r = .ok r') : r'.Within top := by
  obtain ⟨hm, hw⟩ := hr
  obtain ⟨-, rfl⟩ | ⟨-, hroom, rfl⟩ := renormalize_ok h
  · exact ⟨hm, hw⟩
  · exact ⟨Memory.within_writeLE hm (by omega) _, cursor_le (by omega)⟩

theorem encStep_within {update : EncEntry → DWord → Nat} {s : State} {b : Byte} (hr : r.Within top) (h : encStep update s b r = .ok r') :
    r'.Within top := by
  obtain ⟨-, a, ha, rfl⟩ := encStep_ok h
  exact setX_within (renormalize_within hr ha) _

theorem flushState_within (hr : r.Within top) (h : flushState base r = .ok r') : r'.Within top := by
  obtain ⟨hm, hw⟩ := hr
  obtain ⟨hroom, rfl⟩ := flushState_ok h
  exact ⟨Memory.within_writeLE (Memory.within_writeLE hm (by omega) _) (by omega) _, cursor_le (by omega)⟩

/-- A run of `ENC.REF` or `ENC.FAST` stays inside memory when its destination does (20 R78). -/
theorem encWords_within {update : EncEntry → DWord → Nat} {s : State} (hm : s.mem.Within top) (hb : s.bufEnd ≤ top)
    (h : s.encWords update = .ok r) : r.mem.Within top := by
  obtain ⟨a, hloop, hflush⟩ := (bind_eq_ok _ _ _).mp h
  have hstart : s.encStart.Within top := ⟨hm, cursor_le hb⟩
  have ha : a.Within top :=
    encLoop_keeps (Run.Within top) (fun _ i hr => setIdx_within hr i) (fun _ _ _ hr => encStep_within hr) _ _ _ hstart hloop
  exact (flushState_within ha hflush).1

theorem flushByte_within (hr : r.Within top) (h : flushByte base r = .ok r') : r'.Within top := by
  obtain ⟨hm, hw⟩ := hr
  obtain ⟨hroom, rfl⟩ := flushByte_ok h
  exact ⟨Memory.within_writeLE hm (by omega) _, cursor_le (by omega)⟩

theorem flushBytes_within {n : Nat} (hr : r.Within top) (h : flushBytes base n r = .ok r') : r'.Within top := by
  induction n generalizing r with
  | zero => cases h; exact hr
  | succ n ih =>
    obtain ⟨a, ha, hrest⟩ := (bind_eq_ok _ _ _).mp h
    exact ih (flushByte_within hr ha) hrest

theorem flushBits_within (hr : r.Within top) (h : flushBits base r = .ok r') : r'.Within top := flushBytes_within hr h

theorem faEncStep_within {s : State} {b : Byte} (hr : r.Within top) (h : faEncStep s b r = .ok r') : r'.Within top := by
  obtain ⟨-, he⟩ | ⟨-, he⟩ := faEncStep_cases s b r
  · rw [he] at h; cases h
  · rw [he] at h; cases h; exact setX_within (emitBits_within hr _ _) _

theorem faEncLoop_within {s : State} {src : Nat} : ∀ (n : Nat) {r : Run}, r.Within top → faEncLoop s src base n r = .ok r' →
    r'.Within top
  | 0, _, hr, h => flushBits_within hr h
  | 1, _, hr, h => by
    obtain ⟨a, ha, hflush⟩ := (bind_eq_ok _ _ _).mp h
    exact flushBits_within (faEncStep_within (setIdx_within hr 1) ha) hflush
  | 2, _, hr, h => by
    obtain ⟨a, ha, h⟩ := (bind_eq_ok _ _ _).mp h
    obtain ⟨b, hb, hflush⟩ := (bind_eq_ok _ _ _).mp h
    exact flushBits_within (faEncStep_within (setIdx_within (faEncStep_within (setIdx_within hr 2) ha) 1) hb) hflush
  | n + 3, _, hr, h => by
    obtain ⟨a, ha, h⟩ := (bind_eq_ok _ _ _).mp h
    obtain ⟨b, hb, h⟩ := (bind_eq_ok _ _ _).mp h
    obtain ⟨c, hc, h⟩ := (bind_eq_ok _ _ _).mp h
    obtain ⟨d, hflush, hrest⟩ := (bind_eq_ok _ _ _).mp h
    have hgroup : c.Within top := faEncStep_within (faEncStep_within (faEncStep_within (setIdx_within hr (n + 3)) ha) hb) hc
    exact faEncLoop_within n (flushBits_within hgroup hflush) hrest

/-- A run of `ENC.FA` stays inside memory when its destination does (20 R78). -/
theorem faEncode_within {s : State} (hm : s.mem.Within top) (hb : s.bufEnd ≤ top) (h : s.faEncode = .ok r) : r.mem.Within top := by
  obtain ⟨a, hloop, hflush⟩ := (bind_eq_ok _ _ _).mp h
  have hstart : s.faEncStart.Within top := ⟨hm, cursor_le hb⟩
  have ha : a.Within top := faEncLoop_within _ hstart hloop
  exact (flushBits_within (emitBits_within ha _ _) hflush).1

theorem pullWord_mem {tailEnd : Nat} (h : pullWord tailEnd r = .ok r') : r'.mem = r.mem := by
  obtain ⟨-, rfl⟩ | ⟨-, -, rfl⟩ := pullWord_ok h <;> rfl

theorem pullBytes_mem {tailEnd n : Nat} (h : pullBytes tailEnd n r = .ok r') : r'.mem = r.mem := by
  induction n generalizing r with
  | zero => cases h; rfl
  | succ n ih =>
    obtain ⟨a, ha, hrest⟩ := (bind_eq_ok _ _ _).mp h
    obtain ⟨-, rfl⟩ := pullByte_ok ha
    exact (ih hrest).trans rfl

theorem readBits_mem {tailEnd k : Nat} {p : Nat × Run} (h : readBits tailEnd k r = .ok p) : p.2.mem = r.mem := by
  obtain ⟨a, ha, hp⟩ := (bind_eq_ok _ _ _).mp h
  cases hp
  exact (pullBytes_mem ha :)

theorem decStepRef_mem {s : State} {i : Nat} (h : decStepRef s i r = .ok r') : r'.mem = (s.decodeSymbol i r).mem := pullWord_mem h

theorem faDecStep_mem {s : State} {i : Nat} (h : faDecStep s i r = .ok r') : r'.mem = (s.decodeSymbol i r).mem := by
  obtain ⟨p, hp, hx⟩ := (bind_eq_ok _ _ _).mp h
  cases hx
  exact (readBits_mem hp :)

/-- A decode loop whose step changes memory by the symbol it writes stays inside memory when its destination does (41 R143, 43 R199). -/
theorem decLoop_within {s : State} {step : Nat → Run → Except ErrorCode Run}
    (hstep : ∀ i r r', step i r = .ok r' → r'.mem = (s.decodeSymbol i r).mem) (hb : s.bufEnd ≤ top) (hr : r.mem.Within top)
    (h : decLoop step s.nBuf.toNat 0 r = .ok r') : r'.mem.Within top := by
  refine decLoop_keeps (fun r => r.mem.Within top) (fun _ _ hr => hr) 0 s.nBuf.toNat (fun i r r' _ hi hr h => ?_) _ 0 r r'
    (Nat.le_refl _) (by omega) hr h
  rw [hstep i r r' h, State.decodeSymbol_mem]
  exact Memory.within_write hr (by simp only [State.bufEnd] at hb; omega) _

theorem readTwoWords_mem {s : State} (h : s.readTwoWords = .ok r) : r.mem = s.mem := by
  unfold State.readTwoWords at h
  simp only at h
  split at h <;> cases h
  rfl

theorem readState_mem {s : State} (h : s.readState = .ok r) : r.mem = s.mem := by
  unfold State.readState at h
  simp only at h
  split at h
  · cases h
  · split at h <;> cases h
    rfl

/-- A run of `DEC.REF` or `DEC.FAST` stays inside memory when its destination does (20 R78). -/
theorem decWords_within {s : State} (hm : s.mem.Within top) (hb : s.bufEnd ≤ top) (h : s.decWords = .ok r) : r.mem.Within top := by
  obtain ⟨a, ha, hloop⟩ := (bind_eq_ok _ _ _).mp h
  exact decLoop_within (fun _ _ _ => decStepRef_mem) hb (readTwoWords_mem ha ▸ hm) hloop

@[inherit_doc decWords_within]
theorem faDecode_within {s : State} (hm : s.mem.Within top) (hb : s.bufEnd ≤ top) (h : s.faDecode = .ok r) : r.mem.Within top := by
  obtain ⟨a, ha, hloop⟩ := (bind_eq_ok _ _ _).mp h
  exact decLoop_within (fun _ _ _ => faDecStep_mem) hb (readState_mem ha ▸ hm) hloop

variable {s : State}

/-- The destination region lost after a run-time error stays inside memory (60 R237). -/
theorem loseDestination_contentsOk (h : s.ContentsOk) (hb : s.bufEnd ≤ s.memSize) : s.loseDestination.ContentsOk :=
  h.of_memoryOk (Memory.within_fill h.1 hb _) ⟨rfl, rfl, rfl⟩ ⟨rfl, rfl, rfl, rfl⟩

theorem setMem_contentsOk (h : s.ContentsOk) {m : Memory} (hm : m.Within s.memSize) : ({ s with mem := m } : State).ContentsOk :=
  h.of_memoryOk hm ⟨rfl, rfl, rfl⟩ ⟨rfl, rfl, rfl, rfl⟩

/-- A coding command keeps the invariant when its run stays inside memory, whichever way it ends (30 R93, 60 R237). -/
theorem codingEnd_keepsInv (h : s.ContentsOk) (hb : s.RegionsOk) {o : Except ErrorCode Run} {t : State}
    (ho : ∀ r, s.mem.Within s.memSize → s.bufEnd ≤ s.memSize → o = .ok r → r.mem.Within s.memSize)
    (ht : (∃ r w, o = .ok r ∧ t = { s with mem := r.mem }.complete .none w) ∨ ∃ e, o = .error e ∧ t = s.loseDestination.raise e) :
    KeepsInv s t := by
  have hend : s.bufEnd ≤ s.memSize := hb.2.1
  obtain ⟨r, w, hr, rfl⟩ | ⟨e, -, rfl⟩ := ht
  · exact ⟨State.complete_meetsInv (setMem_contentsOk h (ho r h.1 hend hr)) _ _, rfl⟩
  · exact ⟨State.raise_meetsInv (loseDestination_contentsOk h hend) _, rfl⟩

theorem finishEncode_keepsInv (h : s.ContentsOk) (hb : s.RegionsOk) {o : Except ErrorCode Run}
    (ho : ∀ r, s.mem.Within s.memSize → s.bufEnd ≤ s.memSize → o = .ok r → r.mem.Within s.memSize) : KeepsInv s (s.finishEncode o) :=
  codingEnd_keepsInv h hb ho ((finishEncode_cases s o).imp_left fun ⟨r, hr, ht⟩ => ⟨r, _, hr, ht⟩)

theorem finishDecode_keepsInv (h : s.ContentsOk) (hb : s.RegionsOk) {o : Except ErrorCode Run}
    (ho : ∀ r, s.mem.Within s.memSize → s.bufEnd ≤ s.memSize → o = .ok r → r.mem.Within s.memSize) : KeepsInv s (s.finishDecode o) :=
  codingEnd_keepsInv h hb ho ((finishDecode_cases s o).imp_left fun ⟨r, hr, ht⟩ => ⟨r, _, hr, ht⟩)

end Sys2Proof.Machine
end

/-! ### Statistics and table sets: what the builders make is valid -/

section
namespace Sys2Proof.Machine

/-- One counting pass adds at most 1 to the sum of the counts; a count that wraps would lose (40 R111). -/
theorem rawSum_countStep_le (m : Memory) (a : Nat) (freq : Vector Word 256) (i n : Nat) :
    rawSum (countStep m a freq i) n ≤ rawSum freq n + if (m.read (a + i)).toNat < n then 1 else 0 := by
  induction n with
  | zero => simp [rawSum]
  | succ n ih =>
    have hword : wordAt (countStep m a freq i) n ≤ wordAt freq n + if n = (m.read (a + i)).toNat then 1 else 0 := by
      rw [countStep, wordAt_set]
      split
      · next h => rw [h, wordAt_of_lt freq (m.read (a + i)).isLt, BitVec.toNat_add]; exact Nat.mod_le _ _
      · omega
    have hsplit : (if (m.read (a + i)).toNat < n + 1 then 1 else 0)
        = (if (m.read (a + i)).toNat < n then 1 else 0) + if n = (m.read (a + i)).toNat then 1 else 0 := by
      split_ifs <;> omega
    simp only [rawSum]
    omega

theorem rawSum_replicate_zero (n : Nat) : rawSum (Vector.replicate 256 0) n = 0 := by
  induction n with
  | zero => rfl
  | succ n ih => rw [rawSum, ih, wordAt_replicate_zero]

/-- The counts of `n` bytes sum to at most `n` (40 R113). -/
theorem rawSum_countFreq_le (m : Memory) (a n : Nat) : rawSum (countFreq m a n) 256 ≤ n := by
  induction n with
  | zero => exact (rawSum_replicate_zero 256).le
  | succ n ih =>
    have hstep := rawSum_countStep_le m a (countFreq m a n) n 256
    rw [if_pos (m.read (a + n)).isLt] at hstep
    rw [countFreq, List.range_succ, List.foldl_append]
    exact Nat.le_trans hstep (by omega)

/-- The boundaries of a total: from 0 without falling up to `t` (10 R47). -/
structure RisesTo (t : Nat) (cum : Nat → Nat) : Prop where
  zero : cum 0 = 0
  step : ∀ j < 256, cum j ≤ cum (j + 1)
  last : cum 256 = t

theorem RisesTo.le_last {t : Nat} {cum : Nat → Nat} (h : RisesTo t cum) {j : Nat} (hj : j ≤ 256) : cum j ≤ t := by
  induction hj using Nat.decreasingInduction with
  | self => exact h.last.le
  | of_succ j hj ih => exact (h.step j hj).trans ih

/-- Rescaling gives boundaries of the new total (40 R114, R115). -/
theorem rescale_risesTo (t : Nat) (freq : Vector Word 256) : RisesTo t (rescale t (rawSum freq)) := by
  by_cases h : rawSum freq 256 = 0
  · refine ⟨by simp [rescale, h], fun j _ => ?_, by simp [rescale, h]⟩
    simp only [rescale, h, if_true]
    split <;> simp
  · have hpos : 0 < rawSum freq 256 := Nat.pos_of_ne_zero h
    refine ⟨?_, fun j _ => ?_, ?_⟩
    · simp only [rescale, h, if_false]
      exact Nat.div_eq_of_lt (show 2 * t * 0 + rawSum freq 256 < 2 * rawSum freq 256 by omega)
    · simp only [rescale, h, if_false]
      refine Nat.div_le_div_right (Nat.add_le_add_right (Nat.mul_le_mul_left _ ?_) _)
      exact Nat.le_add_right _ _
    · simp only [rescale, h, if_false]
      rw [show 2 * t * rawSum freq 256 + rawSum freq 256 = rawSum freq 256 + t * (2 * rawSum freq 256) by ring,
        Nat.add_mul_div_right _ _ (by omega), Nat.div_eq_of_lt (by omega), Nat.zero_add]

/-- A scan step takes its own symbol, which then has a frequency above 1, or keeps the best so far. -/
theorem donorScan_eq_some {cum : Nat → Nat} {best : Option Nat} {j d : Nat} (h : donorScan cum best j = some d) :
    (d = j ∧ 1 < gap cum j) ∨ best = some d := by
  unfold donorScan at h
  split at h
  · next hgap =>
    cases best with
    | none => cases h; exact .inl ⟨rfl, hgap⟩
    | some b =>
      simp only at h
      split at h
      · cases h; exact .inl ⟨rfl, hgap⟩
      · exact .inr h
  · exact .inr h

/-- A donor is a symbol of frequency above 1 (40 R117). -/
theorem donor_eq_some {cum : Nat → Nat} {d : Nat} (h : donor cum = some d) : d < 256 ∧ 1 < gap cum d := by
  have key : ∀ n d, (List.range n).foldl (donorScan cum) none = some d → d < n ∧ 1 < gap cum d := by
    intro n
    induction n with
    | zero => intro d h; cases h
    | succ n ih =>
      intro d h
      rw [List.range_succ, List.foldl_append, List.foldl_cons, List.foldl_nil] at h
      obtain ⟨rfl, hgap⟩ | hbest := donorScan_eq_some h
      · exact ⟨Nat.lt_succ_self _, hgap⟩
      · obtain ⟨hlt, hgap⟩ := ih d hbest
        exact ⟨Nat.lt_succ_of_lt hlt, hgap⟩
  exact key 256 d h

/-- The boundary shift keeps the boundaries in order: the donor has a unit to spare (40 R118). -/
theorem shiftBoundaries_risesTo {t d i : Nat} {cum : Nat → Nat} (h : RisesTo t cum) (hd : d < 256) (hi : i < 256)
    (hgap : 1 < gap cum d) (hflat : cum (i + 1) = cum i) : RisesTo t (shiftBoundaries d i cum) := by
  obtain ⟨h0, hstep, hlast⟩ := h
  unfold gap at hgap
  have hne : d ≠ i := by rintro rfl; omega
  refine ⟨by simp [shiftBoundaries, h0], fun j hj => ?_, ?_⟩
  · have hrise := hstep j hj
    simp only [shiftBoundaries]
    by_cases hjd : j = d
    · subst hjd
      split_ifs <;> omega
    · split_ifs <;> omega
  · simp only [shiftBoundaries]
    split_ifs <;> omega

theorem repairStep_risesTo {raw cum cum' : Nat → Nat} {t i : Nat} (h : RisesTo t cum) (hi : i < 256)
    (hr : repairStep raw cum i = .ok cum') : RisesTo t cum' := by
  unfold repairStep at hr
  split at hr
  · next hflat =>
    cases hdonor : donor cum with
    | none => rw [hdonor] at hr; cases hr
    | some d =>
      rw [hdonor] at hr
      cases hr
      obtain ⟨hd, hgap⟩ := donor_eq_some hdonor
      exact shiftBoundaries_risesTo h hd hi hgap hflat.2
  · cases hr; exact h

/-- The repair pass over any list of symbols (40 R116). -/
theorem foldlM_repairStep_risesTo {raw cum' : Nat → Nat} {t : Nat} : ∀ (l : List Nat) {cum : Nat → Nat}, (∀ i ∈ l, i < 256) →
    RisesTo t cum → l.foldlM (repairStep raw) cum = .ok cum' → RisesTo t cum'
  | [], _, _, h, hr => by cases hr; exact h
  | i :: l, _, hl, h, hr => by
    rw [List.foldlM_cons] at hr
    obtain ⟨c, hc, hrest⟩ := (bind_eq_ok _ _ _).mp hr
    exact foldlM_repairStep_risesTo l (fun j hj => hl j (List.mem_cons_of_mem _ hj))
      (repairStep_risesTo h (hl i List.mem_cons_self) hc) hrest

/-- Normalization without error gives boundaries of its total (40 R113 to R118). -/
theorem normalizedCum_risesTo {t : Nat} {freq : Vector Word 256} {cum : Nat → Nat} (h : normalizedCum t freq = .ok cum) : RisesTo t cum :=
  foldlM_repairStep_risesTo _ (fun _ => List.mem_range.mp) (rescale_risesTo t freq) h

variable {s : State} {t : Nat} {cum : Nat → Nat}

theorem wordAt_setStatistics_cum (h : RisesTo t cum) (ht : t ≤ 16384) {i : Nat} (hi : i ≤ 256) :
    wordAt (s.setStatistics cum).cum i = cum i := by
  have hle := h.le_last hi
  exact wordAt_tabulate_ofNat 257 cum (by omega) (by omega)

theorem wordAt_setStatistics_freq (h : RisesTo t cum) (ht : t ≤ 16384) {i : Nat} (hi : i < 256) :
    wordAt (s.setStatistics cum).freq i = gap cum i := by
  have hle := h.le_last (show i + 1 ≤ 256 from hi)
  exact wordAt_tabulate_ofNat 256 (gap cum) hi (by unfold gap; omega)

/-- Stage 4 stores valid statistics when the final boundaries are those of a legal total (40 R119, 10 R47). -/
theorem setStatistics_statisticsOk {k : Nat} (h : RisesTo (2 ^ k) cum) (hk : k ≤ 14) : (s.setStatistics cum).StatisticsOk := by
  have ht : 2 ^ k ≤ 16384 := Nat.pow_le_pow_right (by decide) hk
  refine fun _ => ⟨?_, fun i hi => ?_, k, hk, ?_⟩
  · rw [wordAt_setStatistics_cum h ht (by decide), h.zero]
  · rw [wordAt_setStatistics_cum h ht (by omega), wordAt_setStatistics_cum h ht (by omega), wordAt_setStatistics_freq h ht hi, gap,
      Nat.add_sub_cancel' (h.step i hi)]
  · rw [wordAt_setStatistics_cum h ht (Nat.le_refl _), h.last]

theorem setStatistics_contentsOk {k : Nat} (hm : s.MemoryOk) (ht : s.TablesOk) (h : RisesTo (2 ^ k) cum) (hk : k ≤ 14) :
    (s.setStatistics cum).ContentsOk :=
  ⟨hm, setStatistics_statisticsOk h hk, nofun, State.tablesOk_congr ⟨rfl, rfl, rfl, rfl⟩ ht⟩

/-- The statistics lost after `DegenerateFrequencyTable` have no rule to meet (60 R237). -/
theorem loseStatistics_contentsOk (hm : s.MemoryOk) (ht : s.TablesOk) : s.loseStatistics.ContentsOk :=
  ⟨hm, nofun, nofun, State.tablesOk_congr ⟨rfl, rfl, rfl, rfl⟩ ht⟩

/-- The counting stage leaves raw counts (40 R111). -/
theorem countStage_contentsOk (hm : s.MemoryOk) (ht : s.TablesOk) : s.countStage.ContentsOk :=
  ⟨hm, nofun, fun _ => Nat.lt_of_le_of_lt (rawSum_countFreq_le _ _ _) s.nSrc.isLt, State.tablesOk_congr ⟨rfl, rfl, rfl, rfl⟩ ht⟩

/-- `g` fills the `ENC` fields of variant `v`: it leaves frequency and start, and on valid intervals it makes a table set valid for `v`. -/
def FillsVariant (v : TVar) (g : EncEntry → Nat → Nat → EncEntry) : Prop :=
  (∀ e f c, (g e f c).freq = e.freq ∧ (g e f c).start = e.start)
    ∧ ∀ s : State, (s.buildTables v g).IntervalsOk → (s.buildTables v g).TablesOk

theorem refEntry_fillsVariant : FillsVariant .ref refEntry :=
  ⟨fun e f c => ⟨refEntry_freq e f c, refEntry_start e f c⟩, tablesOk_buildTables_ref⟩

theorem fastEntry_fillsVariant : FillsVariant .fast fastEntry :=
  ⟨fun e f c => ⟨fastEntry_freq e f c, fastEntry_start e f c⟩, tablesOk_buildTables_fast⟩

theorem faEntry_fillsVariant : FillsVariant .fa faEntry :=
  ⟨fun e f c => ⟨faEntry_freq e f c, faEntry_start e f c⟩, tablesOk_buildTables_fa⟩

/-- The table stage on valid statistics of total 16384 builds a valid table set (10 R48). -/
theorem buildTables_contentsOk {v : TVar} {g : EncEntry → Nat → Nat → EncEntry} (hg : FillsVariant v g) (hm : s.MemoryOk)
    (hs : s.StatisticsOk) (hn : s.Normalized) : (s.buildTables v g).ContentsOk := by
  obtain ⟨hstate, hend⟩ := hn
  obtain ⟨h0, hstep, -⟩ := hs hstate
  have hcount : ¬ s.sstate = .counted := by rw [hstate]; nofun
  exact ⟨hm, State.statisticsOk_congr ⟨rfl, rfl, rfl⟩ hs, fun hc => absurd hc hcount,
    hg.2 s (intervalsOk_buildTables s v g hg.1 h0 hstep hend)⟩

end Sys2Proof.Machine
end

/-! ### Every command, every host operation, every step -/

section
namespace Sys2Proof.Machine

variable {s t : State}

theorem ftCount_keepsInv (h : s.ContentsOk) : KeepsInv s s.ftCount := by
  obtain ⟨hm, -, -, ht⟩ := h
  exact ⟨State.complete_meetsInv (countStage_contentsOk hm ht) _ _, rfl⟩

theorem ftNorm_keepsInv (h : s.ContentsOk) (htotal : LegalTotal s.ftTotal) : KeepsInv s s.ftNorm := by
  obtain ⟨hm, -, -, ht⟩ := h
  obtain ⟨k, hk, htotal⟩ := htotal
  unfold State.ftNorm
  cases hn : normalizedCum s.ftTotal.toNat s.freq with
  | ok cum =>
    have hrise : RisesTo (2 ^ k) cum := htotal ▸ normalizedCum_risesTo hn
    exact ⟨State.complete_meetsInv (setStatistics_contentsOk hm ht hrise (Nat.le_of_lt_succ (List.mem_range.mp hk))) _ _, rfl⟩
  | error e => exact ⟨State.raise_meetsInv (loseStatistics_contentsOk hm ht) _, rfl⟩

variable {v : TVar} {g : EncEntry → Nat → Nat → EncEntry}

/-- `TBL.v` (41 R131, 42 R161, 43 R183). -/
theorem buildTables_keepsInv (hg : FillsVariant v g) (h : s.ContentsOk) (hn : s.Normalized) :
    KeepsInv s ((s.buildTables v g).complete .none 0) := by
  obtain ⟨hm, hs, -, -⟩ := h
  exact ⟨State.complete_meetsInv (buildTables_contentsOk hg hm hs hn) _ _, rfl⟩

/-- `INIT.v` (44 R221). -/
theorem initTables_keepsInv (hg : FillsVariant v g) (h : s.ContentsOk) : KeepsInv s (s.initTables v g) := by
  obtain ⟨hm, -⟩ := h
  unfold State.initTables
  simp only
  generalize hcount : State.countStage _ = c
  have hcm : c.MemoryOk := hcount ▸ hm
  have hctop : c.memTop = s.memTop := hcount ▸ rfl
  split
  · next cum hn =>
    have hrise : RisesTo (2 ^ 14) cum := normalizedCum_risesTo hn
    have hnormal : (c.setStatistics cum).Normalized :=
      ⟨rfl, (wordAt_setStatistics_cum hrise (by decide) (Nat.le_refl _)).trans hrise.last⟩
    have hstat := setStatistics_statisticsOk (s := c) hrise (Nat.le_refl 14)
    exact ⟨State.complete_meetsInv (buildTables_contentsOk (s := c.setStatistics cum) hg hcm hstat hnormal) _ _, hctop⟩
  · exact ⟨State.raise_meetsInv (State.contentsOk_of_invalid (s := c.loseStatistics.loseTables) hcm rfl rfl) _, hctop⟩

/-- Every command keeps the invariant. -/
theorem exec_keepsInv (h : s.ContentsOk) (i : Instr) (ht : exec i s = .next t) : KeepsInv s t := by
  unfold exec at ht
  cases i with
  | ftCount => exact withPrologue_keepsInv h ht (fun _ _ => ftCount_keepsInv h)
  | ftNorm => exact withPrologue_keepsInv h ht (fun hop _ => ftNorm_keepsInv h (of_decide_eq_true hop))
  | tblRef => exact withPrologue_keepsInv h ht (fun _ hn => buildTables_keepsInv refEntry_fillsVariant h (of_decide_eq_true hn))
  | tblFast => exact withPrologue_keepsInv h ht (fun _ hn => buildTables_keepsInv fastEntry_fillsVariant h (of_decide_eq_true hn))
  | tblFa => exact withPrologue_keepsInv h ht (fun _ hn => buildTables_keepsInv faEntry_fillsVariant h (of_decide_eq_true hn))
  | initRef => exact withPrologue_keepsInv h ht (fun _ _ => initTables_keepsInv refEntry_fillsVariant h)
  | initFast => exact withPrologue_keepsInv h ht (fun _ _ => initTables_keepsInv fastEntry_fillsVariant h)
  | initFa => exact withPrologue_keepsInv h ht (fun _ _ => initTables_keepsInv faEntry_fillsVariant h)
  | encRef | encFast =>
    exact withPrologue_keepsInv h ht (fun hop _ => finishEncode_keepsInv h (of_decide_eq_true hop) fun _ => encWords_within)
  | encFa => exact withPrologue_keepsInv h ht (fun hop _ => finishEncode_keepsInv h (of_decide_eq_true hop) fun _ => faEncode_within)
  | decRef | decFast =>
    exact withPrologue_keepsInv h ht (fun hop _ => finishDecode_keepsInv h (of_decide_eq_true hop) fun _ => decWords_within)
  | decFa => exact withPrologue_keepsInv h ht (fun hop _ => finishDecode_keepsInv h (of_decide_eq_true hop) fun _ => faDecode_within)

/-- A write of `CMD` keeps the invariant, whatever the word (30 R92, R95). -/
theorem runCommand_keepsInv (h : s.ContentsOk) {w : Word} (ht : s.runCommand w = .next t) : KeepsInv s t := by
  have hstart : (s.startCommand w).ContentsOk := h.of_same rfl rfl ⟨rfl, rfl, rfl⟩ ⟨rfl, rfl, rfl, rfl⟩
  unfold State.runCommand at ht
  split at ht
  · exact (exec_keepsInv hstart _ ht :)
  · cases ht; exact ⟨State.raise_meetsInv hstart _, rfl⟩

/-- A change of registers alone keeps the invariant. -/
theorem State.Inv.keepsInv_of_same (h : s.Inv) (hb : t.busy = s.busy) (hm : t.mem = s.mem) (htop : t.memTop = s.memTop)
    (hs : SameStatistics s t) (ht : SameTables s t) : KeepsInv s t :=
  ⟨⟨hb.trans h.1, State.ContentsOk.of_same h.2 hm htop hs ht⟩, htop⟩

theorem regRead_keepsInv (h : s.Inv) (i : BitVec 4) : KeepsInv s (s.regRead i) := by
  unfold State.regRead
  split <;> exact h.keepsInv_of_same rfl rfl rfl ⟨rfl, rfl, rfl⟩ ⟨rfl, rfl, rfl, rfl⟩

theorem writeReg_keepsInv (h : s.Inv) (w : Word) (r : Reg) : KeepsInv s (s.writeReg w r) := by
  cases r <;> exact h.keepsInv_of_same rfl rfl rfl ⟨rfl, rfl, rfl⟩ ⟨rfl, rfl, rfl, rfl⟩

theorem hostReset_keepsInv (h : s.Inv) : KeepsInv s s.hostReset := by
  obtain ⟨-, hm, -⟩ := h
  exact ⟨⟨rfl, State.contentsOk_of_invalid hm rfl rfl⟩, rfl⟩

theorem hostMemRead_keepsInv (h : s.Inv) {a : Word} (ht : s.hostMemRead a = .next t) : KeepsInv s t := by
  unfold State.hostMemRead at ht
  split at ht <;> cases ht
  exact h.keepsInv_of_same rfl rfl rfl ⟨rfl, rfl, rfl⟩ ⟨rfl, rfl, rfl, rfl⟩

theorem hostMemWrite_keepsInv (h : s.Inv) {a : Word} {b : Byte} (ht : s.hostMemWrite a b = .next t) : KeepsInv s t := by
  unfold State.hostMemWrite at ht
  split at ht <;> cases ht
  next ha =>
  obtain ⟨hbusy, hcontents⟩ := s.inv_iff.mp h
  exact ⟨⟨hbusy, setMem_contentsOk hcontents (Memory.within_write hcontents.1 ha b)⟩, rfl⟩

theorem hostOp_keepsInv (h : s.Inv) {op : HostOp} (ht : s.hostOp op = .next t) : KeepsInv s t := by
  cases op with
  | reset => cases ht; exact hostReset_keepsInv h
  | regRead i => cases ht; exact regRead_keepsInv h i
  | regWrite i w => cases ht; exact writeReg_keepsInv h w _
  | memRead a => exact hostMemRead_keepsInv h ht
  | memWrite a b => exact hostMemWrite_keepsInv h ht

/-- Taking operations off the script leaves the invariant as it was. -/
theorem State.Inv.withScript (h : s.Inv) (rest : List HostOp) : ({ s with script := rest } : State).Inv :=
  (h.keepsInv_of_same rfl rfl rfl ⟨rfl, rfl, rfl⟩ ⟨rfl, rfl, rfl, rfl⟩).1

end Sys2Proof.Machine
end

/-! ### The invariant holds at reset and every step keeps it -/

section
namespace Sys2Proof.Machine

/-- Settles O59: a step holds still, runs a command or performs another host operation, and each of these keeps every part of the invariant. -/
theorem everyStepKeepsTheInvariant : Obligations.EveryStepKeepsTheInvariant := by
  intro s t h ht
  obtain ⟨-, ho⟩ | ⟨op, rest, w, -, -, ho⟩ | ⟨op, rest, -, -, ho⟩ := step_cases ht
  · cases ho; exact ⟨h, rfl⟩
  · exact (runCommand_keepsInv (h.withScript rest).2 ho.symm :)
  · exact (hostOp_keepsInv (h.withScript rest) ho.symm :)

/-- Settles O60: memory is empty, and without statistics and tables nothing else is asked. -/
theorem resetMeetsTheInvariant : Obligations.ResetMeetsTheInvariant :=
  fun top => ⟨rfl, State.contentsOk_of_invalid (State.resetWith_memoryOk top) rfl rfl⟩

end Sys2Proof.Machine
end

/-! ### The registers the host reads -/

section
namespace Sys2Proof.Machine

/-- Bits side by side are digits: the left part counts `2 ^ m` times (10 R23). -/
theorem toNat_append_eq_add {n m : Nat} (a : BitVec n) (b : BitVec m) : (a ++ b).toNat = 2 ^ m * a.toNat + b.toNat := by
  rw [BitVec.toNat_append, ← Nat.shiftLeft_add_eq_or_of_lt b.isLt, Nat.shiftLeft_eq, Nat.mul_comm]

theorem State.statusWord_toNat (s : State) : s.statusWord.toNat
    = s.busy.toNat + 2 * s.done.toNat + 16 * s.err.code.toNat + 256 * s.sstate.code.toNat + 4096 * s.tvar.code.toNat := by
  simp only [State.statusWord, toNat_append_eq_add, BitVec.toNat_ofBool, BitVec.ofNat_eq_ofNat, BitVec.toNat_ofNat]
  omega

/-- With every field at its reset value the word is 0 (10 R46). -/
theorem State.statusWord_eq_zero {s : State} (hb : s.busy = false) (hd : s.done = false) (he : s.err = .none) (hs : s.sstate = .invalid)
    (hv : s.tvar = .none) : s.statusWord = 0 := by
  rw [State.statusWord, hb, hd, he, hs, hv]; rfl

theorem ErrorCode.code_toNat_le (e : ErrorCode) : e.code.toNat ≤ 8 := by cases e <;> decide

theorem SState.code_toNat_le (v : SState) : v.code.toNat ≤ 2 := by cases v <;> decide

/-- Settles O9: the number of the word is read off its parts; the codes are the definition's table. -/
theorem statusWordIsItsFields : Obligations.StatusWordIsItsFields := by
  refine ⟨State.statusWord_toNat, ?_, ?_, ?_, fun s => ⟨s.err.code_toNat_le, s.sstate.code_toNat_le⟩⟩ <;> decide

/-- A step with a script left performs its first operation (70 R280). -/
theorem step_of_script {s : State} {op : HostOp} {rest : List HostOp} (h : s.script = op :: rest) :
    step s = State.perform { s with script := rest } op := by
  rw [step, State.stepHost, h]

/-- While its entry is valid a table word is what `TDATA` reads (10 R28). -/
theorem State.tdata_of_valid {s : State} {a : Nat} {valid : Bool} {w : Word} (ha : s.taddr.toNat = a)
    (hw : s.tableWord a = whenValid valid w) (hv : valid = true) : s.tdata = w := by
  rw [State.tdata, ha, hw, hv]; rfl

theorem State.tableWord_freq (s : State) {b : Nat} (hb : b < 256) :
    s.tableWord b = whenValid (decide (s.sstate ≠ .invalid)) (BitVec.ofNat 32 (wordAt s.freq b)) := by
  rw [State.tableWord, if_pos hb]

theorem State.tableWord_cum (s : State) {i : Nat} (hi : i ≤ 256) :
    s.tableWord (0x100 + i) = whenValid (decide (s.sstate = .normal)) (BitVec.ofNat 32 (wordAt s.cum i)) := by
  rw [State.tableWord, if_neg (by omega), if_pos (by omega), Nat.add_sub_cancel_left]

theorem State.tableWord_inv (s : State) {k : Nat} (hk : k < 16384) :
    s.tableWord (0x4000 + k) = whenValid (decide (s.tvar ≠ .none)) ((s.invOf k).setWidth 32) := by
  rw [State.tableWord, if_neg (by omega), if_neg (by omega), if_pos (by omega), Nat.add_sub_cancel_left]

/-- The pages of 256 entries, one for each field of `ENC` and `DEC`: the low byte of the address is the symbol (10 R43). -/
theorem State.tableWord_page (s : State) (b : Byte) :
    let built := decide (s.tvar ≠ .none)
    let fast := decide (s.tvar = .fast)
    s.tableWord (0x400 + b.toNat) = whenValid built (s.encOf b).freq
      ∧ s.tableWord (0x500 + b.toNat) = whenValid built (s.encOf b).start
      ∧ s.tableWord (0x600 + b.toNat) = whenValid fast (s.encOf b).cmplFreq
      ∧ s.tableWord (0x700 + b.toNat) = whenValid fast ((s.encOf b).rcp.extractLsb' 0 32)
      ∧ s.tableWord (0x800 + b.toNat) = whenValid fast ((s.encOf b).rcp.extractLsb' 32 32)
      ∧ s.tableWord (0x900 + b.toNat) = whenValid fast (s.encOf b).rcpShift
      ∧ s.tableWord (0xA00 + b.toNat) = whenValid fast (s.encOf b).bias
      ∧ s.tableWord (0xB00 + b.toNat) = whenValid (decide (s.tvar = .fa)) (s.encOf b).delta
      ∧ s.tableWord (0xC00 + b.toNat) = whenValid built (s.decOf b).start
      ∧ s.tableWord (0xD00 + b.toNat) = whenValid built (s.decOf b).freq := by
  have hb : b.toNat < 256 := b.isLt
  have hsym (c : Nat) (hc : c % 0x100 = 0) : BitVec.ofNat 8 (c + b.toNat) = b :=
    BitVec.eq_of_toNat_eq (by rw [BitVec.toNat_ofNat]; omega)
  have hpage (c : Nat) (hc : c % 0x100 = 0) : (c + b.toNat) / 0x100 = c / 0x100 := by omega
  refine ⟨?_, ?_, ?_, ?_, ?_, ?_, ?_, ?_, ?_, ?_⟩ <;>
    (rw [State.tableWord, if_neg (by omega), if_neg (by omega), if_neg (by omega)]; simp only [hsym, hpage])

/-- A read of `TDATA` puts the table word at the end of what the host has read and takes a new occasion (30 R98, log 8, log 10). -/
theorem State.step_regRead_tdata {s : State} {rest : List HostOp} (h : s.script = .regRead 9 :: rest) :
    step s = .next { s with script := rest, reads := s.reads ++ [s.tdata], fresh := s.fresh + 1 } :=
  (step_of_script h).trans rfl

/-- Settles O12: the address picks a row of the table map, and the row's condition makes its entry valid. -/
theorem tdataReadsTheTableSpace : Obligations.TdataReadsTheTableSpace := by
  intro s
  refine ⟨fun _ h => State.step_regRead_tdata h, fun b hb ha hv => ?_, fun i hi ha hv => ?_, fun b hv => ?_, fun b hv => ?_,
    fun b hv ha => ?_, fun k hk hv ha => ?_⟩
  · rw [State.tdata_of_valid ha (s.tableWord_freq hb) (decide_eq_true hv), ofNat_wordAt_toNat]
  · rw [State.tdata_of_valid ha (s.tableWord_cum hi) (decide_eq_true hv), ofNat_wordAt_toNat]
  · obtain ⟨hfreq, hstart, -, -, -, -, -, -, hdstart, hdfreq⟩ := s.tableWord_page b
    have hvalid := decide_eq_true hv
    exact ⟨fun ha => State.tdata_of_valid ha hfreq hvalid, fun ha => State.tdata_of_valid ha hstart hvalid,
      fun ha => State.tdata_of_valid ha hdstart hvalid, fun ha => State.tdata_of_valid ha hdfreq hvalid⟩
  · obtain ⟨-, -, hcmpl, hlow, hhigh, hshift, hbias, -⟩ := s.tableWord_page b
    have hvalid := decide_eq_true hv
    refine ⟨fun ha => State.tdata_of_valid ha hcmpl hvalid, fun ha => ?_, fun ha => ?_,
      fun ha => State.tdata_of_valid ha hshift hvalid, fun ha => State.tdata_of_valid ha hbias hvalid⟩
    · rw [State.tdata_of_valid ha hlow hvalid, BitVec.extractLsb'_toNat, Nat.shiftRight_zero]
    · have hrcp := (s.encOf b).rcp.isLt
      rw [State.tdata_of_valid ha hhigh hvalid, BitVec.extractLsb'_toNat, Nat.shiftRight_eq_div_pow, Nat.mod_eq_of_lt (by omega)]
  · obtain ⟨-, -, -, -, -, -, -, hdelta, -⟩ := s.tableWord_page b
    exact State.tdata_of_valid ha hdelta (decide_eq_true hv)
  · rw [State.tdata_of_valid ha (s.tableWord_inv hk) (decide_eq_true hv), BitVec.toNat_setWidth_of_le (by decide)]

/-- Settles O14: the Reset operation leaves the script's rest, memory and what was read; the rest of the state is fixed by 10 R46. -/
theorem resetOperationValues : Obligations.ResetOperationValues := by
  intro s rest h
  have hstep : step s = .next (State.hostReset { s with script := rest }) := (step_of_script h).trans rfl
  exact ⟨_, hstep, rfl, State.statusWord_eq_zero rfl rfl rfl rfl rfl, rfl, rfl, rfl, rfl, rfl, rfl, rfl, rfl, rfl, rfl, rfl, rfl, rfl⟩

/-- Settles O15: the values stand in the definition of the reset state (10 R46). -/
theorem resetStateValues : Obligations.ResetStateValues :=
  fun _ => ⟨rfl, State.statusWord_eq_zero rfl rfl rfl rfl rfl, rfl, rfl, rfl, rfl, rfl, rfl, rfl, rfl, rfl, rfl⟩

end Sys2Proof.Machine
end

/-! ### Little-endian words -/

section
namespace Sys2Proof.Machine

/-- A 4-byte write, byte by byte: its own four bytes take the value's, the lowest first, and every other byte stays (20 R64). -/
theorem Memory.read_writeLE_four (m : Memory) (a v x : Nat) : (m.writeLE a 4 v).read x =
    if x = a then BitVec.ofNat 8 v else if x = a + 1 then BitVec.ofNat 8 (v / 2 ^ 8)
    else if x = a + 2 then BitVec.ofNat 8 (v / 2 ^ 16) else if x = a + 3 then BitVec.ofNat 8 (v / 2 ^ 24) else m.read x := by
  split_ifs with h0 h1 h2 h3
  · subst h0; simpa using m.read_writeLE_inside x 4 v 0 (by decide)
  · subst h1; exact m.read_writeLE_inside a 4 v 1 (by decide)
  · subst h2; exact m.read_writeLE_inside a 4 v 2 (by decide)
  · subst h3; exact m.read_writeLE_inside a 4 v 3 (by decide)
  · exact m.read_writeLE_outside a 4 v x (by omega)

/-- Settles O18: the recursion of the wide read written out, and the laws of the wide write at 4 bytes and at 1. -/
theorem wordsAreLittleEndian : Obligations.WordsAreLittleEndian := by
  intro m a
  refine ⟨?_, ?_, fun v _ x => m.read_writeLE_four a v x, fun v _ x => m.read_write a x _, fun v hv => ?_⟩
  · simp only [Memory.readLE]; ring
  · simp [Memory.readLE]
  · rw [Memory.readLE_writeLE, Nat.mod_eq_of_lt hv]

end Sys2Proof.Machine
end

/-! ### What an encoder writes

`WR` starts at the end of the destination and only falls, never below its start, and each write fills the bytes between the new `WR` and the
old one. So at any moment the bytes that have changed are those from `WR` to the end (20 R77). -/

section
namespace Sys2Proof.Machine

/-- `WR` stands inside the destination of `s`, and memory differs from that of `s` at most from `WR` to the destination's end. -/
def State.WrittenFromWr (s : State) (r : Run) : Prop :=
  s.aBuf.toNat ≤ r.work.wr.toNat ∧ r.work.wr.toNat ≤ s.bufEnd
    ∧ ∀ x, x < r.work.wr.toNat ∨ s.bufEnd ≤ x → r.mem.read x = s.mem.read x

/-- A part of an encoder ends with a run that meets `P`, or with one of the two errors an encoder raises (60 R243). -/
def EncodesTo (P : Run → Prop) : Except ErrorCode Run → Prop
  | .ok r => P r
  | .error e => e = .zeroFrequencySymbol ∨ e = .bufferTooSmall

variable {P : Run → Prop} {o : Except ErrorCode Run} {s : State} {r r' : Run}

theorem EncodesTo.intro (hok : ∀ r, o = .ok r → P r) (herror : ∀ e, o = .error e → e = .zeroFrequencySymbol ∨ e = .bufferTooSmall) :
    EncodesTo P o := by
  cases o with
  | ok r => exact hok r rfl
  | error e => exact herror e rfl

/-- Two parts in sequence: the second runs from where the first ended. -/
theorem EncodesTo.bind {f : Run → Except ErrorCode Run} (ho : EncodesTo P o) (hf : ∀ r, P r → EncodesTo P (f r)) :
    EncodesTo P (o >>= f) := by
  cases o with
  | ok r => exact hf r ho
  | error e => exact ho

/-- The end of the destination fits the 33 bits of a cursor (10 R31). -/
theorem State.bufEnd_lt (s : State) : s.bufEnd < 2 ^ 33 := by
  have ha := s.aBuf.isLt
  have hn := s.nBuf.isLt
  rw [State.bufEnd]; omega

/-- The one move of every stream write: `WR` falls by `n` within the destination, and the `n` bytes there are the only ones that change. -/
theorem State.WrittenFromWr.lower (hr : s.WrittenFromWr r) {n : Nat} (hroom : n ≤ r.work.wr.toNat - s.aBuf.toNat)
    (hwr : r'.work.wr = BitVec.ofNat 33 (r.work.wr.toNat - n))
    (hmem : ∀ x, x < r.work.wr.toNat - n ∨ r.work.wr.toNat ≤ x → r'.mem.read x = r.mem.read x) : s.WrittenFromWr r' := by
  obtain ⟨hlow, hhigh, hsame⟩ := hr
  have hval : r'.work.wr.toNat = r.work.wr.toNat - n := by
    have := r.work.wr.isLt
    rw [hwr, BitVec.toNat_ofNat, Nat.mod_eq_of_lt (by omega)]
  refine ⟨by omega, by omega, fun x hx => ?_⟩
  rw [hmem x (by omega), hsame x (by omega)]

theorem State.WrittenFromWr.setIdx (hr : s.WrittenFromWr r) (i : Nat) : s.WrittenFromWr (r.setIdx i) := hr

theorem emit_encodesTo (hr : s.WrittenFromWr r) (n v : Nat) : EncodesTo s.WrittenFromWr (r.emit s.aBuf.toNat n v) := by
  refine .intro (fun r' h => ?_) (fun e h => .inr (emit_error h).1)
  obtain ⟨hroom, rfl⟩ := emit_ok h
  exact hr.lower (by omega) rfl fun x hx => Memory.read_writeLE_outside _ _ _ _ _ (by omega)

/-- An encode step of `REF` or `FAST` (41 R136 to R138, 42 R167). -/
theorem encStep_encodesTo {update : EncEntry → DWord → Nat} (hr : s.WrittenFromWr r) (b : Byte) :
    EncodesTo s.WrittenFromWr (encStep update s b r) := by
  refine .intro (fun r' h => ?_) (fun e h => (encStep_error h).imp And.right fun herr => herr.2.1)
  obtain ⟨-, a, ha, rfl⟩ := encStep_ok h
  obtain ⟨-, rfl⟩ | ⟨-, hroom, rfl⟩ := renormalize_ok ha
  · exact hr
  · exact hr.lower hroom rfl fun x hx => Memory.read_writeLE_outside _ _ _ _ _ (by omega)

theorem encLoop_encodesTo {step : Byte → Run → Except ErrorCode Run} {src : Nat} (hidx : ∀ r i, P r → P (r.setIdx i))
    (hstep : ∀ b r, P r → EncodesTo P (step b r)) : ∀ (n : Nat) {r : Run}, P r → EncodesTo P (encLoop step src n r)
  | 0, _, hr => hr
  | n + 1, _, hr => (hstep _ _ (hidx _ n hr)).bind fun _ ha => encLoop_encodesTo hidx hstep n ha

theorem flushState_encodesTo (hr : s.WrittenFromWr r) : EncodesTo s.WrittenFromWr (flushState s.aBuf.toNat r) := by
  refine .intro (fun r' h => ?_) (fun e h => .inr (flushState_error h).1)
  obtain ⟨hroom, rfl⟩ := flushState_ok h
  refine hr.lower hroom rfl fun x hx => ?_
  rw [Memory.read_writeLE_outside _ _ _ _ _ (by omega), Memory.read_writeLE_outside _ _ _ _ _ (by omega)]

/-- Every encoder starts with `WR` at the end of the destination and memory as it was (41 R135, 43 R189). -/
theorem writtenFromWr_of_start (hmem : r.mem = s.mem) (hwr : r.work.wr = BitVec.ofNat 33 s.bufEnd) : s.WrittenFromWr r := by
  have hval : r.work.wr.toNat = s.bufEnd := by rw [hwr, BitVec.toNat_ofNat, Nat.mod_eq_of_lt s.bufEnd_lt]
  exact ⟨hval ▸ Nat.le_add_right _ _, hval.le, fun x _ => by rw [hmem]⟩

/-- The run of `ENC.REF` and `ENC.FAST`. -/
theorem encWords_encodesTo (update : EncEntry → DWord → Nat) (s : State) : EncodesTo s.WrittenFromWr (s.encWords update) :=
  (encLoop_encodesTo (fun _ i hr => hr.setIdx i) (fun b _ hr => encStep_encodesTo hr b) _ (writtenFromWr_of_start rfl rfl)).bind
    fun _ ha => flushState_encodesTo ha

/-- A byte flush is a stream write; the accumulator is no part of what has been written. -/
theorem flushByte_encodesTo (hr : s.WrittenFromWr r) : EncodesTo s.WrittenFromWr (flushByte s.aBuf.toNat r) :=
  (emit_encodesTo hr 1 _).bind fun _ ha => ha

theorem flushBytes_encodesTo : ∀ (n : Nat) {r : Run}, s.WrittenFromWr r → EncodesTo s.WrittenFromWr (flushBytes s.aBuf.toNat n r)
  | 0, _, hr => hr
  | n + 1, _, hr => (flushByte_encodesTo hr).bind fun _ ha => flushBytes_encodesTo n ha

theorem flushBits_encodesTo (hr : s.WrittenFromWr r) : EncodesTo s.WrittenFromWr (flushBits s.aBuf.toNat r) :=
  flushBytes_encodesTo _ hr

/-- An encode step of `FA` writes nothing: its bits stay in the accumulator (43 R191). -/
theorem faEncStep_encodesTo (hr : s.WrittenFromWr r) (b : Byte) : EncodesTo s.WrittenFromWr (faEncStep s b r) := by
  obtain ⟨-, h⟩ | ⟨-, h⟩ := faEncStep_cases s b r
  · rw [h]; exact .inl rfl
  · rw [h]; exact hr

theorem faEncLoop_encodesTo {src : Nat} : ∀ (n : Nat) {r : Run}, s.WrittenFromWr r →
    EncodesTo s.WrittenFromWr (faEncLoop s src s.aBuf.toNat n r)
  | 0, _, hr => flushBits_encodesTo hr
  | 1, _, hr => (faEncStep_encodesTo (hr.setIdx 1) _).bind fun _ h₁ => flushBits_encodesTo h₁
  | 2, _, hr =>
    (faEncStep_encodesTo (hr.setIdx 2) _).bind fun _ h₁ => (faEncStep_encodesTo (h₁.setIdx 1) _).bind fun _ h₂ => flushBits_encodesTo h₂
  | n + 3, _, hr =>
    (faEncStep_encodesTo (hr.setIdx (n + 3)) _).bind fun _ h₁ => (faEncStep_encodesTo h₁ _).bind fun _ h₂ =>
      (faEncStep_encodesTo h₂ _).bind fun _ h₃ => (flushBits_encodesTo h₃).bind fun _ h₄ => faEncLoop_encodesTo n h₄

/-- The run of `ENC.FA`. -/
theorem faEncode_encodesTo (s : State) : EncodesTo s.WrittenFromWr s.faEncode :=
  (faEncLoop_encodesTo _ (writtenFromWr_of_start rfl rfl)).bind fun _ ha => flushBits_encodesTo ha

end Sys2Proof.Machine
end

/-! ### The frame of a coding command -/

section
namespace Sys2Proof.Machine

variable {s t : State} {o : Except ErrorCode Run} {r : Run}

/-- The memory of a run differs from that of `s` inside the destination region of `s` only (20 R78). -/
def State.WrittenInside (s : State) (r : Run) : Prop := ∀ x, x < s.aBuf.toNat ∨ s.bufEnd ≤ x → r.mem.read x = s.mem.read x

theorem State.WrittenFromWr.inside (hr : s.WrittenFromWr r) : s.WrittenInside r := by
  obtain ⟨hlow, -, hsame⟩ := hr
  exact fun x hx => hsame x (by omega)

theorem EncodesTo.writtenInside (ho : EncodesTo s.WrittenFromWr o) (h : o = .ok r) : s.WrittenInside r := by
  subst h; exact State.WrittenFromWr.inside ho

/-- A decode loop whose step changes memory by the symbol it writes changes the destination only (41 R143, 43 R199). -/
theorem decLoop_writtenInside {step : Nat → Run → Except ErrorCode Run} {start : Run}
    (hstep : ∀ i r r', step i r = .ok r' → r'.mem = (s.decodeSymbol i r).mem) (hstart : start.mem = s.mem)
    (h : decLoop step s.nBuf.toNat 0 start = .ok r) : s.WrittenInside r := by
  refine decLoop_keeps s.WrittenInside (fun _ _ hr => hr) 0 s.nBuf.toNat (fun i r r' _ hi hr h => ?_) _ 0 start r
    (Nat.le_refl _) (by omega) (fun x _ => by rw [hstart]) h
  intro x hx
  have hne : x ≠ s.aBuf.toNat + i := by rw [State.bufEnd] at hx; omega
  rw [hstep i r r' h, State.decodeSymbol_mem, Memory.read_write_ne _ _ hne, hr x hx]

theorem decWords_writtenInside (h : s.decWords = .ok r) : s.WrittenInside r := by
  obtain ⟨a, ha, hloop⟩ := (bind_eq_ok _ _ _).mp h
  exact decLoop_writtenInside (fun _ _ _ => decStepRef_mem) (readTwoWords_mem ha) hloop

theorem faDecode_writtenInside (h : s.faDecode = .ok r) : s.WrittenInside r := by
  obtain ⟨a, ha, hloop⟩ := (bind_eq_ok _ _ _).mp h
  exact decLoop_writtenInside (fun _ _ _ => faDecStep_mem) (readState_mem ha) hloop

/-- Everything but `STATUS`, `RESULT`, the working registers and buffer memory is as before. -/
def SameButMemory (s t : State) : Prop := SameInputs s t ∧ SameStatistics s t ∧ SameTables s t

theorem SameInputs.refl (s : State) : SameInputs s s := ⟨rfl, rfl, rfl, rfl, rfl, rfl, rfl, rfl, rfl, rfl⟩

/-- Completion, in whatever state of memory, changes `STATUS`, `RESULT` and the working registers (30 R93). -/
theorem complete_sameButMemory (s : State) (m : Memory) (e : ErrorCode) (w : Word) :
    SameButMemory s (({ s with mem := m } : State).complete e w) :=
  ⟨SameInputs.refl s, ⟨rfl, rfl, rfl⟩, ⟨rfl, rfl, rfl, rfl⟩⟩

/-- A coding command ends with the run's memory or with the destination lost; either way no byte outside the destination changes
(20 R78, 60 R237). -/
theorem codingEnd_frame (ho : ∀ r, o = .ok r → s.WrittenInside r)
    (ht : (∃ r w, o = .ok r ∧ t = { s with mem := r.mem }.complete .none w) ∨ ∃ e, o = .error e ∧ t = s.loseDestination.raise e) :
    SameButMemory s t ∧ SameMemoryOutside s t s.aBuf.toNat s.nBuf.toNat := by
  obtain ⟨r, w, hr, rfl⟩ | ⟨e, -, rfl⟩ := ht
  · exact ⟨complete_sameButMemory s _ _ _, ho r hr⟩
  · refine ⟨complete_sameButMemory s _ _ _, fun x hx => ?_⟩
    rw [State.raise_mem, State.loseDestination_mem, Memory.read_fill, if_neg (by omega)]

theorem finishEncode_frame (ho : EncodesTo s.WrittenFromWr o) :
    SameButMemory s (s.finishEncode o) ∧ SameMemoryOutside s (s.finishEncode o) s.aBuf.toNat s.nBuf.toNat :=
  codingEnd_frame (fun _ => ho.writtenInside) ((finishEncode_cases s o).imp_left fun ⟨r, hr, ht⟩ => ⟨r, _, hr, ht⟩)

theorem finishDecode_frame (ho : ∀ r, o = .ok r → s.WrittenInside r) :
    SameButMemory s (s.finishDecode o) ∧ SameMemoryOutside s (s.finishDecode o) s.aBuf.toNat s.nBuf.toNat :=
  codingEnd_frame ho ((finishDecode_cases s o).imp_left fun ⟨r, hr, ht⟩ => ⟨r, _, hr, ht⟩)

/-- The bytes an encoder without error changed are the last `RESULT` bytes of its destination (20 R77). -/
def ChangedLastResultBytes (s t : State) : Prop :=
  t.result.toNat ≤ s.nBuf.toNat ∧ SameMemoryOutside s t (s.bufEnd - t.result.toNat) t.result.toNat

/-- Without error `RESULT` is what lies between `WR` and the end of the destination; no error of an encoder has code 0. -/
theorem finishEncode_changedLastResultBytes (ho : EncodesTo s.WrittenFromWr o) (hnone : (s.finishEncode o).err = .none) :
    ChangedLastResultBytes s (s.finishEncode o) := by
  cases o with
  | ok r =>
    obtain ⟨hlow, hhigh, hsame⟩ := ho
    have hend : s.bufEnd = s.aBuf.toNat + s.nBuf.toNat := rfl
    have hresult : (s.finishEncode (.ok r)).result.toNat = s.bufEnd - r.work.wr.toNat := by
      have hn := s.nBuf.isLt
      simp only [State.finishEncode, State.complete_result, if_true, BitVec.toNat_ofNat]
      exact Nat.mod_eq_of_lt (by omega)
    exact ⟨by omega, fun x hx => hsame x (by omega)⟩
  | error e =>
    have he : e = .none := hnone
    subst he
    obtain h | h := ho <;> cases h

end Sys2Proof.Machine
end

/-! ### The frame of every command -/

section
namespace Sys2Proof.Machine

/-- The rule of a command after its prologue, one arm for each row of the opcode map (30 R94). -/
def ruleOf : Instr → State → State
  | .ftCount => State.ftCount
  | .ftNorm => State.ftNorm
  | .tblRef => fun s => (s.buildTables .ref refEntry).complete .none 0
  | .tblFast => fun s => (s.buildTables .fast fastEntry).complete .none 0
  | .tblFa => fun s => (s.buildTables .fa faEntry).complete .none 0
  | .initRef => fun s => s.initTables .ref refEntry
  | .initFast => fun s => s.initTables .fast fastEntry
  | .initFa => fun s => s.initTables .fa faEntry
  | .encRef => fun s => s.finishEncode (s.encWords refUpdate)
  | .encFast => fun s => s.finishEncode (s.encWords fastUpdate)
  | .encFa => fun s => s.finishEncode s.faEncode
  | .decRef | .decFast => fun s => s.finishDecode s.decWords
  | .decFa => fun s => s.finishDecode s.faDecode

/-- Every command is its rule behind a prologue (30 R103). -/
theorem exec_eq_withPrologue (i : Instr) (s : State) : ∃ ok ready, exec i s = withPrologue ok ready s (ruleOf i) := by
  cases i with
  | tblRef | tblFast | tblFa => exact ⟨true, _, rfl⟩
  | _ => exact ⟨_, _, rfl⟩

/-- What a command can do: raise an error of the prologue, or follow its rule. -/
theorem exec_cases {i : Instr} {s t : State} (h : exec i s = .next t) : (∃ e ≠ ErrorCode.none, t = s.raise e) ∨ t = ruleOf i s := by
  obtain ⟨ok, ready, hexec⟩ := exec_eq_withPrologue i s
  obtain ⟨-, rfl⟩ | ⟨-, -, rfl⟩ | ⟨-, -, rfl⟩ := withPrologue_cases (hexec ▸ h)
  · exact .inl ⟨.badOperand, nofun, rfl⟩
  · exact .inl ⟨.notReady, nofun, rfl⟩
  · exact .inr rfl

/-- `FT.NORM` with or without a donor: the statistics are new or lost, the rest of the contents stays (40 R119, 60 R237). -/
theorem ftNorm_frame (s : State) : SameInputs s s.ftNorm ∧ SameTables s s.ftNorm ∧ s.ftNorm.mem = s.mem := by
  unfold State.ftNorm
  split <;> exact ⟨SameInputs.refl s, ⟨rfl, rfl, rfl, rfl⟩, rfl⟩

/-- `INIT.v` with or without its unreachable error (44 R221). -/
theorem initTables_frame (s : State) (v : TVar) (g : EncEntry → Nat → Nat → EncEntry) :
    SameInputs s (s.initTables v g) ∧ (s.initTables v g).mem = s.mem := by
  unfold State.initTables
  simp only
  split <;> exact ⟨SameInputs.refl s, rfl⟩

variable {i : Instr}

/-- The coding commands change nothing but memory, and that inside their destination (20 R78). -/
theorem ruleOf_coding_frame (hw : writesMemory i = true) (s : State) :
    SameButMemory s (ruleOf i s) ∧ SameMemoryOutside s (ruleOf i s) s.aBuf.toNat s.nBuf.toNat := by
  cases i with
  | ftCount | ftNorm | tblRef | tblFast | tblFa | initRef | initFast | initFa => cases hw
  | encRef | encFast => exact finishEncode_frame (encWords_encodesTo _ s)
  | encFa => exact finishEncode_frame (faEncode_encodesTo s)
  | decRef | decFast => exact finishDecode_frame fun _ => decWords_writtenInside
  | decFa => exact finishDecode_frame fun _ => faDecode_writtenInside

/-- The other commands change neither memory nor what the host writes (20 R67). -/
theorem ruleOf_building_frame (hw : writesMemory i = false) (s : State) : SameInputs s (ruleOf i s) ∧ (ruleOf i s).mem = s.mem := by
  cases i with
  | ftCount | tblRef | tblFast | tblFa => exact ⟨SameInputs.refl s, rfl⟩
  | ftNorm =>
    obtain ⟨hin, -, hmem⟩ := ftNorm_frame s
    exact ⟨hin, hmem⟩
  | initRef | initFast | initFa => exact initTables_frame s _ _
  | encRef | encFast | encFa | decRef | decFast | decFa => cases hw

/-- `FT.COUNT` and `FT.NORM` leave the table set (10 R48). -/
theorem ruleOf_counting_sameTables (hi : i ∈ [Instr.ftCount, .ftNorm]) (s : State) : SameTables s (ruleOf i s) := by
  simp only [List.mem_cons, List.not_mem_nil, or_false] at hi
  obtain rfl | rfl := hi
  · exact ⟨rfl, rfl, rfl, rfl⟩
  · obtain ⟨-, htab, -⟩ := ftNorm_frame s
    exact htab

/-- `TBL.v` leaves the statistics. -/
theorem ruleOf_tables_sameStatistics (hi : i ∈ [Instr.tblRef, .tblFast, .tblFa]) (s : State) : SameStatistics s (ruleOf i s) := by
  simp only [List.mem_cons, List.not_mem_nil, or_false] at hi
  obtain rfl | rfl | rfl := hi <;> exact ⟨rfl, rfl, rfl⟩

theorem ruleOf_encoder_changedLastResultBytes (hi : i ∈ [Instr.encRef, .encFast, .encFa]) (s : State)
    (hnone : (ruleOf i s).err = .none) : ChangedLastResultBytes s (ruleOf i s) := by
  simp only [List.mem_cons, List.not_mem_nil, or_false] at hi
  obtain rfl | rfl | rfl := hi
  · exact finishEncode_changedLastResultBytes (encWords_encodesTo _ s) hnone
  · exact finishEncode_changedLastResultBytes (encWords_encodesTo _ s) hnone
  · exact finishEncode_changedLastResultBytes (faEncode_encodesTo s) hnone

theorem SameMemoryOutside.of_mem_eq {s t : State} (h : t.mem = s.mem) (a n : Nat) : SameMemoryOutside s t a n := fun _ _ => by rw [h]

/-- Settles O21: a prologue error changes `STATUS`, `RESULT` and working registers only, and each rule has its frame. -/
theorem frameOfEveryCommand : Obligations.FrameOfEveryCommand := by
  intro i s t h
  obtain ⟨e, he, rfl⟩ | rfl := exec_cases h
  · obtain ⟨hin, hstat, htab⟩ : SameButMemory s (s.raise e) := complete_sameButMemory s s.mem e 0
    exact ⟨hin, .of_mem_eq rfl _ _, fun _ => rfl, fun _ => ⟨hstat, htab⟩, fun _ => htab, fun _ => hstat, fun _ hnone => absurd hnone he⟩
  · have hcounting := fun hi => ruleOf_counting_sameTables (i := i) hi s
    have htables := fun hi => ruleOf_tables_sameStatistics (i := i) hi s
    have hencoder := fun hi => ruleOf_encoder_changedLastResultBytes (i := i) hi s
    cases hw : writesMemory i with
    | true =>
      obtain ⟨⟨hin, hstat, htab⟩, hout⟩ := ruleOf_coding_frame hw s
      exact ⟨hin, hout, nofun, fun _ => ⟨hstat, htab⟩, hcounting, htables, hencoder⟩
    | false =>
      obtain ⟨hin, hmem⟩ := ruleOf_building_frame hw s
      exact ⟨hin, .of_mem_eq hmem _ _, fun _ => hmem, nofun, hcounting, htables, hencoder⟩

end Sys2Proof.Machine
end

/-! ### The opcode map: decoder and encoder are inverse to each other -/

section
namespace Sys2Proof.Machine

variable {w : Word} {i : Instr}

/-- The decoder reads back each row of the opcode map (30 R91, R94). -/
theorem decode_encode (i : Instr) : decode (encode i) = .ok i := by
  cases i <;> rfl

/-- A command word is its three fields side by side (30 R90). -/
theorem fields_append (w : Word) : zeroField w ++ opField w ++ varField w = w := by
  have hhigh : zeroField w ++ opField w = w.extractLsb' 4 28 := BitVec.extractLsb'_append_extractLsb'_eq_extractLsb' rfl
  have hword : w.extractLsb' 4 28 ++ varField w = w.extractLsb' 0 32 := BitVec.extractLsb'_append_extractLsb'_eq_extractLsb' rfl
  rw [hhigh, hword, BitVec.extractLsb'_eq_self]

/-- Each accepted pair of `OP` and `VAR` is that of its command's row: no other pair has an arm of its own (30 R91, R95). -/
theorem fields_of_decodeFields {op var : Nat} (h : decodeFields op var = .ok i) :
    op = (encodeFields i).1.toNat ∧ var = (encodeFields i).2.toNat := by
  unfold decodeFields at h
  split at h
  case h_15 => split at h <;> cases h
  all_goals cases h; exact ⟨rfl, rfl⟩

/-- The decoder accepts a word only when `ZERO` is 0 and `OP` and `VAR` are a row of the opcode map (30 R91, R95). -/
theorem fields_of_decode (h : decode w = .ok i) :
    zeroField w = 0 ∧ opField w = (encodeFields i).1 ∧ varField w = (encodeFields i).2 := by
  unfold decode at h
  split at h
  next hz =>
    obtain ⟨hop, hvar⟩ := fields_of_decodeFields h
    exact ⟨hz, BitVec.eq_of_toNat_eq hop, BitVec.eq_of_toNat_eq hvar⟩
  next => cases h

/-- Settles O3: an accepted word has the fields of its command's row, and the fields are the whole word. -/
theorem decodeAcceptsExactlyTheMap : Obligations.DecodeAcceptsExactlyTheMap := by
  intro w i
  constructor
  · intro h
    obtain ⟨hzero, hop, hvar⟩ := fields_of_decode h
    calc w = zeroField w ++ opField w ++ varField w := (fields_append w).symm
      _ = encode i := by rw [hzero, hop, hvar, encode]
  · rintro rfl
    exact decode_encode i

/-- Settles O1: the words are those the encoder writes. -/
theorem decodesOpcodeMapWords : Obligations.DecodesOpcodeMapWords :=
  ⟨decode_encode .ftCount, decode_encode .ftNorm, decode_encode .tblRef, decode_encode .tblFast, decode_encode .tblFa,
    decode_encode .initRef, decode_encode .initFast, decode_encode .initFa, decode_encode .encRef, decode_encode .encFast,
    decode_encode .encFa, decode_encode .decRef, decode_encode .decFast, decode_encode .decFa⟩

/-- Settles O2: a command has no operand field, so nothing more is asked of it (30 R96). -/
theorem decodeOfEncode : Obligations.DecodeOfEncode := fun i _ => decode_encode i

end Sys2Proof.Machine
end

/-! ### Every command completes -/

section
namespace Sys2Proof.Machine

/-- The state a command leaves (30 R93): `DONE` = 1, `BUSY` = 0, and `RESULT` = 0 after an error. -/
def Completed (t : State) : Prop := t.done = true ∧ t.busy = false ∧ (t.err ≠ .none → t.result = 0)

theorem complete_completed (s : State) (e : ErrorCode) (r : Word) : Completed (s.complete e r) :=
  ⟨rfl, rfl, fun he => if_neg he⟩

theorem raise_completed (s : State) (e : ErrorCode) : Completed (s.raise e) := complete_completed s e 0

theorem ftNorm_completed (s : State) : Completed s.ftNorm := by
  unfold State.ftNorm
  split
  · exact complete_completed _ _ _
  · exact raise_completed _ _

theorem initTables_completed (s : State) (v : TVar) (g : EncEntry → Nat → Nat → EncEntry) : Completed (s.initTables v g) := by
  unfold State.initTables
  simp only
  split
  · exact complete_completed _ _ _
  · exact raise_completed _ _

theorem finishEncode_completed (s : State) (o : Except ErrorCode Run) : Completed (s.finishEncode o) := by
  cases o with
  | ok r => exact complete_completed _ _ _
  | error e => exact raise_completed _ _

theorem finishDecode_completed (s : State) (o : Except ErrorCode Run) : Completed (s.finishDecode o) := by
  cases o with
  | ok r => exact complete_completed _ _ _
  | error e => exact raise_completed _ _

/-- Each rule ends in a completion, with or without an error. -/
theorem ruleOf_completed (i : Instr) (s : State) : Completed (ruleOf i s) := by
  cases i with
  | ftCount | tblRef | tblFast | tblFa => exact complete_completed _ _ _
  | ftNorm => exact ftNorm_completed s
  | initRef | initFast | initFa => exact initTables_completed s _ _
  | encRef | encFast | encFa => exact finishEncode_completed s _
  | decRef | decFast | decFa => exact finishDecode_completed s _

/-- A prologue never stops: it raises its error or hands over to the rule (30 R103). -/
theorem withPrologue_completes {body : State → State} (hbody : ∀ s, Completed (body s)) (ok ready : Bool) (s : State) :
    ∃ t, withPrologue ok ready s body = .next t ∧ Completed t := by
  unfold withPrologue
  split_ifs
  · exact ⟨_, rfl, hbody s⟩
  · exact ⟨_, rfl, raise_completed s _⟩
  · exact ⟨_, rfl, raise_completed s _⟩

/-- Settles O8: every command is a rule that completes behind a prologue that completes. -/
theorem everyCommandCompletes : Obligations.EveryCommandCompletes := by
  intro i s
  obtain ⟨ok, ready, hexec⟩ := exec_eq_withPrologue i s
  rw [hexec]
  exact withPrologue_completes (ruleOf_completed i) ok ready s

end Sys2Proof.Machine
end

/-! ### Register and memory accesses of the host -/

section
namespace Sys2Proof.Machine

variable {s : State} {i : BitVec 4}

/-- A command starts only through register 0 (10 R21). -/
theorem Reg.ofIndex_eq_cmd : Reg.ofIndex i = .cmd ↔ i = 0 := by
  decide +revert

theorem Reg.ofIndex_eq_tdata : Reg.ofIndex i = .tdata ↔ i = 9 := by
  decide +revert

theorem Reg.ofIndex_eq_reserved : Reg.ofIndex i = .reserved ↔ 10 ≤ i := by
  decide +revert

/-- The registers that ignore a write (30 R99), and `CMD`, whose write is not a store. -/
theorem Reg.ofIndex_not_stored (hi : i < 3 ∨ 8 < i) : Reg.ofIndex i ∈ [Reg.cmd, .status, .result, .tdata, .reserved] := by
  decide +revert

/-- A write of a register that stores nothing changes nothing (30 R99). -/
theorem State.writeReg_not_stored (hi : i < 3 ∨ 8 < i) (s : State) (v : Word) : s.writeReg v (Reg.ofIndex i) = s := by
  have hmem := Reg.ofIndex_not_stored hi
  cases hreg : Reg.ofIndex i with
  | cmd | status | result | tdata | reserved => rfl
  | aSrc | nSrc | aBuf | nBuf | ftTotal | taddr => exact absurd (hreg ▸ hmem) (by decide)

/-- A read of a register other than `TDATA` puts its value at the end of what the host has read (30 R98, log 10). -/
theorem State.regRead_of_ne_tdata (hi : i ≠ 9) (s : State) : s.regRead i = s.observe (s.readReg (Reg.ofIndex i)) := by
  unfold State.regRead
  split
  next h => exact absurd (Reg.ofIndex_eq_tdata.mp h) hi
  next => rfl

/-- A write of a register runs a command when the register is `CMD`, else it stores or does nothing (30 R99). -/
theorem State.perform_regWrite (s : State) (i : BitVec 4) (v : Word) : s.perform (.regWrite i v) =
    if i = 0 then s.runCommand v else .next (s.writeReg v (Reg.ofIndex i)) := by
  unfold State.perform commandOf
  simp only [Reg.ofIndex_eq_cmd]
  split_ifs <;> rfl

/-- Settles O10: each index but 9 names its register, whose value the host keeps; from 10 up the register is reserved. -/
theorem regReadReturnsTheRegister : Obligations.RegReadReturnsTheRegister := by
  intro s i rest h hi
  have hstep : step s = .next (State.regRead { s with script := rest } i) := (step_of_script h).trans rfl
  rw [hstep, State.regRead_of_ne_tdata hi]
  split_ifs with h0 h1 h2 h3 h4 h5 h6 h7 h8
  case neg =>
    rw [Reg.ofIndex_eq_reserved.mpr (by bv_omega)]
    rfl
  all_goals subst i; rfl

/-- Settles O11: index 0 runs the command, 3 to 8 name the registers that store, and every other index names one that does not. -/
theorem regWriteStoresOrRuns : Obligations.RegWriteStoresOrRuns := by
  intro s i v rest h
  rw [step_of_script h, State.perform_regWrite]
  split_ifs with h0 h3 h4 h5 h6 h7 h8
  case neg => rw [State.writeReg_not_stored (by bv_omega)]
  all_goals subst i; rfl

/-- Settles O5: a write of `CMD` runs the word, and a legal word runs its command. -/
theorem stepRunsDecodedCommand : Obligations.StepRunsDecodedCommand := by
  intro s r w rest i h hr hdecode
  rw [step_of_script h, State.perform_regWrite, if_pos hr, State.runCommand, hdecode]

theorem State.hostMemRead_of_lt {a : Word} (ha : a.toNat < s.memSize) :
    s.hostMemRead a = .next (s.observe ((s.mem.read a.toNat).setWidth 32)) := if_pos ha

theorem State.hostMemWrite_of_lt {a : Word} (ha : a.toNat < s.memSize) (b : Byte) :
    s.hostMemWrite a b = .next { s with mem := s.mem.write a.toNat b } := if_pos ha

/-- Settles O13: below MEM_SIZE neither access faults; what is read after the write is the law of memory. -/
theorem hostMemoryAccess : Obligations.HostMemoryAccess := by
  constructor
  · intro s a b rest h ha
    have hwrite := State.hostMemWrite_of_lt (s := { s with script := rest }) ha b
    exact ⟨s.mem.write a.toNat b, (step_of_script h).trans hwrite, fun x => s.mem.read_write a.toNat x b⟩
  · intro s a rest h ha
    have hread := State.hostMemRead_of_lt (s := { s with script := rest }) ha
    exact (step_of_script h).trans hread

end Sys2Proof.Machine
end

/-! ### The donor and the shift -/

section
namespace Sys2Proof.Machine

/-- What the donor scan holds after the first `n` symbols (40 R117): nothing while no frequency is above 1, else the first symbol among those
of the smallest frequency above 1. -/
def FirstOfTheSmallest (cum : Nat → Nat) (n : Nat) : Option Nat → Prop
  | none => ∀ j < n, gap cum j ≤ 1
  | some d =>
    d < n ∧ 1 < gap cum d ∧ (∀ j < n, 1 < gap cum j → gap cum d ≤ gap cum j) ∧ ∀ j < d, 1 < gap cum j → gap cum d < gap cum j

variable {cum : Nat → Nat} {n : Nat} {best : Option Nat}

/-- The next symbol becomes the choice when its frequency is above 1 and below all those before it. -/
theorem FirstOfTheSmallest.take (hgap : 1 < gap cum n) (hless : ∀ j < n, 1 < gap cum j → gap cum n < gap cum j) :
    FirstOfTheSmallest cum (n + 1) (some n) :=
  ⟨n.lt_succ_self, hgap, Nat.forall_lt_succ_right.mpr ⟨fun j hj hgapj => (hless j hj hgapj).le, fun _ => Nat.le_refl _⟩, hless⟩

/-- The choice stays when the next symbol's frequency is not above 1 or not smaller. -/
theorem FirstOfTheSmallest.keep (h : FirstOfTheSmallest cum n best)
    (hnext : 1 < gap cum n → ∃ d, best = some d ∧ gap cum d ≤ gap cum n) : FirstOfTheSmallest cum (n + 1) best := by
  cases best with
  | none => exact Nat.forall_lt_succ_right.mpr ⟨h, Nat.not_lt.mp fun hgap => nomatch hnext hgap⟩
  | some d =>
    obtain ⟨hd, hgap, hmin, hfirst⟩ := h
    refine ⟨Nat.lt_succ_of_lt hd, hgap, Nat.forall_lt_succ_right.mpr ⟨hmin, fun hgapn => ?_⟩, hfirst⟩
    obtain ⟨e, he, hle⟩ := hnext hgapn
    cases he
    exact hle

theorem donorScan_firstOfTheSmallest (h : FirstOfTheSmallest cum n best) : FirstOfTheSmallest cum (n + 1) (donorScan cum best n) := by
  unfold donorScan
  split
  case isFalse hgap => exact h.keep fun hgap' => absurd hgap' hgap
  case isTrue hgap =>
    cases best with
    | none => exact .take hgap fun j hj hgapj => absurd hgapj (Nat.not_lt.mpr (h j hj))
    | some d =>
      simp only
      split
      case isTrue hless =>
        obtain ⟨-, -, hmin, -⟩ := h
        exact .take hgap fun j hj hgapj => hless.trans_le (hmin j hj hgapj)
      case isFalse hless => exact h.keep fun _ => ⟨d, rfl, Nat.not_lt.mp hless⟩

theorem donor_firstOfTheSmallest (cum : Nat → Nat) : FirstOfTheSmallest cum 256 (donor cum) := by
  have scan : ∀ n, FirstOfTheSmallest cum n ((List.range n).foldl (donorScan cum) none) := by
    intro n
    induction n with
    | zero => exact fun j hj => absurd hj (Nat.not_lt_zero j)
    | succ n ih =>
      rw [List.range_succ, List.foldl_append]
      exact donorScan_firstOfTheSmallest ih
  exact scan 256

/-- The rule for the donor leaves no choice. -/
theorem FirstOfTheSmallest.unique {o o' : Option Nat} (h : FirstOfTheSmallest cum n o) (h' : FirstOfTheSmallest cum n o') : o = o' := by
  cases o with
  | none =>
    cases o' with
    | none => rfl
    | some d =>
      obtain ⟨hd, hgap, -⟩ := h'
      exact absurd hgap (Nat.not_lt.mpr (h d hd))
  | some d =>
    cases o' with
    | none =>
      obtain ⟨hd, hgap, -⟩ := h
      exact absurd hgap (Nat.not_lt.mpr (h' d hd))
    | some d' =>
      obtain ⟨hd, hgap, hmin, hfirst⟩ := h
      obtain ⟨hd', hgap', hmin', hfirst'⟩ := h'
      have hle := hmin d' hd' hgap'
      have hle' := hmin' d hd hgap
      obtain hlt | rfl | hlt := Nat.lt_trichotomy d d'
      · have hless := hfirst' d hlt hgap; omega
      · rfl
      · have hless := hfirst d' hlt hgap'; omega

theorem donor_eq_iff {o : Option Nat} : donor cum = o ↔ FirstOfTheSmallest cum 256 o :=
  ⟨fun h => h ▸ donor_firstOfTheSmallest cum, fun h => (donor_firstOfTheSmallest cum).unique h⟩

/-- Settles O28: the scan keeps the first of the smallest frequencies above 1, and there is only one such symbol. -/
theorem donorIsFirstOfTheSmallest : Obligations.DonorIsFirstOfTheSmallest :=
  fun _ => ⟨fun _ => donor_eq_iff, donor_eq_iff⟩

variable {d i : Nat}

/-- Boundaries that rise from one symbol to the next rise over any distance. -/
theorem le_of_steps (hstep : ∀ j < 256, cum j ≤ cum (j + 1)) {j k : Nat} (hjk : j ≤ k) (hk : k ≤ 256) : cum j ≤ cum k := by
  induction hjk with
  | refl => exact Nat.le_refl _
  | step _ ih => exact (ih (by omega)).trans (hstep _ hk)

/-- With the donor below, the boundaries above it up to the recipient go down by one; none of them is 0 (40 R118, R125). -/
theorem shiftBoundaries_donor_below (hstep : ∀ j < 256, cum j ≤ cum (j + 1)) (hi : i < 256) (hgap : 1 < gap cum d) (hdi : d < i) (j : Nat) :
    shiftBoundaries d i cum j + (if d < j ∧ j ≤ i then 1 else 0) = cum j := by
  simp only [shiftBoundaries, if_pos hdi, Nat.add_one_le_iff]
  split_ifs with hj
  · have hrise : cum (d + 1) ≤ cum j := le_of_steps hstep hj.1 (by omega)
    unfold gap at hgap
    omega
  · rfl

/-- With the donor above, the boundaries above the recipient up to the donor go up by one (40 R118). -/
theorem shiftBoundaries_donor_above (hid : i < d) (j : Nat) :
    shiftBoundaries d i cum j = cum j + if i < j ∧ j ≤ d then 1 else 0 := by
  simp only [shiftBoundaries, if_neg (Nat.not_lt_of_gt hid), Nat.add_one_le_iff]
  split_ifs <;> rfl

theorem gap_eq_zero (hflat : cum (i + 1) = cum i) : gap cum i = 0 := by
  rw [gap, hflat, Nat.sub_self]

theorem donor_ne_recipient (hgap : 1 < gap cum d) (hflat : gap cum i = 0) : d ≠ i := by
  rintro rfl; omega

/-- What the shift makes of every frequency: one unit less for the donor, one for the recipient (40 R118). -/
theorem gap_shiftBoundaries (hstep : ∀ j < 256, cum j ≤ cum (j + 1)) (hi : i < 256) (hgap : 1 < gap cum d)
    (hflat : gap cum i = 0) {j : Nat} (hj : j < 256) :
    gap (shiftBoundaries d i cum) j = if j = d then gap cum d - 1 else if j = i then 1 else gap cum j := by
  have hrise := hstep j hj
  obtain hdi | hid := Nat.lt_or_gt_of_ne (donor_ne_recipient hgap hflat)
  · have hlow := shiftBoundaries_donor_below hstep hi hgap hdi j
    have hhigh := shiftBoundaries_donor_below hstep hi hgap hdi (j + 1)
    unfold gap at *
    split_ifs at * <;> subst_vars <;> omega
  · rw [gap, shiftBoundaries_donor_above hid, shiftBoundaries_donor_above hid]
    unfold gap at *
    split_ifs <;> subst_vars <;> omega

/-- The shift touches neither end (40 R118). -/
theorem shiftBoundaries_ends (hd : d < 256) (hi : i < 256) (cum : Nat → Nat) :
    shiftBoundaries d i cum 0 = cum 0 ∧ shiftBoundaries d i cum 256 = cum 256 := by
  unfold shiftBoundaries
  split_ifs <;> omega

/-- Settles O29: where each boundary moves says how each frequency changes. -/
theorem shiftMovesOneUnit : Obligations.ShiftMovesOneUnit := by
  intro cum d i hd hi hstep hgap hflat
  have hne := donor_ne_recipient hgap hflat
  have hgaps := fun {j} (hj : j < 256) => gap_shiftBoundaries hstep hi hgap hflat hj
  obtain ⟨hzero, hlast⟩ := shiftBoundaries_ends hd hi cum
  refine ⟨?_, ?_, fun j hj hjd hji => ?_, hzero, hlast, fun hdi => shiftBoundaries_donor_below hstep hi hgap hdi,
    fun hid => shiftBoundaries_donor_above hid⟩
  · rw [hgaps hd, if_pos rfl]
  · rw [hgaps hi, if_neg hne.symm, if_pos rfl]
  · rw [hgaps hj, if_neg hjd, if_neg hji]

end Sys2Proof.Machine
end

/-! ### Counting -/

section
namespace Sys2Proof.Machine

variable {m : Memory} {a : Nat}

/-- A counting pass adds one to the count of its byte, which has room for it, and to no other (40 R111). -/
theorem wordAt_countStep {freq : Vector Word 256} {i : Nat} (b : Byte) (hroom : wordAt freq b.toNat + 1 < 2 ^ 32) :
    wordAt (countStep m a freq i) b.toNat = wordAt freq b.toNat + if m.read (a + i) = b then 1 else 0 := by
  rw [countStep, wordAt_set]
  by_cases hb : m.read (a + i) = b
  · subst hb
    rw [wordAt_of_lt freq (m.read (a + i)).isLt] at hroom ⊢
    rw [if_pos rfl, if_pos rfl, BitVec.toNat_add]
    exact Nat.mod_eq_of_lt hroom
  · rw [if_neg hb, if_neg fun h => hb (BitVec.eq_of_toNat_eq h.symm), Nat.add_zero]

/-- After `n` passes each entry is its byte's number of occurrences so far: at most `n`, so no entry wraps (40 R111). -/
theorem wordAt_countFreq (b : Byte) {n : Nat} (hn : n < 2 ^ 32) :
    wordAt (countFreq m a n) b.toNat = ((List.range n).map fun i => m.read (a + i)).count b := by
  induction n with
  | zero => exact wordAt_replicate_zero 256 b.toNat
  | succ n ih =>
    have hcount := ih (by omega)
    have hle : ((List.range n).map fun i => m.read (a + i)).count b ≤ n := List.count_le_length.trans_eq (by simp)
    have hstep : countFreq m a (n + 1) = countStep m a (countFreq m a n) n := by
      rw [countFreq, List.range_succ, List.foldl_append]; rfl
    rw [hstep, wordAt_countStep b (by omega), hcount, List.range_succ, List.map_append, List.count_append, List.map_singleton,
      List.count_singleton]
    simp only [beq_iff_eq]

theorem exec_ftCount {s : State} (h : s.SourceOk) : exec .ftCount s = .next s.ftCount := withPrologue_runs s _ (decide_eq_true h) rfl

/-- Settles O22: the counting loop counts, and its frame is that of every command. -/
theorem countGivesOccurrences : Obligations.CountGivesOccurrences := by
  intro s h
  obtain ⟨hinputs, hmem⟩ := ruleOf_building_frame (i := .ftCount) rfl s
  have htables := ruleOf_counting_sameTables (i := .ftCount) (by decide) s
  exact ⟨s.ftCount, exec_ftCount h, ⟨rfl, rfl, rfl, rfl⟩, rfl, fun b => wordAt_countFreq b s.nSrc.isLt, hinputs, htables, hmem⟩

end Sys2Proof.Machine
end

/-! ### The repair pass

The pass starts from boundaries that rise to the total `t`, on which absent symbols have frequency 0, and visits the symbols in order; a
visited symbol that is present keeps a frequency of at least 1. So as long as a donor is there the pass ends with valid statistics, and the
frequencies, which sum to `t`, say when one is there (40 R120, R121). -/

section
namespace Sys2Proof.Machine

variable {t : Nat} {freq : Vector Word 256} {cum cum' raw : Nat → Nat} {n i : Nat}

/-! #### Sums of frequencies -/

/-- Frequencies sum to the last boundary they reach (10 R47). -/
theorem RisesTo.sum_gap (h : RisesTo t cum) (hn : n ≤ 256) : ∑ j ∈ Finset.range n, gap cum j = cum n := by
  induction n with
  | zero => exact h.zero.symm
  | succ n ih => rw [Finset.sum_range_succ, ih (by omega), gap, Nat.add_sub_cancel' (h.step n hn)]

theorem RisesTo.sum_gap_eq_total (h : RisesTo t cum) : ∑ j ∈ Finset.range 256, gap cum j = t := (h.sum_gap (Nat.le_refl _)).trans h.last

/-- The number of symbols present, symbol by symbol (40 R120). -/
theorem distinctSymbols_eq_sum (freq : Vector Word 256) :
    distinctSymbols freq = ∑ j ∈ Finset.range 256, if wordAt freq j ≠ 0 then 1 else 0 :=
  Finset.card_filter (fun j => wordAt freq j ≠ 0) (Finset.range 256)

theorem rawSum_eq_zero_iff : rawSum freq n = 0 ↔ ∀ j < n, wordAt freq j = 0 := by
  induction n with
  | zero => simp [rawSum]
  | succ n ih => rw [rawSum, Nat.add_eq_zero_iff, ih, Nat.forall_lt_succ_right]

theorem rawSum_ne_zero_of_present (hi : i < 256) (hraw : wordAt freq i ≠ 0) : rawSum freq 256 ≠ 0 :=
  fun h => hraw (rawSum_eq_zero_iff.mp h i hi)

/-! #### One visit -/

/-- What a visit can do (40 R116, R120): nothing, the shift from the donor, or the error when there is no donor. -/
theorem repairStep_cases (raw cum : Nat → Nat) (i : Nat) :
    (¬ (raw i ≠ 0 ∧ cum (i + 1) = cum i) ∧ repairStep raw cum i = .ok cum)
      ∨ ((raw i ≠ 0 ∧ cum (i + 1) = cum i) ∧
        ((∃ d, donor cum = some d ∧ repairStep raw cum i = .ok (shiftBoundaries d i cum))
          ∨ (donor cum = none ∧ repairStep raw cum i = .error .degenerateFrequencyTable))) := by
  unfold repairStep
  split
  case isFalse hrec => exact .inl ⟨hrec, rfl⟩
  case isTrue hrec =>
    cases donor cum with
    | some d => exact .inr ⟨hrec, .inl ⟨d, rfl, rfl⟩⟩
    | none => exact .inr ⟨hrec, .inr ⟨rfl, rfl⟩⟩

theorem repairStep_of_rising (h : raw i ≠ 0 → cum i < cum (i + 1)) : repairStep raw cum i = .ok cum :=
  if_neg fun hrec => (h hrec.1).ne' hrec.2

/-- What holds of the boundaries before symbol `n` is visited (40 R121). -/
structure RepairedUpTo (t : Nat) (freq : Vector Word 256) (n : Nat) (cum : Nat → Nat) : Prop where
  rises : RisesTo t cum
  absent : rawSum freq 256 ≠ 0 → ∀ j < 256, wordAt freq j = 0 → gap cum j = 0
  present : ∀ j < n, wordAt freq j ≠ 0 → 1 ≤ gap cum j

/-- Equal cumulative sums give equal rescaled boundaries (40 R114). -/
theorem rescale_congr {j : Nat} (hsum : rawSum freq 256 ≠ 0) (h : rawSum freq i = rawSum freq j) :
    rescale t (rawSum freq) i = rescale t (rawSum freq) j := by
  simp only [rescale, if_neg hsum, h]

/-- The rescaled boundaries, before the first visit (40 R114). -/
theorem rescale_repairedUpTo_zero (t : Nat) (freq : Vector Word 256) : RepairedUpTo t freq 0 (rescale t (rawSum freq)) := by
  refine ⟨rescale_risesTo t freq, fun hsum j _ habsent => ?_, fun j hj => absurd hj (Nat.not_lt_zero j)⟩
  have hsame : rawSum freq (j + 1) = rawSum freq j := by rw [rawSum, habsent, Nat.add_zero]
  rw [gap, rescale_congr hsum hsame, Nat.sub_self]

/-- A visit that changes nothing: its symbol is absent or keeps a frequency. -/
theorem RepairedUpTo.advance (h : RepairedUpTo t freq i cum) (hi : i < 256) (hrec : ¬ (wordAt freq i ≠ 0 ∧ cum (i + 1) = cum i)) :
    RepairedUpTo t freq (i + 1) cum := by
  refine ⟨h.rises, h.absent, Nat.forall_lt_succ_right.mpr ⟨h.present, fun hraw => ?_⟩⟩
  have hrise := h.rises.step i hi
  have hne : cum (i + 1) ≠ cum i := fun hflat => hrec ⟨hraw, hflat⟩
  unfold gap
  omega

/-- A visit that shifts: its symbol now has frequency 1, and the donor, a present symbol, still has one (40 R121). -/
theorem RepairedUpTo.shift {d : Nat} (h : RepairedUpTo t freq i cum) (hi : i < 256) (hraw : wordAt freq i ≠ 0) (hflat : cum (i + 1) = cum i)
    (hdonor : donor cum = some d) : RepairedUpTo t freq (i + 1) (shiftBoundaries d i cum) := by
  obtain ⟨hd, hgap⟩ := donor_eq_some hdonor
  have hgaps := fun {j} (hj : j < 256) => gap_shiftBoundaries h.rises.step hi hgap (gap_eq_zero hflat) hj
  refine ⟨shiftBoundaries_risesTo h.rises hd hi hgap hflat, fun hsum j hj habsent => ?_, fun j hj hpresent => ?_⟩
  · have hzero := h.absent hsum j hj habsent
    have hjd : j ≠ d := by rintro rfl; omega
    have hji : j ≠ i := by rintro rfl; exact hraw habsent
    rw [hgaps hj, if_neg hjd, if_neg hji, hzero]
  · rw [hgaps (by omega)]
    split_ifs with hjd hji
    · omega
    · exact Nat.le_refl 1
    · exact h.present j (by omega) hpresent

/-- A visit without error keeps what holds and adds its symbol (40 R121). -/
theorem RepairedUpTo.step (h : RepairedUpTo t freq i cum) (hi : i < 256) (hr : repairStep (wordAt freq) cum i = .ok cum') :
    RepairedUpTo t freq (i + 1) cum' := by
  obtain ⟨hrec, he⟩ | ⟨⟨hraw, hflat⟩, ⟨d, hdonor, he⟩ | ⟨-, he⟩⟩ := repairStep_cases (wordAt freq) cum i <;> cases he.symm.trans hr
  · exact h.advance hi hrec
  · exact h.shift hi hraw hflat hdonor

/-- Without a donor no frequency is above 1, and the recipient's is 0: their sum, the total, is below the number of symbols present
(40 R120). -/
theorem RepairedUpTo.total_lt_of_no_donor (h : RepairedUpTo t freq n cum) (hi : i < 256) (hraw : wordAt freq i ≠ 0)
    (hflat : cum (i + 1) = cum i) (hnone : donor cum = none) : t < distinctSymbols freq := by
  have hsmall : ∀ j < 256, gap cum j ≤ 1 := donor_eq_iff.mp hnone
  rw [← h.rises.sum_gap_eq_total, distinctSymbols_eq_sum]
  refine Finset.sum_lt_sum (fun j hj => ?_) ⟨i, Finset.mem_range.mpr hi, ?_⟩
  · have hj := Finset.mem_range.mp hj
    split_ifs with hpresent
    · exact hsmall j hj
    · exact (h.absent (rawSum_ne_zero_of_present hi hraw) j hj (not_not.mp hpresent)).le
  · rw [if_pos hraw, gap_eq_zero hflat]
    exact Nat.one_pos

/-- After the whole pass each present symbol has its own unit of the total (40 R121). -/
theorem RepairedUpTo.distinctSymbols_le (h : RepairedUpTo t freq 256 cum) : distinctSymbols freq ≤ t := by
  rw [← h.rises.sum_gap_eq_total, distinctSymbols_eq_sum]
  refine Finset.sum_le_sum fun j hj => ?_
  split_ifs with hpresent
  · exact h.present j (Finset.mem_range.mp hj) hpresent
  · exact Nat.zero_le _

/-! #### The whole pass -/

/-- A loop over 0 to n-1 ends without error exactly when it has a history: `cs i` is what the loop holds before pass `i`. -/
theorem foldlM_range_ok_iff {α : Type} {f : α → Nat → Except ErrorCode α} {a b : α} :
    (List.range n).foldlM f a = .ok b ↔ ∃ cs : Nat → α, cs 0 = a ∧ cs n = b ∧ ∀ i < n, f (cs i) i = .ok (cs (i + 1)) := by
  induction n generalizing b with
  | zero =>
    constructor
    · intro h
      cases h
      exact ⟨fun _ => a, rfl, rfl, fun i hi => absurd hi (Nat.not_lt_zero i)⟩
    · rintro ⟨cs, rfl, rfl, -⟩
      rfl
  | succ n ih =>
    rw [List.range_succ, List.foldlM_append, bind_eq_ok]
    simp only [List.foldlM_cons, List.foldlM_nil, bind_pure, ih, Nat.forall_lt_succ_right]
    constructor
    · rintro ⟨c, ⟨cs, hstart, rfl, hsteps⟩, hlast⟩
      refine ⟨Function.update cs (n + 1) b, ?_, ?_, fun i hi => ?_, ?_⟩
      · simpa using hstart
      · simp
      · simpa [Function.update, show i ≠ n + 1 by omega, show i ≠ n by omega] using hsteps i hi
      · simpa using hlast
    · rintro ⟨cs, hstart, rfl, hsteps, hlast⟩
      exact ⟨cs n, ⟨cs, hstart, rfl, hsteps⟩, hlast⟩

/-- A loop over 0 to n-1 that raises an error raises it in one of its passes. -/
theorem foldlM_range_error {α : Type} {f : α → Nat → Except ErrorCode α} {a : α} {e : ErrorCode}
    (h : (List.range n).foldlM f a = .error e) :
    ∃ i < n, ∃ b, (List.range i).foldlM f a = .ok b ∧ f b i = .error e := by
  induction n with
  | zero => cases h
  | succ n ih =>
    cases hpasses : (List.range n).foldlM f a with
    | error e' =>
      rw [List.range_succ, List.foldlM_append, hpasses] at h
      cases h
      obtain ⟨i, hi, hfail⟩ := ih hpasses
      exact ⟨i, Nat.lt_succ_of_lt hi, hfail⟩
    | ok b =>
      rw [List.range_succ, List.foldlM_append, hpasses] at h
      simp only [List.foldlM_cons, List.foldlM_nil, bind_pure] at h
      exact ⟨n, n.lt_succ_self, b, hpasses, h⟩

/-- The visits so far, none of them with an error, leave what holds before the next one. -/
theorem repairedUpTo_of_foldlM (hn : n ≤ 256) (h : (List.range n).foldlM (repairStep (wordAt freq)) (rescale t (rawSum freq)) = .ok cum) :
    RepairedUpTo t freq n cum := by
  obtain ⟨cs, hstart, rfl, hsteps⟩ := foldlM_range_ok_iff.mp h
  have key : ∀ i ≤ n, RepairedUpTo t freq i (cs i) := by
    intro i hi
    induction i with
    | zero => exact hstart ▸ rescale_repairedUpTo_zero t freq
    | succ i ih => exact (ih (by omega)).step (by omega) (hsteps i hi)
  exact key n (Nat.le_refl n)

theorem normalizedCum_repaired (h : normalizedCum t freq = .ok cum) : RepairedUpTo t freq 256 cum := repairedUpTo_of_foldlM (Nat.le_refl _) h

/-- Normalization fails in one way only, and only when the total is too small (40 R120). -/
theorem normalizedCum_error {e : ErrorCode} (h : normalizedCum t freq = .error e) : e = .degenerateFrequencyTable ∧ t < distinctSymbols freq := by
  obtain ⟨i, hi, c, hvisits, hfail⟩ := foldlM_range_error h
  obtain ⟨-, he⟩ | ⟨⟨hraw, hflat⟩, ⟨d, -, he⟩ | ⟨hnone, he⟩⟩ := repairStep_cases (wordAt freq) c i <;> cases he.symm.trans hfail
  exact ⟨rfl, (repairedUpTo_of_foldlM hi.le hvisits).total_lt_of_no_donor hi hraw hflat hnone⟩

theorem normalizedCum_of_distinctSymbols_le (h : distinctSymbols freq ≤ t) : ∃ cum, normalizedCum t freq = .ok cum := by
  cases hn : normalizedCum t freq with
  | ok cum => exact ⟨cum, rfl⟩
  | error e =>
    obtain ⟨-, hlt⟩ := normalizedCum_error hn
    exact absurd h (Nat.not_le.mpr hlt)

theorem normalizedCum_of_lt_distinctSymbols (h : t < distinctSymbols freq) : normalizedCum t freq = .error .degenerateFrequencyTable := by
  cases hn : normalizedCum t freq with
  | ok cum => exact absurd (normalizedCum_repaired hn).distinctSymbols_le (Nat.not_le.mpr h)
  | error e =>
    obtain ⟨rfl, -⟩ := normalizedCum_error hn
    rfl

/-- Normalization answers `cum` exactly when a history of visits leads from the rescaled boundaries to it (40 R116). -/
theorem normalizedCum_eq_ok_iff : normalizedCum t freq = .ok cum ↔
    ∃ cs : Nat → Nat → Nat, cs 0 = rescale t (rawSum freq) ∧ cs 256 = cum ∧ ∀ i < 256, repairStep (wordAt freq) (cs i) i = .ok (cs (i + 1)) :=
  foldlM_range_ok_iff

/-- With no present symbol at frequency 0 the pass changes nothing (40 R116). -/
theorem normalizedCum_of_rising (h : ∀ i < 256, wordAt freq i ≠ 0 → rescale t (rawSum freq) i < rescale t (rawSum freq) (i + 1)) :
    normalizedCum t freq = .ok (rescale t (rawSum freq)) :=
  normalizedCum_eq_ok_iff.mpr ⟨fun _ => rescale t (rawSum freq), rfl, rfl, fun i hi => repairStep_of_rising (h i hi)⟩

/-- Visits without error are a repair pass in the sense of the statements (40 R116). -/
theorem repairPass_of_steps {cs : Nat → Nat → Nat} (h : ∀ i < 256, repairStep raw (cs i) i = .ok (cs (i + 1))) : RepairPass raw cs := by
  intro i hi
  have hstep := h i hi
  obtain ⟨hrec, he⟩ | ⟨hrec, ⟨d, hdonor, he⟩ | ⟨-, he⟩⟩ := repairStep_cases raw (cs i) i <;> rw [he] at hstep
  · exact ⟨fun hrec' => absurd hrec' hrec, fun _ => (Except.ok.inj hstep).symm⟩
  · exact ⟨fun _ => ⟨d, hdonor, (Except.ok.inj hstep).symm⟩, fun hrec' => absurd hrec hrec'⟩
  · cases hstep

end Sys2Proof.Machine
end

/-! ### What FT.NORM leaves -/

section
namespace Sys2Proof.Machine

variable {s t : State} {cum : Nat → Nat}

theorem legalTotal_pos (h : LegalTotal s.ftTotal) : 0 < s.ftTotal.toNat := by
  obtain ⟨k, -, htotal⟩ := h
  rw [htotal]
  exact Nat.two_pow_pos k

theorem legalTotal_le (h : LegalTotal s.ftTotal) : s.ftTotal.toNat ≤ 16384 := by
  obtain ⟨k, hk, htotal⟩ := h
  rw [htotal]
  exact Nat.pow_le_pow_right (by decide) (show k ≤ 14 from Nat.le_of_lt_succ (List.mem_range.mp hk))

theorem exec_ftNorm (hlegal : LegalTotal s.ftTotal) (hcounted : s.sstate = .counted) : exec .ftNorm s = .next s.ftNorm :=
  withPrologue_runs s _ (decide_eq_true hlegal) (decide_eq_true hcounted)

/-- `FT.NORM` of `s` completed with the boundaries `c`, and `t` is the state after it (40 R119). -/
structure NormalizedTo (s t : State) (c : Nat → Nat) : Prop where
  run : exec .ftNorm s = .next t
  ended : EndedWith t .none
  normal : t.sstate = .normal
  cum : ∀ i ≤ 256, wordAt t.cum i = c i
  freq : ∀ i < 256, wordAt t.freq i = gap c i

theorem ftNorm_normalizedTo (hlegal : LegalTotal s.ftTotal) (hcounted : s.sstate = .counted)
    (hcum : normalizedCum s.ftTotal.toNat s.freq = .ok cum) : NormalizedTo s s.ftNorm cum := by
  have hrises := normalizedCum_risesTo hcum
  have hnorm : s.ftNorm = (s.setStatistics cum).complete .none 0 := by rw [State.ftNorm, hcum]
  refine ⟨exec_ftNorm hlegal hcounted, ?_, ?_, fun i hi => ?_, fun i hi => ?_⟩ <;> rw [hnorm]
  · exact ⟨rfl, rfl, rfl, rfl⟩
  · rfl
  · exact wordAt_setStatistics_cum (s := s) hrises (legalTotal_le hlegal) hi
  · exact wordAt_setStatistics_freq (s := s) hrises (legalTotal_le hlegal) hi

/-- Settles O23: the pass succeeds because the total suffices, and its end has all the properties asked. -/
theorem normalizeGivesValidStatistics : Obligations.NormalizeGivesValidStatistics := by
  intro s hlegal hcounted hle
  obtain ⟨cum, hcum⟩ := normalizedCum_of_distinctSymbols_le hle
  obtain ⟨hrun, hended, hnormal, htcum, htfreq⟩ := ftNorm_normalizedTo hlegal hcounted hcum
  obtain ⟨hrises, habsent, hpresent⟩ := normalizedCum_repaired hcum
  obtain ⟨cs, hstart, rfl, hsteps⟩ := normalizedCum_eq_ok_iff.mp hcum
  obtain ⟨hinputs, htables, hmem⟩ := ftNorm_frame s
  refine ⟨s.ftNorm, hrun, hended, hnormal, ?_, fun i hi => ?_, ?_, fun i hi hraw => ?_, fun hsum i hi hraw => ?_,
    ⟨cs, hstart, repairPass_of_steps hsteps, htcum⟩, hinputs, htables, hmem⟩
  · rw [htcum 0 (by decide), hrises.zero]
  · rw [htcum (i + 1) hi, htcum i hi.le, htfreq i hi, gap, Nat.add_sub_cancel' (hrises.step i hi)]
  · rw [htcum 256 (Nat.le_refl _), hrises.last]
  · rw [htfreq i hi]
    exact hpresent i hi hraw
  · rw [htfreq i hi]
    exact habsent hsum i hi hraw

/-- Settles O27: a total that suffices gives a donor whenever one is needed, and one that does not cannot give each symbol its unit. -/
theorem degenerateWhenTooManySymbols : Obligations.DegenerateWhenTooManySymbols := by
  intro s hlegal hcounted
  refine ⟨s.ftNorm, exec_ftNorm hlegal hcounted, ?_⟩
  obtain hlt | hle := Nat.lt_or_ge s.ftTotal.toNat (distinctSymbols s.freq)
  · have hnorm : s.ftNorm = s.loseStatistics.raise .degenerateFrequencyTable := by
      rw [State.ftNorm, normalizedCum_of_lt_distinctSymbols hlt]
    rw [hnorm]
    exact ⟨iff_of_true rfl hlt, fun _ => ⟨⟨rfl, rfl, rfl, rfl⟩, rfl, SameInputs.refl s, ⟨rfl, rfl, rfl, rfl⟩, rfl⟩⟩
  · obtain ⟨cum, hcum⟩ := normalizedCum_of_distinctSymbols_le hle
    obtain ⟨herr, -⟩ := (ftNorm_normalizedTo hlegal hcounted hcum).ended
    rw [herr]
    exact ⟨iff_of_false nofun (Nat.not_lt.mpr hle), nofun⟩

/-! #### Few or no recipients -/

/-- Visits to symbols none of which is collapsed leave the boundaries they began with. -/
theorem history_eq_of_rising {raw : Nat → Nat} {cs : Nat → Nat → Nat}
    (hsteps : ∀ i < 256, repairStep raw (cs i) i = .ok (cs (i + 1))) {a b : Nat} (hab : a ≤ b) (hb : b ≤ 256)
    (hrising : ∀ j, a ≤ j → j < b → raw j ≠ 0 → cs a j < cs a (j + 1)) : cs b = cs a := by
  induction hab with
  | refl => rfl
  | @step b hab ih =>
    have hsame : cs b = cs a := ih (by omega) fun j haj hjb => hrising j haj (by omega)
    have hstep := hsteps b hb
    rw [hsame, repairStep_of_rising (hrising b hab b.lt_succ_self)] at hstep
    exact (Except.ok.inj hstep).symm

/-- With exactly one recipient the pass is the one shift (40 R116). -/
theorem normalizedCum_of_one_collapsed {t : Nat} {freq : Vector Word 256} {c : Nat → Nat} (hc : rescale t (rawSum freq) = c) {i : Nat}
    (hi : i < 256) (hraw : wordAt freq i ≠ 0) (hflat : c (i + 1) = c i)
    (hothers : ∀ j < 256, j ≠ i → wordAt freq j ≠ 0 → c j < c (j + 1)) (hle : distinctSymbols freq ≤ t) :
    ∃ d, donor c = some d ∧ normalizedCum t freq = .ok (shiftBoundaries d i c) := by
  have hrises : RisesTo t c := hc ▸ rescale_risesTo t freq
  obtain ⟨cum, hcum⟩ := normalizedCum_of_distinctSymbols_le hle
  obtain ⟨cs, hstart, rfl, hsteps⟩ := normalizedCum_eq_ok_iff.mp hcum
  replace hstart : cs 0 = c := hstart.trans hc
  have hbefore : cs i = cs 0 := history_eq_of_rising hsteps i.zero_le hi.le fun j _ hji => by
    rw [hstart]
    exact hothers j (by omega) (by omega)
  have hvisit := hsteps i hi
  rw [hbefore, hstart] at hvisit
  obtain ⟨hrec, -⟩ | ⟨-, ⟨d, hdonor, he⟩ | ⟨-, he⟩⟩ := repairStep_cases (wordAt freq) c i
  · exact absurd ⟨hraw, hflat⟩ hrec
  · obtain ⟨hd, hgap⟩ := donor_eq_some hdonor
    have hshift : cs (i + 1) = shiftBoundaries d i c := Except.ok.inj (hvisit.symm.trans he)
    suffices hafter : cs 256 = cs (i + 1) from ⟨d, hdonor, by rw [hcum, hafter, hshift]⟩
    refine history_eq_of_rising hsteps hi (Nat.le_refl _) fun j hij hj hpresent => ?_
    have hnew := gap_shiftBoundaries hrises.step hi hgap (gap_eq_zero hflat) hj
    have hold := hothers j hj (by omega) hpresent
    rw [if_neg (show j ≠ i by omega)] at hnew
    rw [hshift]
    unfold gap at *
    split_ifs at hnew <;> omega
  · cases he.symm.trans hvisit

/-- Settles O24: the rescaled boundaries are the definition's, and the pass changes nothing on them or is one shift. -/
theorem normalizeRoundsHalfUp : Obligations.NormalizeRoundsHalfUp := by
  intro s hlegal hcounted hpos c
  have hc : rescale s.ftTotal.toNat (rawSum s.freq) = c := funext fun i => if_neg hpos.ne'
  refine ⟨fun hrising => ?_, fun i hi hraw hflat hothers hle => ?_⟩
  · obtain ⟨hrun, hended, -, hcum, -⟩ := ftNorm_normalizedTo hlegal hcounted (normalizedCum_of_rising (by rwa [hc]))
    rw [hc] at hcum
    exact ⟨s.ftNorm, hrun, hended, hcum⟩
  · obtain ⟨d, hdonor, hshift⟩ := normalizedCum_of_one_collapsed hc hi hraw hflat hothers hle
    obtain ⟨hrun, hended, -, hcum, -⟩ := ftNorm_normalizedTo hlegal hcounted hshift
    exact ⟨s.ftNorm, d, hrun, hended, hdonor, hcum⟩

/-- Settles O25: symbol 0 has the whole total on the rescaled boundaries, and no symbol is present for the pass to visit. -/
theorem normalizeEmptySequence : Obligations.NormalizeEmptySequence := by
  intro s hlegal hcounted habsent
  have hc (i : Nat) : rescale s.ftTotal.toNat (rawSum s.freq) i = if i = 0 then 0 else s.ftTotal.toNat :=
    if_pos (rawSum_eq_zero_iff.mpr habsent)
  obtain ⟨hrun, hended, -, hcum, hfreq⟩ :=
    ftNorm_normalizedTo hlegal hcounted (normalizedCum_of_rising fun i hi hraw => absurd (habsent i hi) hraw)
  refine ⟨s.ftNorm, hrun, hended, ?_, fun i hi hi' => ?_, ?_, fun i hi hi' => ?_⟩
  · rw [hcum 0 (by decide), hc, if_pos rfl]
  · rw [hcum i hi', hc, if_neg (by omega)]
  · rw [hfreq 0 (by decide), gap, hc, hc, if_pos rfl, if_neg (by decide), Nat.sub_zero]
  · rw [hfreq i hi', gap, hc, hc, if_neg (by omega), if_neg (by omega), Nat.sub_self]

/-- The cumulative sums of a single symbol: 0 up to it, its count beyond it (40 R122). -/
theorem rawSum_of_single {freq : Vector Word 256} {v n : Nat} (hn : n ≤ 256) (hothers : ∀ i < 256, i ≠ v → wordAt freq i = 0) :
    rawSum freq n = if n ≤ v then 0 else wordAt freq v := by
  induction n with
  | zero => rfl
  | succ n ih =>
    rw [rawSum, ih (by omega)]
    obtain hlt | rfl | hgt := Nat.lt_trichotomy n v
    · rw [if_pos hlt.le, if_pos (show n + 1 ≤ v from hlt), hothers n hn hlt.ne]
    · rw [if_pos (Nat.le_refl n), if_neg (by omega), Nat.zero_add]
    · rw [if_neg (by omega), if_neg (by omega), hothers n hn hgt.ne', Nat.add_zero]

/-- The one symbol present takes the whole total (40 R122). -/
theorem rescale_of_single {freq : Vector Word 256} {v t i : Nat} (hv : v < 256) (hraw : wordAt freq v ≠ 0)
    (hothers : ∀ i < 256, i ≠ v → wordAt freq i = 0) (hi : i ≤ 256) : rescale t (rawSum freq) i = if i ≤ v then 0 else t := by
  have hrises := rescale_risesTo t freq
  have hsum : rawSum freq 256 ≠ 0 := rawSum_ne_zero_of_present hv hraw
  have hbelow : rawSum freq i = if i ≤ v then 0 else wordAt freq v := rawSum_of_single hi hothers
  split_ifs at hbelow ⊢ with hiv
  · exact (rescale_congr hsum hbelow).trans hrises.zero
  · refine (rescale_congr hsum (hbelow.trans ?_)).trans hrises.last
    rw [rawSum_of_single (Nat.le_refl _) hothers, if_neg (by omega)]

/-- Settles O26: the one symbol present takes the total, so the pass has nothing to repair. -/
theorem normalizeSingleSymbol : Obligations.NormalizeSingleSymbol := by
  intro s v hlegal hcounted hv hraw hothers
  have hc := fun {i} (hi : i ≤ 256) => rescale_of_single (t := s.ftTotal.toNat) hv hraw hothers hi
  have hrising : ∀ i < 256, wordAt s.freq i ≠ 0 →
      rescale s.ftTotal.toNat (rawSum s.freq) i < rescale s.ftTotal.toNat (rawSum s.freq) (i + 1) := by
    intro i hi hpresent
    obtain rfl : i = v := not_not.mp fun hne => hpresent (hothers i hi hne)
    rw [hc hi.le, hc hi, if_pos (Nat.le_refl i), if_neg (by omega)]
    exact legalTotal_pos hlegal
  obtain ⟨hrun, hended, -, hcum, hfreq⟩ := ftNorm_normalizedTo hlegal hcounted (normalizedCum_of_rising hrising)
  refine ⟨s.ftNorm, hrun, hended, ?_, fun i hi => (hcum i hi).trans (hc hi)⟩
  rw [hfreq v hv, gap, hc hv, hc hv.le, if_neg (by omega), if_pos (Nat.le_refl v), Nat.sub_zero]

end Sys2Proof.Machine
end

/-! ### The prologue's conditions and the rules behind them -/

section
namespace Sys2Proof.Machine

/-- The prologue of each command tests its operands and then its needs, column by column (30 R103, R104). -/
theorem exec_prologue (i : Instr) (s : State) : ∃ ok ready, exec i s = withPrologue ok ready s (ruleOf i)
    ∧ (ok = true ↔ operandsLegal s i) ∧ (ready = true ↔ needsMet s i) := by
  cases i with
  | tblRef | tblFast | tblFa => exact ⟨true, _, rfl, iff_of_true rfl trivial, decide_eq_true_iff⟩
  | ftCount | initRef | initFast | initFa => exact ⟨_, true, rfl, decide_eq_true_iff, iff_of_true rfl trivial⟩
  | ftNorm | encRef | encFast | encFa | decRef | decFast | decFa => exact ⟨_, _, rfl, decide_eq_true_iff, decide_eq_true_iff⟩

/-- With legal operands and its needs met a command follows its rule. -/
theorem exec_of_ready {i : Instr} {s : State} (hop : operandsLegal s i) (hneeds : needsMet s i) : exec i s = .next (ruleOf i s) := by
  obtain ⟨ok, ready, hexec, hok, hready⟩ := exec_prologue i s
  exact hexec.trans (withPrologue_runs s _ (hok.mpr hop) (hready.mpr hneeds))

/-- A command that ends without error has passed its prologue and followed its rule. -/
theorem ready_of_exec {i : Instr} {s t : State} (h : exec i s = .next t) (hnone : t.err = .none) :
    operandsLegal s i ∧ needsMet s i ∧ t = ruleOf i s := by
  obtain ⟨ok, ready, hexec, hok, hready⟩ := exec_prologue i s
  obtain ⟨-, rfl⟩ | ⟨-, -, rfl⟩ | ⟨hok', hready', rfl⟩ := withPrologue_cases (hexec ▸ h)
  · cases hnone
  · cases hnone
  · exact ⟨hok.mp hok', hready.mp hready', rfl⟩

end Sys2Proof.Machine
end

/-! ### Table building from statistics -/

section
namespace Sys2Proof.Machine

/-- `TBL.v` on statistics normalized to 16384 runs its rule (30 R104). -/
theorem exec_tbl {i : Instr} {s : State} (hi : i ∈ [Instr.tblRef, .tblFast, .tblFa]) (hnormal : s.sstate = .normal)
    (hend : wordAt s.cum 256 = 16384) : exec i s = .next (ruleOf i s) := by
  simp only [List.mem_cons, List.not_mem_nil, or_false] at hi
  obtain rfl | rfl | rfl := hi <;> exact exec_of_ready trivial ⟨hnormal, hend⟩

/-- The rule of `TBL.v` is the table stage for its variant, completed. -/
theorem ruleOf_tbl {i : Instr} (hi : i ∈ [Instr.tblRef, .tblFast, .tblFa]) (s : State) :
    ∃ v g, ruleOf i s = (s.buildTables v g).complete .none 0 := by
  simp only [List.mem_cons, List.not_mem_nil, or_false] at hi
  obtain rfl | rfl | rfl := hi <;> exact ⟨_, _, rfl⟩

/-- Settles O30: an entry of the built tables holds the statistics' words, which fit its fields; the frame is that of every `TBL.v`. -/
theorem tblRefCopiesStatistics : Obligations.TblRefCopiesStatistics := by
  intro s hnormal hend
  obtain ⟨hinputs, hmem⟩ := ruleOf_building_frame (i := .tblRef) rfl s
  have hstat := ruleOf_tables_sameStatistics (i := .tblRef) (by decide) s
  refine ⟨ruleOf .tblRef s, exec_tbl (by decide) hnormal hend, ⟨rfl, rfl, rfl, rfl⟩, rfl, fun b => ?_, hinputs, hstat, hmem⟩
  have henc : (ruleOf .tblRef s).encOf b = _ := encOf_buildTables s .ref refEntry b
  have hdec : (ruleOf .tblRef s).decOf b = _ := decOf_buildTables s .ref refEntry b
  rw [henc, hdec]
  exact ⟨ofNat_wordAt_toNat _ _, ofNat_wordAt_toNat _ _, ofNat_wordAt_toNat _ _, ofNat_wordAt_toNat _ _⟩

/-- Settles O33: boundaries whose differences are frequencies rise, so a slot has one owner, the last writer of its cell. -/
theorem slotsNameTheirSymbol : Obligations.SlotsNameTheirSymbol := by
  intro i s t hi hnormal hend hstat ht k hk b hlow hhigh
  obtain ⟨v, g, hrule⟩ := ruleOf_tbl hi s
  obtain ⟨-, hsums, -⟩ := hstat hnormal
  rw [exec_tbl hi hnormal hend, hrule] at ht
  cases ht
  exact invOf_buildTables s v g (fun i hi => (hsums i hi).symm ▸ Nat.le_add_right _ _) k hk b ⟨hlow, hhigh⟩

end Sys2Proof.Machine
end

/-! ### The update of the reference codec

A coder state is renormalized for a frequency, which may emit its low word, and then updated; on states from 2^31 to 2^63 both keep the range
(41 R145) and the decoder's update undoes them (41 R147). -/

section
namespace Sys2Proof.Machine

/-- Third part of an encode step on exact numbers (41 R138). -/
def refUpdated (f c x : Nat) : Nat := x / f * 2 ^ 14 + x % f + c

/-- The state an encode step updates: shifted by a word where it is at the threshold or above (41 R137). -/
def renormalized (f x : Nat) : Nat := if x < 2 ^ 49 * f then x else x / 2 ^ 32

/-- The words the renormalization emits: one or none (41 R137). -/
def renormWords (f x : Nat) : List Nat := if x < 2 ^ 49 * f then [] else [x % 2 ^ 32]

/-- The range of the coder state between encode steps (41 R145). -/
def CoderRange (x : Nat) : Prop := 2 ^ 31 ≤ x ∧ x < 2 ^ 63

variable {f c x : Nat}

theorem refUpdate_eq (e : EncEntry) (x : DWord) : refUpdate e x = refUpdated e.freq.toNat e.start.toNat x.toNat := by
  rw [refUpdate, Nat.shiftLeft_eq]; rfl

theorem xMax_eq (f : Nat) : xMax f = 2 ^ 49 * f := rfl

/-- The low digit of the new state is the slot, a place in the symbol's interval (41 R147). -/
theorem refUpdated_mod (hf : 1 ≤ f) (hfit : c + f ≤ 2 ^ 14) : refUpdated f c x % 2 ^ 14 = x % f + c := by
  have := Nat.mod_lt x hf
  rw [refUpdated, Nat.add_assoc, Nat.mul_add_mod_self_right, Nat.mod_eq_of_lt (by omega)]

theorem refUpdated_div (hf : 1 ≤ f) (hfit : c + f ≤ 2 ^ 14) : refUpdated f c x / 2 ^ 14 = x / f := by
  have := Nat.mod_lt x hf
  rw [refUpdated, Nat.add_assoc, Nat.add_comm, Nat.add_mul_div_right _ _ (by decide), Nat.div_eq_of_lt (by omega), Nat.zero_add]

/-- An update never lowers the state: the quotient moves from digits of base `f` to digits of base 2^14. -/
theorem le_refUpdated (hf : f ≤ 2 ^ 14) : x ≤ refUpdated f c x := by
  have hquot : x / f * f ≤ x / f * 2 ^ 14 := Nat.mul_le_mul_left _ hf
  have hx := Nat.div_add_mod' x f
  rw [refUpdated]; omega

theorem refUpdated_lt {q : Nat} (hf : 1 ≤ f) (hfit : c + f ≤ 2 ^ 14) (hx : x < q * f) : refUpdated f c x < q * 2 ^ 14 := by
  have hquot : x / f < q := (Nat.div_lt_iff_lt_mul hf).mpr hx
  have := Nat.mod_lt x hf
  rw [refUpdated]; omega

theorem mul_le_refUpdated {q : Nat} (hf : 1 ≤ f) (hx : q * f ≤ x) : q * 2 ^ 14 ≤ refUpdated f c x := by
  have hquot : q ≤ x / f := (Nat.le_div_iff_mul_le hf).mpr hx
  rw [refUpdated]; omega

/-- A renormalized state lies below the threshold, so the update's quotient stays below 2^49 (41 R145). -/
theorem renormalized_lt (hf : 1 ≤ f) (hx : x < 2 ^ 63) : renormalized f x < 2 ^ 49 * f := by
  rw [renormalized]; split_ifs <;> omega

/-- An encode step keeps the range of the state (41 R145). -/
theorem refUpdated_renormalized_range (hf : 1 ≤ f) (hfit : c + f ≤ 2 ^ 14) (hx : CoderRange x) :
    CoderRange (refUpdated f c (renormalized f x)) := by
  obtain ⟨hlow, hhigh⟩ := hx
  have hlt : refUpdated f c (renormalized f x) < 2 ^ 49 * 2 ^ 14 := refUpdated_lt hf hfit (renormalized_lt hf hhigh)
  refine ⟨?_, hlt⟩
  rw [renormalized]
  split_ifs with hthreshold
  · exact hlow.trans (le_refUpdated (by omega))
  · have hshifted : 2 ^ 17 * f ≤ x / 2 ^ 32 := by omega
    exact mul_le_refUpdated hf hshifted

/-- What the renormalization leaves in `X`. -/
theorem renormalize_x {base : Nat} {r r' : Run} (h : renormalize base f r = .ok r') :
    r'.work.x.toNat = renormalized f r.work.x.toNat := by
  have hx := r.work.x.isLt
  rw [renormalized]
  obtain ⟨hlt, rfl⟩ | ⟨hge, -, rfl⟩ := renormalize_ok h
  · rw [if_pos (xMax_eq f ▸ hlt)]
  · rw [if_neg (Nat.not_lt.mpr (xMax_eq f ▸ hge))]
    show (BitVec.ofNat 64 (r.work.x.toNat >>> 32)).toNat = _
    rw [BitVec.toNat_ofNat, Nat.shiftRight_eq_div_pow, Nat.mod_eq_of_lt (by omega)]

/-- Settles O39: the step's success gives a nonzero frequency, and its state is the renormalized one, updated. -/
theorem encodeStepKeepsStateRange : Obligations.EncodeStepKeepsStateRange := by
  intro s b r r' hfit hlow hhigh h
  obtain ⟨hfreq, a, ha, rfl⟩ := encStep_ok h
  have hf : 1 ≤ (s.encOf b).freq.toNat := Nat.pos_of_ne_zero fun h0 => hfreq (BitVec.eq_of_toNat_eq h0)
  have hrange := refUpdated_renormalized_range hf hfit ⟨hlow, hhigh⟩
  have hlt : refUpdated (s.encOf b).freq.toNat (s.encOf b).start.toNat (renormalized (s.encOf b).freq.toNat r.work.x.toNat) < 2 ^ 64 :=
    hrange.2.trans (by decide)
  rw [Run.setX_x, refUpdate_eq, renormalize_x ha, BitVec.toNat_ofNat, Nat.mod_eq_of_lt hlt]
  exact hrange

/-- Settles O41: the slot is the low digit of the new state, and the quotient its high one. -/
theorem refUpdateIsInvertible : Obligations.RefUpdateIsInvertible := by
  intro e x hf hfit
  rw [refUpdate_eq, refUpdated_mod hf hfit, refUpdated_div hf hfit]
  exact ⟨rfl, by rw [← Nat.add_assoc, Nat.add_sub_cancel, Nat.div_add_mod]⟩

end Sys2Proof.Machine
end

/-! ### A valid table set: which slot belongs to which symbol -/

section
namespace Sys2Proof.Machine

variable {s : State}

theorem ofNat_toNat_byte (b : Byte) : BitVec.ofNat 8 b.toNat = b := BitVec.eq_of_toNat_eq (by rw [BitVec.toNat_ofNat, Nat.mod_eq_of_lt b.isLt])

/-- The intervals follow each other, so each one ends at or before the start of every later one (10 R48). -/
theorem State.IntervalsOk.end_le_start (h : s.IntervalsOk) {i j : Nat} (hij : i < j) (hj : j ≤ 255) :
    s.decStart i + s.decFreq i ≤ s.decStart j := by
  obtain ⟨-, -, hsteps, -⟩ := h
  induction j with
  | zero => omega
  | succ j ih =>
    rw [hsteps j (by omega)]
    obtain hlt | rfl := Nat.lt_or_eq_of_le (Nat.le_of_lt_succ hij)
    · have := ih hlt (by omega); omega
    · exact Nat.le_refl _

theorem State.IntervalsOk.end_le (h : s.IntervalsOk) {i : Nat} (hi : i ≤ 255) : s.decStart i + s.decFreq i ≤ 16384 := by
  obtain ⟨-, -, -, hend, -⟩ := id h
  obtain hlt | rfl := Nat.lt_or_eq_of_le hi
  · have := h.end_le_start hlt (Nat.le_refl _); omega
  · exact hend.le

theorem decOf_start (s : State) (b : Byte) : (s.decOf b).start.toNat = s.decStart b.toNat := by
  rw [State.decStart, ofNat_toNat_byte]

theorem decOf_freq (s : State) (b : Byte) : (s.decOf b).freq.toNat = s.decFreq b.toNat := by
  rw [State.decFreq, ofNat_toNat_byte]

/-- A symbol's interval lies within the 16384 slots. -/
theorem State.IntervalsOk.fits (h : s.IntervalsOk) (b : Byte) : (s.decOf b).start.toNat + (s.decOf b).freq.toNat ≤ 2 ^ 14 := by
  rw [decOf_start, decOf_freq]; exact h.end_le (Nat.le_of_lt_succ b.isLt)

theorem State.IntervalsOk.encOf_fits (h : s.IntervalsOk) (b : Byte) : (s.encOf b).start.toNat + (s.encOf b).freq.toNat ≤ 2 ^ 14 := by
  obtain ⟨hagree, -⟩ := id h
  rw [(hagree b).1, (hagree b).2]; exact h.fits b

theorem invOf_mod (s : State) (x : Nat) : s.invOf (x % 2 ^ 14) = s.invOf x := by
  simp only [State.invOf, Nat.mod_mod]

/-- Only the low 14 bits of a state name its symbol (41 R143). -/
theorem invOf_congr {x y : Nat} (h : x % 2 ^ 14 = y % 2 ^ 14) : s.invOf x = s.invOf y := by
  rw [← invOf_mod, h, invOf_mod]

/-- The slot of any state lies in the interval of the symbol it names (41 R146). -/
theorem State.IntervalsOk.slot_mem (h : s.IntervalsOk) (x : Nat) :
    (s.decOf (s.invOf x)).start.toNat ≤ x % 2 ^ 14
      ∧ x % 2 ^ 14 < (s.decOf (s.invOf x)).start.toNat + (s.decOf (s.invOf x)).freq.toNat := by
  obtain ⟨-, -, -, -, hslots⟩ := h
  rw [← invOf_mod s x]
  exact hslots _ (Nat.mod_lt _ (by decide))

/-- A slot of a symbol's interval names that symbol: two intervals have no slot in common (41 R147). -/
theorem State.IntervalsOk.invOf_eq (h : s.IntervalsOk) {x : Nat} {b : Byte} (hlow : (s.decOf b).start.toNat ≤ x % 2 ^ 14)
    (hhigh : x % 2 ^ 14 < (s.decOf b).start.toNat + (s.decOf b).freq.toNat) : s.invOf x = b := by
  obtain ⟨hlow', hhigh'⟩ := h.slot_mem x
  rw [decOf_start] at hlow hlow'
  rw [decOf_start, decOf_freq] at hhigh hhigh'
  have hb := b.isLt
  have hb' := (s.invOf x).isLt
  obtain hlt | heq | hgt := Nat.lt_trichotomy (s.invOf x).toNat b.toNat
  · have := h.end_le_start hlt (by omega); omega
  · exact BitVec.eq_of_toNat_eq heq
  · have := h.end_le_start hgt (by omega); omega

/-- The decode update without a difference below 0 (41 R146). -/
theorem State.IntervalsOk.decodedState_eq (h : s.IntervalsOk) (x : Nat) : s.decodedState x =
    (s.decOf (s.invOf x)).freq.toNat * (x / 2 ^ 14) + (x % 2 ^ 14 - (s.decOf (s.invOf x)).start.toNat) := by
  rw [State.decodedState, Nat.add_sub_assoc (h.slot_mem x).1]

/-- The decode update keeps 64 bits (41 R146). -/
theorem State.IntervalsOk.decodedState_lt (h : s.IntervalsOk) {x : Nat} (hx : x < 2 ^ 64) : s.decodedState x < 2 ^ 64 := by
  obtain ⟨hlow, hhigh⟩ := h.slot_mem x
  have hfit := h.fits (s.invOf x)
  rw [h.decodedState_eq]
  generalize (s.decOf (s.invOf x)).freq.toNat = f at *
  generalize (s.decOf (s.invOf x)).start.toNat = c at *
  calc f * (x / 2 ^ 14) + (x % 2 ^ 14 - c) < f * (x / 2 ^ 14 + 1) := by rw [Nat.mul_add, Nat.mul_one]; omega
    _ ≤ 2 ^ 14 * 2 ^ 50 := Nat.mul_le_mul (by omega) (by omega)

/-- What the decode update leaves in `X`. -/
theorem State.IntervalsOk.decodeSymbol_toNat (h : s.IntervalsOk) (i : Nat) (r : Run) :
    (s.decodeSymbol i r).work.x.toNat = s.decodedState r.work.x.toNat := by
  rw [decodeSymbol_x, BitVec.toNat_ofNat, Nat.mod_eq_of_lt (h.decodedState_lt r.work.x.isLt)]

/-- Settles O40: the slot lies in the interval of the symbol it names, which gives the difference and the bound. -/
theorem decodeStepNeverWraps : Obligations.DecodeStepNeverWraps := by
  intro s x h
  have hstate := h.decodedState_eq x.toNat
  refine ⟨(h.slot_mem x.toNat).1, hstate ▸ h.decodedState_lt x.isLt, fun i r hx => ?_⟩
  rw [h.decodeSymbol_toNat, hx, hstate]

/-- On a valid table set the decode update undoes the encode update (41 R147). -/
theorem State.IntervalsOk.decodedState_refUpdated (h : s.IntervalsOk) {b : Byte} (hb : s.symFreq b ≠ 0) (x : Nat) :
    s.invOf (refUpdated (s.symFreq b) (s.encOf b).start.toNat x) = b
      ∧ s.decodedState (refUpdated (s.symFreq b) (s.encOf b).start.toNat x) = x := by
  obtain ⟨hagree, -⟩ := id h
  obtain ⟨hfreq, hstart⟩ := hagree b
  have hf : 1 ≤ s.symFreq b := Nat.pos_of_ne_zero hb
  have hfit := h.encOf_fits b
  have hmod := refUpdated_mod (x := x) hf hfit
  have hlt := Nat.mod_lt x hf
  rw [State.symFreq] at *
  have hinv : s.invOf (refUpdated (s.encOf b).freq.toNat (s.encOf b).start.toNat x) = b := by
    refine h.invOf_eq ?_ ?_ <;> rw [hmod, ← hstart]
    · omega
    · rw [← hfreq]; omega
  refine ⟨hinv, ?_⟩
  rw [h.decodedState_eq, hinv, hmod, refUpdated_div hf hfit, ← hstart, ← hfreq, Nat.add_sub_cancel, Nat.div_add_mod]

end Sys2Proof.Machine
end

/-! ### The decoder of the reference and fast codec

A decode step writes the symbol its state names, updates the state, and pulls a word when the state falls below 2^31; the tail is no part of the
destination, so what it reads is what stood there at the start (41 R141 to R144). -/

section
namespace Sys2Proof.Machine

variable {s : State} {r r' : Run} {tailEnd n i : Nat}

/-! #### The word pull -/

theorem pullWord_of_ge (tailEnd : Nat) (hx : 2 ^ 31 ≤ r.work.x.toNat) : pullWord tailEnd r = .ok r :=
  if_neg (Nat.not_lt.mpr hx)

theorem pullWord_of_lt (tailEnd : Nat) (hx : r.work.x.toNat < 2 ^ 31) : pullWord tailEnd r =
    if tailEnd - r.work.rd.toNat < 4 then .error .invalidLength
    else .ok { r with work := { r.work with x := BitVec.ofNat 64 ((r.work.x.toNat <<< 32) + r.mem.readLE r.work.rd.toNat 4),
                                            rd := BitVec.ofNat 33 (r.work.rd.toNat + 4) } } :=
  if_pos hx

/-- Past the end of the tail the word pull stops (41 R142). -/
theorem pullWord_stops (hx : r.work.x.toNat < 2 ^ 31) (hend : tailEnd < r.work.rd.toNat + 4) :
    pullWord tailEnd r = .error .invalidLength := by
  rw [pullWord_of_lt tailEnd hx, if_pos (by omega)]

/-- Inside the tail the word comes into the low end of `X`, and nothing is lost at the high end (41 R144). -/
theorem pullWord_pulls (hfits : tailEnd ≤ 2 ^ 32) (hx : r.work.x.toNat < 2 ^ 31) (hend : r.work.rd.toNat + 4 ≤ tailEnd) :
    ∃ r', pullWord tailEnd r = .ok r' ∧ r'.work.x.toNat = r.work.x.toNat * 2 ^ 32 + r.mem.readLE r.work.rd.toNat 4
      ∧ r'.work.rd.toNat = r.work.rd.toNat + 4 ∧ r'.mem = r.mem := by
  have hword := r.mem.readLE_lt r.work.rd.toNat 4
  rw [pullWord_of_lt tailEnd hx, if_neg (by omega)]
  refine ⟨_, rfl, ?_, ?_, rfl⟩
  · show (BitVec.ofNat 64 ((r.work.x.toNat <<< 32) + r.mem.readLE r.work.rd.toNat 4)).toNat = _
    rw [BitVec.toNat_ofNat, Nat.shiftLeft_eq, Nat.mod_eq_of_lt (by omega)]
  · show (BitVec.ofNat 33 (r.work.rd.toNat + 4)).toNat = _
    rw [BitVec.toNat_ofNat, Nat.mod_eq_of_lt (by omega)]

/-! #### The head of the tail -/

theorem readTwoWords_short (h : s.nSrc.toNat < 8) : s.readTwoWords = .error .invalidLength :=
  if_pos (by rw [State.srcEnd]; omega)

/-- The first two words make the state, the low word first (41 R141). -/
theorem readTwoWords_reads (h : 8 ≤ s.nSrc.toNat) : ∃ r, s.readTwoWords = .ok r
    ∧ r.work.x.toNat = s.mem.readLE s.aSrc.toNat 4 + 2 ^ 32 * s.mem.readLE (s.aSrc.toNat + 4) 4
    ∧ r.work.rd.toNat = s.aSrc.toNat + 8 ∧ r.mem = s.mem := by
  have hlow := s.mem.readLE_lt s.aSrc.toNat 4
  have hhigh := s.mem.readLE_lt (s.aSrc.toNat + 4) 4
  have ha := s.aSrc.isLt
  have hroom : ¬ s.srcEnd - s.aSrc.toNat < 8 := by rw [State.srcEnd]; omega
  refine ⟨_, if_neg hroom, ?_, ?_, rfl⟩
  · show (BitVec.ofNat 64 (s.mem.readLE s.aSrc.toNat 4 + 2 ^ 32 * s.mem.readLE (s.aSrc.toNat + 4) 4)).toNat = _
    rw [BitVec.toNat_ofNat, Nat.mod_eq_of_lt (by omega)]
  · show (BitVec.ofNat 33 (s.aSrc.toNat + 8)).toNat = _
    rw [BitVec.toNat_ofNat, Nat.mod_eq_of_lt (by omega)]

theorem readTwoWords_error {e : ErrorCode} (h : s.readTwoWords = .error e) : e = .invalidLength := by
  obtain hshort | hlong := Nat.lt_or_ge s.nSrc.toNat 8
  · rw [readTwoWords_short hshort] at h; cases h; rfl
  · obtain ⟨r, hr, -⟩ := readTwoWords_reads hlong
    rw [hr] at h; cases h

/-- The one error of `DEC.REF` and `DEC.FAST` after the prologue (60 R233). -/
theorem decWords_error {e : ErrorCode} (h : s.decWords = .error e) : e = .invalidLength := by
  unfold State.decWords at h
  cases hhead : s.readTwoWords with
  | error e' => rw [hhead] at h; cases h; exact readTwoWords_error hhead
  | ok r =>
    rw [hhead] at h
    exact decLoop_error (· = .invalidLength) (fun _ _ _ he => (pullWord_error he).1) _ _ _ _ h

theorem decWords_short (h : s.nSrc.toNat < 8) : s.decWords = .error .invalidLength := by
  rw [State.decWords, readTwoWords_short h]; rfl

theorem decWords_of_head (h : s.readTwoWords = .ok r) : s.decWords = decLoop (decStepRef s) s.nBuf.toNat 0 r := by
  rw [State.decWords, h]; rfl

/-! #### The loop -/

theorem decLoop_succ (step : Nat → Run → Except ErrorCode Run) (n i : Nat) (r : Run) :
    decLoop step (n + 1) i r = step i (r.setIdx i) >>= decLoop step n (i + 1) := rfl

/-- After a step that ends with `r'` the loop goes on from `r'`. -/
theorem decLoop_of_step {step : Nat → Run → Except ErrorCode Run} (h : step i (r.setIdx i) = .ok r') :
    decLoop step (n + 1) i r = decLoop step n (i + 1) r' := by
  rw [decLoop_succ, h]; rfl

theorem decLoop_of_step_error {step : Nat → Run → Except ErrorCode Run} {e : ErrorCode} (h : step i (r.setIdx i) = .error e) :
    decLoop step (n + 1) i r = .error e := by
  rw [decLoop_succ, h]; rfl

/-- The output rises: the loop from position `i` leaves what stands below it. -/
theorem decLoop_keeps_below (h : decLoop (decStepRef s) n i r = .ok r') {a : Nat} (ha : a < s.aBuf.toNat + i) :
    r'.mem.read a = r.mem.read a := by
  refine decLoop_keeps (fun q => q.mem.read a = r.mem.read a) (fun _ _ hq => hq) i (i + n) (fun j q q' hj _ hq hstep => ?_)
    n i r r' (Nat.le_refl _) (Nat.le_refl _) rfl h
  rw [decStepRef_mem hstep, State.decodeSymbol_mem, Memory.read_write_ne _ _ (by omega), hq]

/-- The symbol of the first step stays where it was written. -/
theorem decLoop_first (h : decLoop (decStepRef s) (n + 1) i r = .ok r') :
    r'.mem.read (s.aBuf.toNat + i) = s.invOf r.work.x.toNat := by
  obtain ⟨a, hstep, hrest⟩ := (bind_eq_ok _ _ _).mp h
  rw [decLoop_keeps_below hrest (by omega), decStepRef_mem hstep, State.decodeSymbol_mem, Memory.read_write_same]
  rfl

/-- A step pulls at most one word, so with four bytes of tail it does not stop. -/
theorem decStepRef_completes (hfits : s.srcEnd ≤ 2 ^ 32) (i : Nat) (hroom : r.work.rd.toNat + 4 ≤ s.srcEnd) :
    ∃ r', decStepRef s i r = .ok r' ∧ r'.work.rd.toNat ≤ r.work.rd.toNat + 4 := by
  obtain hlt | hge := Nat.lt_or_ge (s.decodeSymbol i r).work.x.toNat (2 ^ 31)
  · obtain ⟨r', hr', -, hrd, -⟩ := pullWord_pulls hfits hlt hroom
    exact ⟨r', hr', hrd.le⟩
  · exact ⟨_, pullWord_of_ge _ hge, Nat.le_add_right _ _⟩

theorem decLoop_completes (hfits : s.srcEnd ≤ 2 ^ 32) : ∀ (n i : Nat) {r : Run}, r.work.rd.toNat + 4 * n ≤ s.srcEnd →
    ∃ r', decLoop (decStepRef s) n i r = .ok r'
  | 0, _, r, _ => ⟨r, rfl⟩
  | n + 1, i, r, hroom => by
    have hrd : (r.setIdx i).work.rd = r.work.rd := rfl
    obtain ⟨a, hstep, ha⟩ := decStepRef_completes (r := r.setIdx i) hfits i (by rw [hrd]; omega)
    rw [hrd] at ha
    rw [decLoop_of_step hstep]
    exact decLoop_completes hfits n (i + 1) (by omega)

/-! #### What the loop writes -/

/-- A valid source region ends at 2^32 or below (20 R62). -/
theorem State.RegionsOk.srcEnd_le (h : s.RegionsOk) : s.srcEnd ≤ 2 ^ 32 := by
  obtain ⟨hsrc, -, -⟩ := h
  have := s.memTop.isLt
  rw [State.srcEnd]; rw [State.RegionValid, State.memSize] at hsrc; omega

/-- A coding command writes its destination only, which shares no byte with its source (20 R62, R78). -/
theorem State.WrittenInside.read_source (hr : s.WrittenInside r) (h : s.RegionsOk) {a : Nat} (hlow : s.aSrc.toNat ≤ a)
    (hhigh : a < s.srcEnd) : r.mem.read a = s.mem.read a := by
  obtain ⟨-, -, hdisjoint⟩ := h
  refine hr a ?_
  by_contra hin
  refine hdisjoint ?_
  rw [State.srcEnd] at hhigh
  rw [State.bufEnd] at hin
  exact ⟨by omega, by omega, by omega, by omega⟩

/-- A decoder ends with the expected symbols from position `i` of the destination up, or where none are expected with `InvalidLength`. -/
def State.DecodesTo (s : State) (i : Nat) : Option (List Byte) → Except ErrorCode Run → Prop
  | none, o => o = .error .invalidLength
  | some l, o => ∃ r, o = .ok r ∧ ∀ j < l.length, r.mem.read (s.aBuf.toNat + i + j) = l.getD j 0

/-- The first symbol goes before the others. -/
theorem State.DecodesTo.cons {l : Option (List Byte)} {o : Except ErrorCode Run} {b : Byte} (h : s.DecodesTo (i + 1) l o)
    (hfirst : ∀ r, o = .ok r → r.mem.read (s.aBuf.toNat + i) = b) : s.DecodesTo i (l.map (b :: ·)) o := by
  cases l with
  | none => exact h
  | some l =>
    obtain ⟨r, hr, hrest⟩ := h
    refine ⟨r, hr, fun j hj => ?_⟩
    cases j with
    | zero => exact hfirst r hr
    | succ j =>
      have hread := hrest j (Nat.lt_of_succ_lt_succ hj)
      rwa [show s.aBuf.toNat + (i + 1) + j = s.aBuf.toNat + i + (j + 1) by omega] at hread

theorem refDecoded_length {x rd : Nat} {l : List Byte} (h : s.refDecoded n x rd = some l) : l.length = n := by
  induction n generalizing x rd l with
  | zero => cases h; rfl
  | succ n ih =>
    rw [State.refDecoded] at h
    split_ifs at h
    all_goals
      obtain ⟨l', hl', rfl⟩ := Option.map_eq_some_iff.mp h
      rw [List.length_cons, ih hl']

/-- One step of what is expected of the tail (41 R143, R144), case by case. -/
theorem refDecoded_succ_of_ge {x : Nat} (rd : Nat) (h : 2 ^ 31 ≤ s.decodedState x) :
    s.refDecoded (n + 1) x rd = (s.refDecoded n (s.decodedState x) rd).map (s.invOf x :: ·) := if_pos h

@[inherit_doc refDecoded_succ_of_ge]
theorem refDecoded_succ_of_lt {x rd : Nat} (h : s.decodedState x < 2 ^ 31) (hend : rd + 4 ≤ s.srcEnd) :
    s.refDecoded (n + 1) x rd = (s.refDecoded n (s.decodedState x * 2 ^ 32 + s.mem.readLE rd 4) (rd + 4)).map (s.invOf x :: ·) :=
  (if_neg (Nat.not_le.mpr h)).trans (if_neg (Nat.not_lt.mpr hend))

@[inherit_doc refDecoded_succ_of_ge]
theorem refDecoded_succ_of_end {x rd : Nat} (h : s.decodedState x < 2 ^ 31) (hend : s.srcEnd < rd + 4) :
    s.refDecoded (n + 1) x rd = none :=
  (if_neg (Nat.not_le.mpr h)).trans (if_pos hend)

/-- On a valid table set the decode loop writes what the rest of the tail says (41 R142 to R144). -/
theorem decLoop_decodesTo (htab : s.IntervalsOk) (hreg : s.RegionsOk) : ∀ (n i : Nat) {r : Run}, i + n ≤ s.nBuf.toNat →
    s.WrittenInside r → s.aSrc.toNat ≤ r.work.rd.toNat →
    s.DecodesTo i (s.refDecoded n r.work.x.toNat r.work.rd.toNat) (decLoop (decStepRef s) n i r)
  | 0, _, r, _, _, _ => ⟨r, rfl, nofun⟩
  | n + 1, i, r, hi, hr, hrd => by
    have hfirst := fun r' => decLoop_first (s := s) (n := n) (i := i) (r := r) (r' := r')
    obtain ⟨q, hq⟩ : ∃ q, s.decodeSymbol i (r.setIdx i) = q := ⟨_, rfl⟩
    have hqx : q.work.x.toNat = s.decodedState r.work.x.toNat := by rw [← hq, htab.decodeSymbol_toNat]; rfl
    have hqrd : q.work.rd.toNat = r.work.rd.toNat := by rw [← hq]; rfl
    have hqin : s.WrittenInside q := fun a ha => by
      rw [State.bufEnd] at ha
      rw [← hq, State.decodeSymbol_mem, Memory.read_write_ne _ _ (by omega)]
      exact hr a ha
    have hstep : decStepRef s i (r.setIdx i) = pullWord s.srcEnd q := by rw [← hq]; rfl
    obtain hlt | hge := Nat.lt_or_ge (s.decodedState r.work.x.toNat) (2 ^ 31)
    · obtain hend | hend := Nat.lt_or_ge s.srcEnd (r.work.rd.toNat + 4)
      · rw [refDecoded_succ_of_end hlt hend]
        exact decLoop_of_step_error (hstep.trans (pullWord_stops (hqx ▸ hlt) (hqrd ▸ hend)))
      · obtain ⟨p, hp, hpx, hprd, hpmem⟩ := pullWord_pulls hreg.srcEnd_le (hqx ▸ hlt) (hqrd ▸ hend)
        have hloop := decLoop_of_step (n := n) (hstep.trans hp)
        have hword : q.mem.readLE r.work.rd.toNat 4 = s.mem.readLE r.work.rd.toNat 4 :=
          Memory.readLE_congr fun j hj => hqin.read_source hreg (by omega) (by omega)
        rw [hqx, hqrd, hword] at hpx
        rw [hqrd] at hprd
        rw [refDecoded_succ_of_lt hlt hend, ← hpx, ← hprd]
        refine State.DecodesTo.cons ?_ hfirst
        rw [hloop]
        exact decLoop_decodesTo htab hreg n (i + 1) (by omega) (fun a ha => by rw [hpmem]; exact hqin a ha) (by omega)
    · have hloop := decLoop_of_step (n := n) (hstep.trans (pullWord_of_ge _ (hqx ▸ hge)))
      rw [refDecoded_succ_of_ge _ hge, ← hqx, ← hqrd]
      refine State.DecodesTo.cons ?_ hfirst
      rw [hloop]
      exact decLoop_decodesTo htab hreg n (i + 1) (by omega) hqin (by omega)

/-- What `DEC.REF` and `DEC.FAST` make of a tail of at least 8 bytes. -/
def State.decodedSymbols (s : State) : Option (List Byte) :=
  s.refDecoded s.nBuf.toNat (s.mem.readLE s.aSrc.toNat 4 + 2 ^ 32 * s.mem.readLE (s.aSrc.toNat + 4) 4) (s.aSrc.toNat + 8)

theorem decWords_decodesTo (htab : s.IntervalsOk) (hreg : s.RegionsOk) (hlen : 8 ≤ s.nSrc.toNat) :
    s.DecodesTo 0 s.decodedSymbols s.decWords := by
  obtain ⟨r, hr, hx, hrd, hmem⟩ := readTwoWords_reads hlen
  have hloop := decLoop_decodesTo htab hreg s.nBuf.toNat 0 (r := r) (by omega) (fun a _ => by rw [hmem]) (by omega)
  rwa [hx, hrd, ← decWords_of_head hr] at hloop

/-! #### The commands -/

theorem finishDecode_ok (s : State) (r : Run) : EndedWith (s.finishDecode (.ok r)) .none ∧ (s.finishDecode (.ok r)).mem = r.mem :=
  ⟨⟨rfl, rfl, rfl, rfl⟩, rfl⟩

theorem raise_endedWith (s : State) (e : ErrorCode) : EndedWith (s.raise e) e := ⟨rfl, rfl, rfl, State.raise_result s e⟩

theorem finishDecode_error (s : State) (e : ErrorCode) : EndedWith (s.finishDecode (.error e)) e := raise_endedWith _ e

/-- `DEC.REF` and `DEC.FAST` have the same prologue and the same rule (42 R170). -/
theorem exec_dec {d : Instr} (hd : d ∈ [Instr.decRef, .decFast]) (htvar : s.SharedTables) (hreg : s.RegionsOk) :
    exec d s = .next (s.finishDecode s.decWords) := by
  simp only [List.mem_cons, List.not_mem_nil, or_false] at hd
  obtain rfl | rfl := hd
  · exact exec_of_ready (i := .decRef) hreg htvar
  · exact exec_of_ready (i := .decFast) hreg htvar

/-- A command that ends with the expected symbols, or with `InvalidLength` where none are expected. -/
theorem finishDecode_decodesTo {l : Option (List Byte)} {o : Except ErrorCode Run} (h : s.DecodesTo 0 l o) :
    (l = none → EndedWith (s.finishDecode o) .invalidLength)
      ∧ ∀ l', l = some l' → EndedWith (s.finishDecode o) .none
        ∧ ∀ j < l'.length, (s.finishDecode o).mem.read (s.aBuf.toNat + j) = l'.getD j 0 := by
  cases l with
  | none => exact ⟨fun _ => h ▸ finishDecode_error s _, nofun⟩
  | some l =>
    obtain ⟨r, rfl, hread⟩ := h
    refine ⟨nofun, fun l' hl' => ?_⟩
    cases hl'
    exact ⟨(finishDecode_ok s r).1, hread⟩

/-- Settles O53: each of the `N_BUF` steps pulls at most one word, so a tail of 8 + 4 * `N_BUF` bytes suffices on any tables. -/
theorem decRefAndFastComplete : Obligations.DecRefAndFastComplete := by
  intro s d hd htvar hreg hlen
  obtain ⟨r, hr, hx, hrd, -⟩ := readTwoWords_reads (s := s) (by omega)
  obtain ⟨r', hr'⟩ := decLoop_completes hreg.srcEnd_le s.nBuf.toNat 0 (r := r) (by rw [hrd, State.srcEnd]; omega)
  have hwords : s.decWords = .ok r' := (decWords_of_head hr).trans hr'
  obtain ⟨⟨hin, hstat, htab⟩, hout⟩ := finishDecode_frame (s := s) fun _ => decWords_writtenInside
  refine ⟨_, exec_dec hd htvar hreg, hwords ▸ (finishDecode_ok s r').1, fun hpos => ?_, hin, hstat, htab, hout⟩
  obtain ⟨n, hn⟩ := Nat.exists_eq_succ_of_ne_zero hpos.ne'
  rw [hn] at hr'
  have hslot : s.invOf r.work.x.toNat = s.invOf (s.mem.readLE s.aSrc.toNat 4) := invOf_congr (by omega)
  rw [hwords, ← hslot]
  exact decLoop_first hr'

/-- Settles O55: the three cases of the word pull, its one error, and the loop against the plain reading of the tail. -/
theorem refDecoderErrors : Obligations.RefDecoderErrors := by
  refine ⟨fun tailEnd r hfits => ⟨pullWord_of_ge tailEnd, pullWord_stops, pullWord_pulls hfits⟩, fun s d hd htvar hreg => ?_⟩
  refine ⟨_, exec_dec hd htvar hreg, ?_, fun hshort => decWords_short hshort ▸ finishDecode_error s _, fun htab hlen => ?_⟩
  · cases hwords : s.decWords with
    | ok r => exact .inl (finishDecode_ok s r).1
    | error e => exact .inr (decWords_error hwords ▸ finishDecode_error s e)
  · obtain ⟨hnone, hsome⟩ := finishDecode_decodesTo (decWords_decodesTo htab hreg hlen)
    split
    · next hl => exact hnone hl
    · next l hl =>
      obtain ⟨hended, hread⟩ := hsome l hl
      exact ⟨hended, fun j hj => hread j (by rwa [refDecoded_length hl])⟩

end Sys2Proof.Machine
end

/-! ### The reciprocal of the fast codec -/

section
namespace Sys2Proof.Machine

variable {f c v n : Nat}

theorem lt_two_pow_bitWidth (v : Nat) : v < 2 ^ bitWidth v := by
  rw [bitWidth]; split_ifs with h
  · omega
  · exact Nat.lt_log2_self

theorem two_pow_pred_bitWidth_le (hv : v ≠ 0) : 2 ^ (bitWidth v - 1) ≤ v := by
  rw [bitWidth, if_neg hv]; exact Nat.log2_self_le hv

theorem bitWidth_pos (hv : v ≠ 0) : 0 < bitWidth v := by rw [bitWidth, if_neg hv]; omega

theorem bitWidth_le (h : v < 2 ^ n) : bitWidth v ≤ n := by
  by_cases hv : v = 0
  · rw [bitWidth, if_pos hv]; omega
  · rw [bitWidth, if_neg hv]; exact (Nat.log2_lt hv).mpr h

/-- A number `m` that is `2 ^ n / f` rounded up divides by `f`, as long as the rounding error times `x` stays below `2 ^ n` (42 R165). -/
theorem mul_div_two_pow_of_rounded {m x : Nat} (hf : 0 < f) (hlow : 2 ^ n ≤ m * f) (herr : x * (m * f - 2 ^ n) < 2 ^ n) :
    x * m / 2 ^ n = x / f := by
  obtain ⟨err, herr'⟩ : ∃ err, m * f = 2 ^ n + err := ⟨_, (Nat.add_sub_cancel' hlow).symm⟩
  rw [herr', Nat.add_sub_cancel_left] at herr
  have hmul : x * m * f = x * 2 ^ n + x * err := by rw [Nat.mul_assoc, herr', Nat.mul_add]
  have hx := Nat.div_add_mod' x f
  have hmod := Nat.mod_lt x hf
  refine Nat.div_eq_of_lt_le (Nat.le_of_mul_le_mul_right (?_ : x / f * 2 ^ n * f ≤ x * m * f) hf)
    (Nat.lt_of_mul_lt_mul_right (?_ : x * m * f < (x / f + 1) * 2 ^ n * f))
  · calc x / f * 2 ^ n * f = x / f * f * 2 ^ n := by ring
      _ ≤ x * 2 ^ n := Nat.mul_le_mul_right _ (by omega)
      _ ≤ x * m * f := by omega
  · calc x * m * f < x * 2 ^ n + 2 ^ n := by omega
      _ = (x + 1) * 2 ^ n := by ring
      _ ≤ (x / f * f + f) * 2 ^ n := Nat.mul_le_mul_right _ (by omega)
      _ = (x / f + 1) * 2 ^ n * f := by ring

theorem fastEntry_rcp (e : EncEntry) (f c : Nat) : (fastEntry e f c).rcp =
    if f < 2 then BitVec.ofNat 64 (2 ^ 64 - 1) else BitVec.ofNat 64 ((2 ^ (bitWidth (f - 1) + 63) + f - 1) / f) := rfl

theorem fastEntry_rcpShift (e : EncEntry) (f c : Nat) : (fastEntry e f c).rcpShift =
    if f < 2 then 0 else BitVec.ofNat 32 (bitWidth (f - 1) - 1) := rfl

theorem fastEntry_bias (e : EncEntry) (f c : Nat) : (fastEntry e f c).bias =
    if f < 2 then BitVec.ofNat 32 (c + Config.total - 1) else BitVec.ofNat 32 c := rfl

theorem fastEntry_cmplFreq (e : EncEntry) (f c : Nat) : (fastEntry e f c).cmplFreq = BitVec.ofNat 32 (Config.total - f) := rfl

/-- The reciprocal of a frequency above 1 fits 64 bits and is the power of two over `f`, rounded up (42 R161, R164). -/
theorem fastEntry_rcp_bounds (e : EncEntry) (c : Nat) (hf : 2 ≤ f) (hmax : f ≤ 16384) :
    2 ^ (bitWidth (f - 1) + 63) ≤ (fastEntry e f c).rcp.toNat * f
      ∧ (fastEntry e f c).rcp.toNat * f < 2 ^ (bitWidth (f - 1) + 63) + f := by
  have hlow := two_pow_pred_bitWidth_le (v := f - 1) (by omega)
  have hpos := bitWidth_pos (v := f - 1) (by omega)
  have hwidth : bitWidth (f - 1) ≤ 14 := bitWidth_le (by omega)
  have hsplit : 2 ^ (bitWidth (f - 1) + 63) = 2 ^ 64 * 2 ^ (bitWidth (f - 1) - 1) := by
    rw [← Nat.pow_add]; congr 1; omega
  rw [fastEntry_rcp, if_neg (by omega), BitVec.toNat_ofNat]
  have hfits : (2 ^ (bitWidth (f - 1) + 63) + f - 1) / f < 2 ^ 64 := by
    rw [Nat.div_lt_iff_lt_mul (by omega), hsplit]; omega
  rw [Nat.mod_eq_of_lt hfits]
  have hdiv := Nat.div_add_mod' (2 ^ (bitWidth (f - 1) + 63) + f - 1) f
  have hmod := Nat.mod_lt (2 ^ (bitWidth (f - 1) + 63) + f - 1) (show 0 < f by omega)
  omega

/-- The reciprocal of a frequency above 1 divides exactly below 2^63 (42 R165). -/
theorem fastQuotient_fastEntry (e : EncEntry) (c : Nat) {x : DWord} (hf : 2 ≤ f) (hmax : f ≤ 16384) (hx : x.toNat < 2 ^ 63) :
    fastQuotient (fastEntry e f c) x = x.toNat / f := by
  obtain ⟨hlow, hhigh⟩ := fastEntry_rcp_bounds e c hf hmax
  have hwidth : bitWidth (f - 1) ≤ 14 := bitWidth_le (by omega)
  have hpos := bitWidth_pos (v := f - 1) (by omega)
  have hfle : f ≤ 2 ^ bitWidth (f - 1) := by have := lt_two_pow_bitWidth (f - 1); omega
  have hshift : (fastEntry e f c).rcpShift.toNat = bitWidth (f - 1) - 1 := by
    rw [fastEntry_rcpShift, if_neg (by omega), BitVec.toNat_ofNat, Nat.mod_eq_of_lt (by omega)]
  have hdiv : fastQuotient (fastEntry e f c) x = x.toNat * (fastEntry e f c).rcp.toNat / 2 ^ (bitWidth (f - 1) + 63) := by
    rw [fastQuotient, mulhi64, hshift, Nat.shiftRight_eq_div_pow, Nat.shiftRight_eq_div_pow, Nat.div_div_eq_div_mul, ← Nat.pow_add]
    congr 2; omega
  rw [hdiv]
  refine mul_div_two_pow_of_rounded (by omega) hlow ?_
  calc x.toNat * ((fastEntry e f c).rcp.toNat * f - 2 ^ (bitWidth (f - 1) + 63))
      ≤ x.toNat * 2 ^ bitWidth (f - 1) := Nat.mul_le_mul_left _ (by omega)
    _ < 2 ^ 63 * 2 ^ bitWidth (f - 1) := Nat.mul_lt_mul_of_pos_right hx (Nat.two_pow_pos _)
    _ = 2 ^ (bitWidth (f - 1) + 63) := by rw [Nat.pow_add, Nat.mul_comm]

/-- The all-ones reciprocal of frequency 1 gives the quotient less one, for which the bias makes up (42 R163). -/
theorem fastQuotient_fastEntry_one (e : EncEntry) (c : Nat) {x : DWord} (hx : 1 ≤ x.toNat) :
    fastQuotient (fastEntry e 1 c) x = x.toNat - 1 := by
  have hlt := x.isLt
  have hshift : (fastEntry e 1 c).rcpShift.toNat = 0 := by rw [fastEntry_rcpShift, if_pos (by decide)]; rfl
  have hrcp : (fastEntry e 1 c).rcp.toNat = 2 ^ 64 - 1 := by rw [fastEntry_rcp, if_pos (by decide)]; rfl
  rw [fastQuotient, mulhi64, hshift, hrcp, Nat.shiftRight_zero, Nat.shiftRight_eq_div_pow]
  omega

/-- On the operating range the update of `ENC.FAST` is that of `ENC.REF` (42 R168). -/
theorem fastUpdate_fastEntry (e : EncEntry) {x : DWord} (hf : 1 ≤ f) (hfit : c + f ≤ 2 ^ 14) (hx : 1 ≤ x.toNat) (hlt : x.toNat < 2 ^ 49 * f) :
    fastUpdate (fastEntry e f c) x = refUpdated f c x.toNat := by
  have hcmpl : (fastEntry e f c).cmplFreq.toNat = 16384 - f := by
    rw [fastEntry_cmplFreq, BitVec.toNat_ofNat, Config.total, Nat.mod_eq_of_lt (by omega)]
  rw [fastUpdate, hcmpl, fastEntry_bias, refUpdated]
  obtain rfl | hf : f = 1 ∨ 2 ≤ f := by omega
  · rw [fastQuotient_fastEntry_one e c hx, if_pos (by decide), BitVec.toNat_ofNat, Config.total, Nat.mod_eq_of_lt (by omega),
      Nat.div_one, Nat.mod_one]
    omega
  · rw [fastQuotient_fastEntry e c hf (by omega) (by omega), if_neg (by omega), BitVec.toNat_ofNat, Nat.mod_eq_of_lt (by omega), Nat.mul_sub]
    have hquot : x.toNat / f * f ≤ x.toNat / f * 2 ^ 14 := Nat.mul_le_mul_left _ (by omega)
    have hx := Nat.div_add_mod' x.toNat f
    omega

end Sys2Proof.Machine
end

/-! ### Words in memory

The tail of `ENC.REF` and `ENC.FAST` is a row of little-endian words (41 R135, R139): the final state's two words, then the words the steps
emitted. A row is written from its end to its start, one word or two below the ones that stand already. -/

section
namespace Sys2Proof.Machine

variable {m m' : Memory} {a n w : Nat} {ws vs : List Nat}

/-- From `a` up memory holds the words `ws`, each in 4 bytes, little-endian. -/
def Memory.HoldsWords (m : Memory) (a : Nat) (ws : List Nat) : Prop := ∀ j < ws.length, m.readLE (a + 4 * j) 4 = ws.getD j 0

theorem Memory.holdsWords_nil (m : Memory) (a : Nat) : m.HoldsWords a [] := nofun

theorem Memory.holdsWords_cons : m.HoldsWords a (w :: ws) ↔ m.readLE a 4 = w ∧ m.HoldsWords (a + 4) ws := by
  have hplace (j : Nat) : a + 4 * (j + 1) = a + 4 + 4 * j := by omega
  constructor
  · intro h
    exact ⟨h 0 (Nat.succ_pos _), fun j hj => hplace j ▸ h (j + 1) (Nat.succ_lt_succ hj)⟩
  · rintro ⟨hfirst, hrest⟩ j hj
    cases j with
    | zero => exact hfirst
    | succ j => exact (hplace j).symm ▸ hrest j (Nat.lt_of_succ_lt_succ hj)

theorem Memory.holdsWords_append : m.HoldsWords a (vs ++ ws) ↔ m.HoldsWords a vs ∧ m.HoldsWords (a + 4 * vs.length) ws := by
  induction vs generalizing a with
  | nil => exact ⟨fun h => ⟨m.holdsWords_nil a, h⟩, And.right⟩
  | cons v vs ih =>
    rw [List.cons_append, Memory.holdsWords_cons, Memory.holdsWords_cons, ih, and_assoc, List.length_cons,
      show a + 4 + 4 * vs.length = a + 4 * (vs.length + 1) by omega]

theorem Memory.HoldsWords.congr (h : m.HoldsWords a ws) (hsame : ∀ x, a ≤ x → m'.read x = m.read x) : m'.HoldsWords a ws :=
  fun j hj => (Memory.readLE_congr fun _ _ => hsame _ (by omega)).trans (h j hj)

/-- A byte of a little-endian number (20 R63). -/
theorem Memory.read_eq_of_readLE (m : Memory) {a n j : Nat} (hj : j < n) :
    m.read (a + j) = BitVec.ofNat 8 (m.readLE a n / 2 ^ (8 * j)) := by
  induction n generalizing a j with
  | zero => omega
  | succ n ih =>
    have hbyte := (m.read a).isLt
    refine BitVec.eq_of_toNat_eq ?_
    rw [Memory.readLE, BitVec.toNat_ofNat]
    cases j with
    | zero => rw [Nat.mul_zero, Nat.pow_zero, Nat.div_one, Nat.add_mul_mod_self_left, Nat.mod_eq_of_lt hbyte]; rfl
    | succ j =>
      rw [show a + (j + 1) = a + 1 + j by omega, ih (Nat.lt_of_succ_lt_succ hj), BitVec.toNat_ofNat, Nat.mul_succ, Nat.add_comm (8 * j),
        Nat.pow_add, ← Nat.div_div_eq_div_mul, Nat.add_mul_div_left _ _ (by decide), Nat.div_eq_of_lt hbyte, Nat.zero_add]

end Sys2Proof.Machine
end

/-! ### What the word encoder writes -/

section
namespace Sys2Proof.Machine

variable {r r' : Run} {base n v f : Nat}

/-! #### The stream writes -/

theorem cursor_sub_toNat (r : Run) (n : Nat) : (BitVec.ofNat 33 (r.work.wr.toNat - n)).toNat = r.work.wr.toNat - n := by
  have := r.work.wr.isLt
  rw [BitVec.toNat_ofNat, Nat.mod_eq_of_lt (by omega)]

theorem emit_of_lt (v : Nat) (hn : 0 < n) (h : r.work.wr.toNat < base + n) : r.emit base n v = .error .bufferTooSmall :=
  if_pos (by omega)

theorem emit_of_le (v : Nat) (h : base + n ≤ r.work.wr.toNat) : r.emit base n v =
    .ok { work := { r.work with wr := BitVec.ofNat 33 (r.work.wr.toNat - n) }, mem := r.mem.writeLE (r.work.wr.toNat - n) n v } :=
  if_neg (by omega)

theorem renormalize_of_lt (base : Nat) (hx : r.work.x.toNat < 2 ^ 49 * f) : renormalize base f r = .ok r :=
  if_neg (Nat.not_le.mpr hx)

theorem renormalize_of_ge (base : Nat) (hx : 2 ^ 49 * f ≤ r.work.x.toNat) : renormalize base f r =
    (r.emit base 4 (low r.work.x.toNat 32) >>= fun a => pure (a.setX (r.work.x.toNat >>> 32))) :=
  if_pos hx

theorem renormalize_stops (hx : 2 ^ 49 * f ≤ r.work.x.toNat) (hroom : r.work.wr.toNat < base + 4) :
    renormalize base f r = .error .bufferTooSmall := by
  rw [renormalize_of_ge base hx, emit_of_lt _ (by decide) hroom]; rfl

/-- At the threshold and above, with room, the low word leaves (41 R137). -/
theorem renormalize_emits (hx : 2 ^ 49 * f ≤ r.work.x.toNat) (hroom : base + 4 ≤ r.work.wr.toNat) :
    ∃ r', renormalize base f r = .ok r' ∧ r'.work.x.toNat = r.work.x.toNat / 2 ^ 32 ∧ r'.work.wr.toNat + 4 = r.work.wr.toNat
      ∧ r'.mem.readLE r'.work.wr.toNat 4 = r.work.x.toNat % 2 ^ 32
      ∧ ∀ a, a < r'.work.wr.toNat ∨ r.work.wr.toNat ≤ a → r'.mem.read a = r.mem.read a := by
  have hwr := cursor_sub_toNat r 4
  have hxlt := r.work.x.isLt
  refine ⟨_, by rw [renormalize_of_ge base hx, emit_of_le _ hroom]; rfl, ?_, ?_, ?_, fun a ha => ?_⟩
  · rw [Run.setX_x, BitVec.toNat_ofNat, Nat.shiftRight_eq_div_pow, Nat.mod_eq_of_lt (by omega)]
  · rw [Run.setX_wr, hwr]; omega
  · rw [Run.setX_wr, Run.setX_mem, hwr, Memory.readLE_writeLE, low, Nat.mod_mod]
  · rw [Run.setX_wr, hwr] at ha
    exact Memory.read_writeLE_outside _ _ _ _ _ (by omega)

theorem flushState_stops (hroom : r.work.wr.toNat < base + 8) : flushState base r = .error .bufferTooSmall :=
  if_pos (by omega)

/-- With room the two words of the state are written, the low one at the lower address (41 R139). -/
theorem flushState_writes (hroom : base + 8 ≤ r.work.wr.toNat) :
    ∃ r', flushState base r = .ok r' ∧ r'.work.wr.toNat + 8 = r.work.wr.toNat
      ∧ r'.mem.readLE r'.work.wr.toNat 4 = r.work.x.toNat % 2 ^ 32
      ∧ r'.mem.readLE (r'.work.wr.toNat + 4) 4 = r.work.x.toNat / 2 ^ 32
      ∧ ∀ a, a < r'.work.wr.toNat ∨ r.work.wr.toNat ≤ a → r'.mem.read a = r.mem.read a := by
  have hwr := cursor_sub_toNat r 8
  have hx := r.work.x.isLt
  refine ⟨_, if_neg (by omega), ?_, ?_, ?_, fun a ha => ?_⟩ <;> simp only [hwr] at *
  · omega
  · rw [Memory.readLE_congr fun j hj => Memory.read_writeLE_outside _ _ _ _ _ (by omega), Memory.readLE_writeLE, low, Nat.mod_mod]
  · rw [Memory.readLE_writeLE, Nat.shiftRight_eq_div_pow, Nat.mod_eq_of_lt (by omega)]
  · rw [Memory.read_writeLE_outside _ _ _ _ _ (by omega), Memory.read_writeLE_outside _ _ _ _ _ (by omega)]

/-! #### The words of a run -/

variable {s t : State} {ws vs : List Nat} {l : List Byte} {b : Byte} {C C' : Prop} {P P' : Run → Prop} {o : Except ErrorCode Run}

/-- The run has written the words `ws` at the end of the destination, from `WR` up, and nothing else. -/
structure State.WordsWritten (s : State) (ws : List Nat) (r : Run) : Prop where
  inside : s.WrittenFromWr r
  count : r.work.wr.toNat + 4 * ws.length = s.bufEnd
  words : r.mem.HoldsWords r.work.wr.toNat ws

theorem State.WordsWritten.setX (h : s.WordsWritten ws r) (v : Nat) : s.WordsWritten ws (r.setX v) := ⟨h.inside, h.count, h.words⟩

theorem State.WordsWritten.setIdx (h : s.WordsWritten ws r) (i : Nat) : s.WordsWritten ws (r.setIdx i) := ⟨h.inside, h.count, h.words⟩

/-- New words below the ones that stand. -/
theorem State.WordsWritten.push (h : s.WordsWritten ws r) (hlow : s.aBuf.toNat ≤ r'.work.wr.toNat)
    (hwr : r'.work.wr.toNat + 4 * vs.length = r.work.wr.toNat) (hnew : r'.mem.HoldsWords r'.work.wr.toNat vs)
    (hframe : ∀ a, a < r'.work.wr.toNat ∨ r.work.wr.toNat ≤ a → r'.mem.read a = r.mem.read a) : s.WordsWritten (vs ++ ws) r' := by
  obtain ⟨⟨-, hhigh, hsame⟩, hcount, hold⟩ := h
  refine ⟨⟨hlow, by omega, fun x hx => ?_⟩, ?_, Memory.holdsWords_append.mpr ⟨hnew, hwr.symm ▸ ?_⟩⟩
  · rw [hframe x (by omega), hsame x (by omega)]
  · rw [List.length_append]; omega
  · exact hold.congr fun x hx => hframe x (.inr hx)

/-- With too little room for the words `vs` the whole row does not fit the destination. -/
theorem State.WordsWritten.not_fits (h : s.WordsWritten ws r) (hroom : r.work.wr.toNat < s.aBuf.toNat + 4 * vs.length) :
    s.nBuf.toNat < 4 * (vs ++ ws).length := by
  have hcount := h.count
  rw [State.bufEnd] at hcount
  rw [List.length_append]; omega

/-- A part of an encoder ends with the words `ws` written and a run that meets `P`, the symbols so far being coded, which is `C`; or it stops,
and that with coded symbols only for want of room: the words do not fit the destination (60 R232, R243). -/
def State.Writes (s : State) (C : Prop) (ws : List Nat) (P : Run → Prop) : Except ErrorCode Run → Prop
  | .ok r => C ∧ s.WordsWritten ws r ∧ P r
  | .error e => C → e = .bufferTooSmall ∧ s.nBuf.toNat < 4 * ws.length

/-- Two parts in sequence; words that do not fit leave no room for more. -/
theorem State.Writes.bind {g : Run → Except ErrorCode Run} (ho : s.Writes C ws P o) (hC : C' → C) (hlen : ws.length ≤ vs.length)
    (hg : ∀ r, C → s.WordsWritten ws r → P r → s.Writes C' vs P' (g r)) : s.Writes C' vs P' (o >>= g) := by
  cases o with
  | ok r =>
    obtain ⟨hcoded, hwords, hP⟩ := ho
    exact hg r hcoded hwords hP
  | error e =>
    intro hcoded
    obtain ⟨he, hfull⟩ := ho (hC hcoded)
    exact ⟨he, by omega⟩

theorem renormalize_writes (h : s.WordsWritten ws r) (f : Nat) :
    s.Writes True (renormWords f r.work.x.toNat ++ ws) (fun a => a.work.x.toNat = renormalized f r.work.x.toNat)
      (renormalize s.aBuf.toNat f r) := by
  rw [renormWords, renormalized]
  obtain hlt | hge := Nat.lt_or_ge r.work.x.toNat (2 ^ 49 * f)
  · rw [renormalize_of_lt _ hlt, if_pos hlt, if_pos hlt]
    exact ⟨trivial, h, rfl⟩
  · rw [if_neg (Nat.not_lt.mpr hge), if_neg (Nat.not_lt.mpr hge)]
    obtain hroom | hroom := Nat.lt_or_ge r.work.wr.toNat (s.aBuf.toNat + 4)
    · rw [renormalize_stops hge hroom]
      exact fun _ => ⟨rfl, h.not_fits (vs := [_]) hroom⟩
    · obtain ⟨a, ha, hx, hwr, hword, hframe⟩ := renormalize_emits hge hroom
      rw [ha]
      exact ⟨trivial, h.push (by omega) hwr (Memory.holdsWords_cons.mpr ⟨hword, Memory.holdsWords_nil _ _⟩) hframe, hx⟩

theorem flushState_writes_words (h : s.WordsWritten ws r) :
    s.Writes True (r.work.x.toNat % 2 ^ 32 :: r.work.x.toNat / 2 ^ 32 :: ws) (fun _ => True) (flushState s.aBuf.toNat r) := by
  obtain hroom | hroom := Nat.lt_or_ge r.work.wr.toNat (s.aBuf.toNat + 8)
  · rw [flushState_stops hroom]
    exact fun _ => ⟨rfl, h.not_fits (vs := [_, _]) hroom⟩
  · obtain ⟨a, ha, hwr, hlow, hhigh, hframe⟩ := flushState_writes hroom
    rw [ha]
    have hnew : a.mem.HoldsWords a.work.wr.toNat [r.work.x.toNat % 2 ^ 32, r.work.x.toNat / 2 ^ 32] :=
      Memory.holdsWords_cons.mpr ⟨hlow, Memory.holdsWords_cons.mpr ⟨hhigh, Memory.holdsWords_nil _ _⟩⟩
    exact ⟨trivial, h.push (by omega) hwr hnew hframe, trivial⟩

/-! #### The stream of a sequence -/

/-- Every symbol of `l` has a nonzero table frequency (70 R274). -/
def State.Coded (s : State) (l : List Byte) : Prop := ∀ b ∈ l, s.symFreq b ≠ 0

theorem coded_cons : s.Coded (b :: l) ↔ s.symFreq b ≠ 0 ∧ s.Coded l := List.forall_mem_cons

/-- A symbol in front updates the renormalized state of the symbols behind it. -/
theorem refStream_cons_state (s : State) (b : Byte) (l : List Byte) : (s.refStream (b :: l)).1 =
    refUpdated (s.symFreq b) (s.encOf b).start.toNat (renormalized (s.symFreq b) (s.refStream l).1) := by
  rw [State.refStream, renormalized]
  split_ifs <;> rfl

theorem refStream_cons_words (s : State) (b : Byte) (l : List Byte) :
    (s.refStream (b :: l)).2 = renormWords (s.symFreq b) (s.refStream l).1 ++ (s.refStream l).2 := by
  rw [State.refStream, renormWords]
  split_ifs <;> rfl

/-- The state of a coded sequence stays in its range (41 R145). -/
theorem refStream_range (htab : s.IntervalsOk) : ∀ {l : List Byte}, s.Coded l → CoderRange (s.refStream l).1
  | [], _ => ⟨Nat.le_refl _, show 2 ^ 31 < 2 ^ 63 by decide⟩
  | b :: l, h => by
    obtain ⟨hb, hl⟩ := coded_cons.mp h
    rw [refStream_cons_state]
    exact refUpdated_renormalized_range (Nat.pos_of_ne_zero hb) (htab.encOf_fits b) (refStream_range htab hl)

/-- On a renormalized state in its range `update` is the update of `REF`, for every symbol of nonzero frequency. -/
def State.UpdatesAsRef (s : State) (update : EncEntry → DWord → Nat) : Prop :=
  ∀ (b : Byte) (x : DWord), s.symFreq b ≠ 0 → 1 ≤ x.toNat → x.toNat < 2 ^ 49 * s.symFreq b →
    update (s.encOf b) x = refUpdated (s.symFreq b) (s.encOf b).start.toNat x.toNat

theorem refUpdate_updatesAsRef (s : State) : s.UpdatesAsRef refUpdate := fun b x _ _ _ => refUpdate_eq (s.encOf b) x

/-- On a valid table set of its own, `FAST` updates as `REF` does (42 R168). -/
theorem fastUpdate_updatesAsRef (htab : s.TablesOk) (hv : s.tvar = .fast) : s.UpdatesAsRef fastUpdate := by
  intro b x hb hx hlt
  obtain ⟨hintervals, hfields, -⟩ := htab
  have hfit := (hintervals (by rw [hv]; nofun)).encOf_fits b
  rw [hfields hv b]
  exact fastUpdate_fastEntry _ (Nat.pos_of_ne_zero hb) hfit hx hlt

variable {update : EncEntry → DWord → Nat}

theorem renormalized_pos {x : Nat} (hf : 1 ≤ f) (hx : CoderRange x) : 1 ≤ renormalized f x := by
  obtain ⟨hlow, -⟩ := hx
  rw [renormalized]; split_ifs <;> omega

/-- An encode step carries the stream of the symbols behind to the stream with its symbol in front (41 R136 to R138, 42 R167). -/
theorem encStep_writes (htab : s.IntervalsOk) (hupd : s.UpdatesAsRef update) (hcoded : s.Coded l)
    (h : s.WordsWritten (s.refStream l).2 r) (hx : r.work.x.toNat = (s.refStream l).1) (b : Byte) :
    s.Writes (s.Coded (b :: l)) (s.refStream (b :: l)).2 (fun a => a.work.x.toNat = (s.refStream (b :: l)).1) (encStep update s b r) := by
  unfold encStep
  simp only
  split_ifs with hfreq
  · exact fun hc => absurd (show s.symFreq b = 0 by rw [State.symFreq, hfreq]; rfl) (coded_cons.mp hc).1
  · have hb : s.symFreq b ≠ 0 := fun h0 => hfreq (BitVec.eq_of_toNat_eq h0)
    have hrange := refStream_range htab hcoded
    have hnext : CoderRange (s.refStream (b :: l)).1 := refStream_range htab (coded_cons.mpr ⟨hb, hcoded⟩)
    rw [refStream_cons_state] at hnext
    have hrenorm := renormalize_writes h (s.symFreq b)
    rw [hx, ← refStream_cons_words] at hrenorm
    refine hrenorm.bind (fun _ => trivial) (Nat.le_refl _) fun a _ hwords ha => ?_
    have hlt := renormalized_lt (Nat.pos_of_ne_zero hb) hrange.2
    have hpos := renormalized_pos (Nat.pos_of_ne_zero hb) hrange
    refine ⟨coded_cons.mpr ⟨hb, hcoded⟩, hwords.setX _, ?_⟩
    show ((a.setX (update (s.encOf b) a.work.x)).work.x).toNat = _
    rw [refStream_cons_state, Run.setX_x, hupd b a.work.x hb (ha ▸ hpos) (ha ▸ hlt), ha, BitVec.toNat_ofNat]
    exact Nat.mod_eq_of_lt (hnext.2.trans (by decide))

theorem refStream_length_cons (s : State) (b : Byte) (l : List Byte) : (s.refStream l).2.length ≤ (s.refStream (b :: l)).2.length := by
  rw [refStream_cons_words, List.length_append]; exact Nat.le_add_left _ _

theorem refStream_length_append (s : State) (l : List Byte) : ∀ l' : List Byte, (s.refStream l).2.length ≤ (s.refStream (l' ++ l)).2.length
  | [] => Nat.le_refl _
  | b :: l' => (refStream_length_append s l l').trans (refStream_length_cons s b _)

theorem sourceBytes_length (s : State) : s.sourceBytes.length = s.nSrc.toNat := by
  rw [State.sourceBytes, List.length_map, List.length_range]

theorem sourceBytes_getD (s : State) {i : Nat} (hi : i < s.nSrc.toNat) : s.sourceBytes.getD i 0 = s.mem.read (s.aSrc.toNat + i) := by
  rw [List.getD_eq_getElem _ _ (by rwa [sourceBytes_length])]
  simp [State.sourceBytes]

/-- The symbols from position `i` on are the symbol there and the ones behind it. -/
theorem sourceBytes_drop (s : State) {i : Nat} (hi : i < s.nSrc.toNat) :
    s.sourceBytes.drop i = s.mem.read (s.aSrc.toNat + i) :: s.sourceBytes.drop (i + 1) := by
  rw [List.drop_eq_getElem_cons (by rwa [sourceBytes_length]), ← sourceBytes_getD s hi, List.getD_eq_getElem _ _ (by rwa [sourceBytes_length])]

/-- The encode loop from position `n` carries the stream of the symbols there and behind to the stream of the whole sequence (41 R135). -/
theorem encLoop_writes (htab : s.IntervalsOk) (hupd : s.UpdatesAsRef update) (hreg : s.RegionsOk) : ∀ (n : Nat) {r : Run},
    n ≤ s.nSrc.toNat → s.Coded (s.sourceBytes.drop n) → s.WordsWritten (s.refStream (s.sourceBytes.drop n)).2 r →
    r.work.x.toNat = (s.refStream (s.sourceBytes.drop n)).1 →
    s.Writes (s.Coded s.sourceBytes) (s.refStream s.sourceBytes).2 (fun a => a.work.x.toNat = (s.refStream s.sourceBytes).1)
      (encLoop (encStep update s) s.aSrc.toNat n r)
  | 0, r, _, hcoded, hwords, hx => ⟨hcoded, hwords, hx⟩
  | n + 1, r, hn, hcoded, hwords, hx => by
    have hbyte : r.mem.read (s.aSrc.toNat + n) = s.mem.read (s.aSrc.toNat + n) :=
      hwords.inside.inside.read_source hreg (by omega) (by rw [State.srcEnd]; omega)
    have hstep := encStep_writes htab hupd hcoded (hwords.setIdx n) hx (s.mem.read (s.aSrc.toNat + n))
    rw [← sourceBytes_drop s hn] at hstep
    rw [encLoop, hbyte]
    refine hstep.bind (fun hall b hb => hall b (List.mem_of_mem_drop hb)) ?_ fun a hcoded hwords hx =>
      encLoop_writes htab hupd hreg n (by omega) hcoded hwords hx
    have := refStream_length_append s (s.sourceBytes.drop n) (s.sourceBytes.take n)
    rwa [List.take_append_drop] at this

/-- The words of the whole tail: the final state, low word first, and the emitted words (41 R135, R139). -/
def State.tailWords (s : State) : List Nat :=
  (s.refStream s.sourceBytes).1 % 2 ^ 32 :: (s.refStream s.sourceBytes).1 / 2 ^ 32 :: (s.refStream s.sourceBytes).2

theorem tailWords_length (s : State) : s.tailWords.length = (s.refStream s.sourceBytes).2.length + 2 := rfl

theorem encStart_x (s : State) : s.encStart.work.x.toNat = 2 ^ 31 := rfl

theorem encStart_wordsWritten (s : State) : s.WordsWritten [] s.encStart := by
  have hwr : s.encStart.work.wr.toNat = s.bufEnd := by
    rw [State.encStart, BitVec.toNat_ofNat, Nat.mod_eq_of_lt s.bufEnd_lt]
  exact ⟨writtenFromWr_of_start rfl rfl, hwr, Memory.holdsWords_nil _ _⟩

theorem sourceBytes_drop_all (s : State) : s.sourceBytes.drop s.nSrc.toNat = [] := by
  rw [← sourceBytes_length s, List.drop_length]

/-- The run of `ENC.REF` and `ENC.FAST` writes the tail of its sequence, or the tail does not fit (41 R135, 60 R232). -/
theorem encWords_writes (htab : s.IntervalsOk) (hupd : s.UpdatesAsRef update) (hreg : s.RegionsOk) :
    s.Writes s.SymbolsCoded s.tailWords (fun _ => True) (s.encWords update) := by
  have hall := sourceBytes_drop_all s
  have hloop := encLoop_writes (r := s.encStart) htab hupd hreg s.nSrc.toNat (Nat.le_refl _) (hall.symm ▸ nofun)
    (hall.symm ▸ encStart_wordsWritten s) (hall.symm ▸ encStart_x s)
  refine hloop.bind id (by rw [tailWords_length]; omega) fun a hcoded hwords hx => ?_
  have hflush := flushState_writes_words hwords
  rw [hx] at hflush
  cases hend : flushState s.aBuf.toNat a with
  | ok r =>
    obtain ⟨-, htail, -⟩ := hend ▸ hflush
    exact ⟨hcoded, htail, trivial⟩
  | error e => exact fun _ => (hend ▸ hflush : s.Writes _ _ _ (.error e)) trivial

/-! #### The length of the stream -/

/-- No two steps in a row emit a word, since a state that has emitted one ends below 2^49 (41 R149). -/
theorem refStream_length_le (htab : s.IntervalsOk) : ∀ {l : List Byte}, s.Coded l →
    2 * (s.refStream l).2.length ≤ l.length + if (s.refStream l).1 < 2 ^ 49 then 1 else 0
  | [], _ => Nat.zero_le _
  | b :: l, h => by
    obtain ⟨hb, hl⟩ := coded_cons.mp h
    have hf : 1 ≤ s.symFreq b := Nat.pos_of_ne_zero hb
    have ih := refStream_length_le htab hl
    have hrange := refStream_range htab hl
    rw [refStream_cons_state, refStream_cons_words, renormWords, renormalized, List.length_cons]
    obtain hlt | hge := Nat.lt_or_ge (s.refStream l).1 (2 ^ 49 * s.symFreq b)
    · rw [if_pos hlt, if_pos hlt, List.nil_append]
      split_ifs at ih ⊢ <;> omega
    · rw [if_neg (Nat.not_lt.mpr hge), if_neg (Nat.not_lt.mpr hge), List.singleton_append, List.length_cons]
      rw [if_neg (by omega)] at ih
      have hshift : (s.refStream l).1 / 2 ^ 32 < 2 ^ 31 * s.symFreq b := by
        have := hrange.2; omega
      have hbelow := refUpdated_lt (c := (s.encOf b).start.toNat) hf (htab.encOf_fits b) hshift
      rw [if_pos (hbelow.trans (by decide))]
      omega

end Sys2Proof.Machine
end

/-! ### The commands ENC.REF and ENC.FAST -/

section
namespace Sys2Proof.Machine

variable {s t : State} {r : Run} {e d : Instr}

/-- What `ENC.REF` and `ENC.FAST` have in common: their operand check, and that they are encoders. -/
theorem wordEncoder_kind (he : e ∈ [Instr.encRef, .encFast]) (s : State) :
    writesMemory e = true ∧ e ∈ [Instr.encRef, .encFast, .encFa] ∧ (operandsLegal s e ↔ s.RegionsOk) := by
  simp only [List.mem_cons, List.not_mem_nil, or_false] at he
  obtain rfl | rfl := he <;> exact ⟨rfl, by decide, Iff.rfl⟩

/-- An encoder of words in a state whose `TVAR` names its variant is ready when its regions are (30 R104). -/
theorem wordEncoder_ready {p : Instr × TVar} (hp : p ∈ [(Instr.encRef, TVar.ref), (.encFast, .fast)]) (hv : s.tvar = p.2)
    (hreg : s.RegionsOk) : p.1 ∈ [Instr.encRef, .encFast] ∧ operandsLegal s p.1 ∧ needsMet s p.1 := by
  simp only [List.mem_cons, List.not_mem_nil, or_false] at hp
  obtain rfl | rfl := hp <;> exact ⟨by decide, hreg, hv⟩

/-- An encoder of words runs with an update, which on its own valid table set is the one of `REF` (41 R135, 42 R166, R168). -/
theorem ruleOf_wordEncoder (he : e ∈ [Instr.encRef, .encFast]) (s : State) : ∃ update,
    ruleOf e s = s.finishEncode (s.encWords update)
      ∧ (s.TablesOk → needsMet s e → s.SharedTables ∧ s.IntervalsOk ∧ s.UpdatesAsRef update) := by
  simp only [List.mem_cons, List.not_mem_nil, or_false] at he
  obtain rfl | rfl := he
  · exact ⟨refUpdate, rfl, fun htab (hv : s.tvar = .ref) => ⟨.inl hv, htab.1 (by rw [hv]; nofun), refUpdate_updatesAsRef s⟩⟩
  · exact ⟨fastUpdate, rfl, fun htab (hv : s.tvar = .fast) => ⟨.inr hv, htab.1 (by rw [hv]; nofun), fastUpdate_updatesAsRef htab hv⟩⟩

/-- `RESULT` is the number of bytes between `WR` and the end of the destination (41 R135). -/
theorem finishEncode_result (h : s.WrittenFromWr r) : (s.finishEncode (.ok r)).result.toNat = s.bufEnd - r.work.wr.toNat := by
  obtain ⟨hlow, -, -⟩ := h
  have hend : s.bufEnd = s.aBuf.toNat + s.nBuf.toNat := rfl
  have hn := s.nBuf.isLt
  show (BitVec.ofNat 32 (s.bufEnd - r.work.wr.toNat)).toNat = _
  rw [BitVec.toNat_ofNat, Nat.mod_eq_of_lt (by omega)]

/-- No error of an encoder has code 0, so a command that ends without error has run to its end. -/
theorem finishEncode_ok_of_none {P : Run → Prop} {o : Except ErrorCode Run} (ho : EncodesTo P o) (hnone : (s.finishEncode o).err = .none) :
    ∃ r, o = .ok r ∧ P r := by
  cases o with
  | ok r => exact ⟨r, rfl, ho⟩
  | error err =>
    obtain rfl : err = .none := hnone
    obtain h | h := ho <;> cases h

/-- `t` is `s` after `ENC.REF` or `ENC.FAST` without error: the last `RESULT` bytes of the destination are the tail of the sequence. -/
structure TailWritten (s t : State) : Prop where
  coded : s.SymbolsCoded
  result : t.result.toNat = 4 * s.tailWords.length
  fits : t.result.toNat ≤ s.nBuf.toNat
  words : t.mem.HoldsWords (s.bufEnd - t.result.toNat) s.tailWords

theorem finishEncode_tailWritten (hcoded : s.SymbolsCoded) (h : s.WordsWritten s.tailWords r) :
    TailWritten s (s.finishEncode (.ok r)) := by
  obtain ⟨hinside, hcount, hwords⟩ := h
  have hresult := finishEncode_result hinside
  obtain ⟨hlow, -, -⟩ := hinside
  have hend : s.bufEnd = s.aBuf.toNat + s.nBuf.toNat := rfl
  refine ⟨hcoded, by omega, by omega, ?_⟩
  rw [hresult, show s.bufEnd - (s.bufEnd - r.work.wr.toNat) = r.work.wr.toNat by omega]
  exact hwords

/-- An encoder that ends without error has its operands and its tables, and has written the tail of its sequence. -/
theorem tailWritten_of_exec (he : e ∈ [Instr.encRef, .encFast]) (htab : s.TablesOk) (h : exec e s = .next t) (hnone : t.err = .none) :
    s.RegionsOk ∧ s.SharedTables ∧ s.IntervalsOk ∧ TailWritten s t := by
  obtain ⟨hop, hneeds, rfl⟩ := ready_of_exec h hnone
  obtain ⟨-, -, hlegal⟩ := wordEncoder_kind he s
  obtain ⟨update, hrule, hupdate⟩ := ruleOf_wordEncoder he s
  obtain ⟨hshared, hintervals, hupd⟩ := hupdate htab hneeds
  have hreg := hlegal.mp hop
  refine ⟨hreg, hshared, hintervals, ?_⟩
  have hwrites := encWords_writes hintervals hupd hreg
  rw [hrule] at hnone ⊢
  obtain ⟨r, hr, -⟩ := finishEncode_ok_of_none (encWords_encodesTo update s) hnone
  rw [hr] at hwrites ⊢
  obtain ⟨hcoded, hwords, -⟩ := hwrites
  exact finishEncode_tailWritten hcoded hwords

/-- The tail of a coded sequence of `n` symbols has at most 2n + 10 bytes (41 R149). -/
theorem tailWords_length_le (htab : s.IntervalsOk) (hcoded : s.SymbolsCoded) : 4 * s.tailWords.length ≤ 2 * s.nSrc.toNat + 10 := by
  have hlen := refStream_length_le htab hcoded
  rw [sourceBytes_length] at hlen
  rw [tailWords_length]
  split_ifs at hlen <;> omega

/-- With coded symbols and a buffer that holds the tail an encoder of words completes. -/
theorem encWords_completes {update : EncEntry → DWord → Nat} (htab : s.IntervalsOk) (hupd : s.UpdatesAsRef update) (hreg : s.RegionsOk)
    (hcoded : s.SymbolsCoded) (hfits : 4 * s.tailWords.length ≤ s.nBuf.toNat) :
    ∃ r, s.encWords update = .ok r ∧ s.WordsWritten s.tailWords r := by
  have hwrites := encWords_writes htab hupd hreg
  cases hend : s.encWords update with
  | ok r =>
    obtain ⟨-, hwords, -⟩ := hend ▸ hwrites
    exact ⟨r, rfl, hwords⟩
  | error err =>
    obtain ⟨-, hfull⟩ := (hend ▸ hwrites : s.Writes _ _ _ (.error err)) hcoded
    omega

/-- Settles O46: the tail of n symbols has at most 2n + 10 bytes, and with coded symbols nothing but a lack of room stops the run. -/
theorem encRefAndFastComplete : Obligations.EncRefAndFastComplete := by
  intro s p hp hv htab hreg hcoded hroom
  obtain ⟨he, hop, hneeds⟩ := wordEncoder_ready hp hv hreg
  obtain ⟨hcoding, hencoder, -⟩ := wordEncoder_kind he s
  obtain ⟨update, hrule, hupdate⟩ := ruleOf_wordEncoder he s
  obtain ⟨-, hintervals, hupd⟩ := hupdate htab hneeds
  have hlen := tailWords_length_le hintervals hcoded
  obtain ⟨r, hr, hwords⟩ := encWords_completes hintervals hupd hreg hcoded (hlen.trans hroom)
  have hexec := exec_of_ready hop hneeds
  rw [hrule, hr] at hexec
  obtain ⟨-, hresult, -, -⟩ := finishEncode_tailWritten hcoded hwords
  obtain ⟨hin, -, -, hsame, -, -, hlast⟩ := frameOfEveryCommand p.1 s _ hexec
  obtain ⟨hstat, htables⟩ := hsame hcoding
  rw [tailWords_length] at hresult hlen
  exact ⟨_, hexec, rfl, rfl, rfl, by omega, hresult ▸ Nat.dvd_mul_right _ _, by omega, hin, hstat, htables, (hlast hencoder rfl).2⟩

/-- The words of the tail, taken apart. -/
theorem TailWritten.parts (h : TailWritten s t) :
    t.mem.readLE (s.bufEnd - t.result.toNat) 4 = (s.refStream s.sourceBytes).1 % 2 ^ 32
      ∧ t.mem.readLE (s.bufEnd - t.result.toNat + 4) 4 = (s.refStream s.sourceBytes).1 / 2 ^ 32
      ∧ t.mem.HoldsWords (s.bufEnd - t.result.toNat + 8) (s.refStream s.sourceBytes).2 := by
  obtain ⟨hlow, hrest⟩ := Memory.holdsWords_cons.mp h.words
  obtain ⟨hhigh, hemitted⟩ := Memory.holdsWords_cons.mp hrest
  exact ⟨hlow, hhigh, hemitted⟩

end Sys2Proof.Machine
end

/-! ### Round trip of the reference and fast codec -/

section
namespace Sys2Proof.Machine

variable {s t : State} {l : List Byte}

/-- Decoding takes the symbols off the stream from the first to the last: each decode step undoes the last encode step (41 R147, R148). -/
theorem refDecoded_refStream (htab : s.IntervalsOk) : ∀ {l : List Byte} {rd : Nat}, s.Coded l →
    s.mem.HoldsWords rd (s.refStream l).2 → rd + 4 * (s.refStream l).2.length ≤ s.srcEnd →
    s.refDecoded l.length (s.refStream l).1 rd = some l
  | [], _, _, _, _ => rfl
  | b :: l, rd, hcoded, hwords, hend => by
    obtain ⟨hb, hl⟩ := coded_cons.mp hcoded
    have hrange := refStream_range htab hl
    obtain ⟨hsym, hstate⟩ := htab.decodedState_refUpdated hb (renormalized (s.symFreq b) (s.refStream l).1)
    rw [← refStream_cons_state] at hsym hstate
    rw [refStream_cons_words] at hwords hend
    rw [List.length_cons]
    obtain hlt | hge := Nat.lt_or_ge (s.refStream l).1 (2 ^ 49 * s.symFreq b)
    · rw [renormalized, if_pos hlt] at hstate
      rw [renormWords, if_pos hlt] at hwords hend
      rw [refDecoded_succ_of_ge rd (hstate.symm ▸ hrange.1), hstate, hsym, refDecoded_refStream htab hl hwords hend]
      rfl
    · rw [renormalized, if_neg (Nat.not_lt.mpr hge)] at hstate
      rw [renormWords, if_neg (Nat.not_lt.mpr hge), List.singleton_append] at hwords hend
      obtain ⟨hword, hrest⟩ := Memory.holdsWords_cons.mp hwords
      rw [List.length_cons] at hend
      have hlow : s.decodedState (s.refStream (b :: l)).1 < 2 ^ 31 := by
        have := hrange.2; omega
      rw [refDecoded_succ_of_lt hlow (by omega), hstate, hsym, hword, Nat.div_add_mod', refDecoded_refStream htab hl hrest (by omega)]
      rfl

theorem encOf_congr (h : t.enc = s.enc) (b : Byte) : t.encOf b = s.encOf b := by rw [State.encOf, State.encOf, h]

/-- The stream depends on the table set alone. -/
theorem refStream_congr (h : t.enc = s.enc) (l : List Byte) : t.refStream l = s.refStream l := by
  induction l with
  | nil => rfl
  | cons b l ih => rw [State.refStream, State.refStream, ih, State.symFreq, State.symFreq, encOf_congr h]

theorem coded_congr (h : t.enc = s.enc) : t.Coded l ↔ s.Coded l := by
  simp only [State.Coded, State.symFreq, encOf_congr h]

theorem intervalsOk_congr (h : SameTables s t) (hs : s.IntervalsOk) : t.IntervalsOk := by
  obtain ⟨he, hd, hi, -⟩ := h
  simpa only [State.IntervalsOk, State.decStart, State.decFreq, State.encOf, State.decOf, State.invOf, he, hd, hi] using hs

@[simp] theorem pointAtTail_nSrc (t : State) (dst n : Word) : (t.pointAtTail dst n).nSrc = t.result := rfl
@[simp] theorem pointAtTail_nBuf (t : State) (dst n : Word) : (t.pointAtTail dst n).nBuf = n := rfl
@[simp] theorem pointAtTail_mem (t : State) (dst n : Word) : (t.pointAtTail dst n).mem = t.mem := rfl
@[simp] theorem pointAtTail_tvar (t : State) (dst n : Word) : (t.pointAtTail dst n).tvar = t.tvar := rfl

theorem pointAtTail_sameTables (h : SameTables s t) (dst n : Word) : SameTables s (t.pointAtTail dst n) := h

/-- Pointed at the tail, the source region is the last `RESULT` bytes of the destination (70 R271). -/
theorem pointAtTail_aSrc (hin : SameInputs s t) (hreg : s.RegionsOk) (hpos : 0 < t.result.toNat)
    (hfits : t.result.toNat ≤ s.nBuf.toNat) (dst n : Word) : (t.pointAtTail dst n).aSrc.toNat = s.bufEnd - t.result.toNat := by
  obtain ⟨-, -, -, hbuf, hlen, -⟩ := hin
  obtain ⟨-, hvalid, -⟩ := hreg
  have htop := s.memTop.isLt
  rw [State.RegionValid, State.memSize] at hvalid
  have hend : s.bufEnd = s.aBuf.toNat + s.nBuf.toNat := rfl
  show (t.aBuf + t.nBuf - t.result).toNat = _
  rw [hbuf, hlen, BitVec.toNat_sub, BitVec.toNat_add]
  omega

theorem TailWritten.eight_le (h : TailWritten s t) : 8 ≤ t.result.toNat := by
  have hresult := h.result
  rw [tailWords_length] at hresult; omega

/-- Read from its start, the tail of a sequence decodes to the sequence (41 R147). -/
theorem decodedSymbols_pointAtTail (hreg : s.RegionsOk) (hintervals : s.IntervalsOk) (hin : SameInputs s t) (htables : SameTables s t)
    (htail : TailWritten s t) (dst : Word) : (t.pointAtTail dst s.nSrc).decodedSymbols = some s.sourceBytes := by
  have hlen := htail.eight_le
  have hsrc := pointAtTail_aSrc hin hreg (by omega) htail.fits dst s.nSrc
  have henc : (t.pointAtTail dst s.nSrc).enc = s.enc := htables.1
  obtain ⟨hlow, hhigh, hemitted⟩ := htail.parts
  obtain ⟨hcoded, hresult, hfits, -⟩ := htail
  rw [tailWords_length] at hresult
  have hend : s.bufEnd = s.aBuf.toNat + s.nBuf.toNat := rfl
  rw [State.decodedSymbols, pointAtTail_mem, pointAtTail_nBuf, hsrc, hlow, hhigh, Nat.mod_add_div, ← sourceBytes_length,
    ← refStream_congr henc]
  have htab := intervalsOk_congr (pointAtTail_sameTables htables dst s.nSrc) hintervals
  refine refDecoded_refStream htab ((coded_congr henc).mpr hcoded) ?_ ?_
  · rw [refStream_congr henc, pointAtTail_mem]; exact hemitted
  · rw [refStream_congr henc, State.srcEnd, hsrc, pointAtTail_nSrc]; omega

/-- Settles O57: the tail holds the words of the stream, and decoding them undoes every encode step. -/
theorem refAndFastRoundTrip : Obligations.RefAndFastRoundTrip := by
  intro s t dst e d he hd htab hexec hnone hreg'
  obtain ⟨hreg, hshared, hintervals, htail⟩ := tailWritten_of_exec he htab hexec hnone
  obtain ⟨hin, -, -, hsame, -⟩ := frameOfEveryCommand e s t hexec
  obtain ⟨-, htables⟩ := hsame (wordEncoder_kind he s).1
  have hshared' : (t.pointAtTail dst s.nSrc).SharedTables := by
    obtain ⟨-, -, -, htvar⟩ := htables
    rw [State.SharedTables, pointAtTail_tvar, htvar]; exact hshared
  have hdecodes := decWords_decodesTo (intervalsOk_congr (pointAtTail_sameTables htables dst s.nSrc) hintervals) hreg' htail.eight_le
  rw [decodedSymbols_pointAtTail hreg hintervals hin htables htail] at hdecodes
  obtain ⟨-, hsome⟩ := finishDecode_decodesTo hdecodes
  obtain ⟨⟨herr, -⟩, hread⟩ := hsome _ rfl
  refine ⟨_, exec_dec hd hshared' hreg', herr, fun i hi => ?_⟩
  rw [← sourceBytes_getD s hi]
  exact hread i (by rwa [sourceBytes_length])

end Sys2Proof.Machine
end

/-! ### The arithmetic of the fixed-accuracy encoder -/

section
namespace Sys2Proof.Machine

variable {f c x y b k m n : Nat}

/-- How many bits a state gives off before its update for frequency `f` (43 R185). -/
def faShiftOf (f x : Nat) : Nat := if f * 2 ^ (18 - bitWidth f) ≤ x then 15 - bitWidth f else 14 - bitWidth f

/-- The range of the coder state of `FA` (43 R182). -/
def FaRange (x : Nat) : Prop := 2 ^ 17 ≤ x ∧ x < 2 ^ 18

/-- The threshold between the two shifts lies in the range of the state (43 R184). -/
theorem faThreshold_range (hf : 1 ≤ f) (hmax : f ≤ 2 ^ 14) : FaRange (f * 2 ^ (18 - bitWidth f)) := by
  have hwidth : bitWidth f ≤ 15 := bitWidth_le (by omega)
  have hpos := bitWidth_pos (show f ≠ 0 by omega)
  constructor
  · calc 2 ^ 17 = 2 ^ (bitWidth f - 1) * 2 ^ (18 - bitWidth f) := by rw [← Nat.pow_add]; congr 1; omega
      _ ≤ f * 2 ^ (18 - bitWidth f) := Nat.mul_le_mul_right _ (two_pow_pred_bitWidth_le (by omega))
  · calc f * 2 ^ (18 - bitWidth f) < 2 ^ bitWidth f * 2 ^ (18 - bitWidth f) :=
        Nat.mul_lt_mul_of_pos_right (lt_two_pow_bitWidth f) (Nat.two_pow_pos _)
      _ = 2 ^ 18 := by rw [← Nat.pow_add]; congr 1; omega

/-- At the largest frequency no state lies below the threshold. -/
theorem bitWidth_le_of_lt_threshold (hmax : f ≤ 2 ^ 14) (hx : FaRange x) (hlt : x < f * 2 ^ (18 - bitWidth f)) : bitWidth f ≤ 14 := by
  obtain ⟨hlow, -⟩ := hx
  obtain hlt' | rfl := Nat.lt_or_eq_of_le hmax
  · exact bitWidth_le hlt'
  · have hwidth : bitWidth (2 ^ 14) = 15 := by rw [bitWidth, if_neg (by decide), Nat.log2_two_pow]
    rw [hwidth] at hlt
    omega

/-- The one addition of the delta finds the shift (43 R184, R185, R191). -/
theorem faShift_eq {e : EncEntry} (hf : 1 ≤ f) (hmax : f ≤ 2 ^ 14) (hx : FaRange x) (hdelta : e.delta = faDelta f) :
    faShift e x = faShiftOf f x := by
  obtain ⟨hlow, hhigh⟩ := faThreshold_range hf hmax
  have hwidth : bitWidth f ≤ 15 := bitWidth_le (by omega)
  have hnarrow := bitWidth_le_of_lt_threshold hmax hx
  obtain ⟨hxlow, hxhigh⟩ := hx
  have hexp : shift0 f + Config.accuracyBits = 18 - bitWidth f := by rw [shift0, Config.stateBits, Config.accuracyBits]; omega
  rw [faShift, faShiftOf, hdelta, faDelta, hexp, shift0, Config.stateBits, Config.allBits, BitVec.toNat_sub, BitVec.toNat_ofNat,
    BitVec.toNat_ofNat, Nat.shiftRight_eq_div_pow]
  generalize f * 2 ^ (18 - bitWidth f) = theta at *
  split_ifs <;> omega

theorem faShiftOf_le (f x : Nat) (hf : 1 ≤ f) : faShiftOf f x ≤ 14 := by
  have := bitWidth_pos (show f ≠ 0 by omega)
  rw [faShiftOf]; split_ifs <;> omega

/-- The shifted state lies in the interval whose quotients are 8 to 15 (43 R185). -/
theorem shifted_interval (hf : 1 ≤ f) (hmax : f ≤ 2 ^ 14) (hx : FaRange x) :
    8 * f ≤ x / 2 ^ faShiftOf f x ∧ x / 2 ^ faShiftOf f x < 16 * f := by
  obtain ⟨hlow, hhigh⟩ := faThreshold_range hf hmax
  have hwidth : bitWidth f ≤ 15 := bitWidth_le (by omega)
  have hnarrow := bitWidth_le_of_lt_threshold hmax hx
  obtain ⟨hxlow, hxhigh⟩ := hx
  rw [Nat.le_div_iff_mul_le (Nat.two_pow_pos _), Nat.div_lt_iff_lt_mul (Nat.two_pow_pos _), faShiftOf]
  split_ifs with h
  · have hpow : f * 2 ^ (18 - bitWidth f) = 8 * (f * 2 ^ (15 - bitWidth f)) := by
      rw [show 18 - bitWidth f = 15 - bitWidth f + 3 by omega, Nat.pow_add]; ring
    rw [Nat.mul_assoc, Nat.mul_assoc]; omega
  · have hpow : f * 2 ^ (18 - bitWidth f) = 16 * (f * 2 ^ (14 - bitWidth f)) := by
      rw [show 18 - bitWidth f = 14 - bitWidth f + 4 by omega, Nat.pow_add]; ring
    rw [Nat.mul_assoc, Nat.mul_assoc]; omega

/-- One correction takes bit `b` of the quotient `k` off the remainder and marks it in the mask when it is 0 (43 R192). -/
theorem divHigh_eq (hy : y < f) (hk : k < 2 ^ (b + 1)) (m : Nat) :
    divHigh f b (k * f + y, m) = (k % 2 ^ b * f + y, if k / 2 ^ b = 0 then m ||| 1 <<< b else m) := by
  have hpow : (2 : Nat) ^ (b + 1) = 2 ^ b * 2 := pow_succ 2 b
  rw [divHigh, Nat.shiftLeft_eq]
  obtain hlt | hge := Nat.lt_or_ge k (2 ^ b)
  · have hnot : ¬ f * 2 ^ b ≤ k * f + y := by
      have hle : (k + 1) * f ≤ 2 ^ b * f := Nat.mul_le_mul_right _ hlt
      rw [Nat.add_mul, Nat.one_mul, Nat.mul_comm (2 ^ b)] at hle
      omega
    rw [if_neg hnot, if_pos (Nat.div_eq_of_lt hlt), Nat.mod_eq_of_lt hlt]
  · obtain ⟨j, rfl⟩ := Nat.exists_eq_add_of_le hge
    have hle : f * 2 ^ b ≤ (2 ^ b + j) * f + y := by rw [Nat.add_mul, Nat.mul_comm (2 ^ b)]; omega
    have hquot : (2 ^ b + j) / 2 ^ b ≠ 0 := (Nat.div_pos hge (Nat.two_pow_pos _)).ne'
    rw [if_pos hle, if_neg hquot, Nat.add_mod_left, Nat.mod_eq_of_lt (by omega)]
    congr 1
    rw [Nat.add_mul, Nat.mul_comm (2 ^ b)]; omega

/-- The mask of the three corrections for a quotient of 8 + `k`: the bits of `k` that are 0 (43 R192). -/
def faMask (k : Nat) : Nat :=
  let m₂ := if k / 2 ^ 2 = 0 then 0 ||| 1 <<< 2 else 0
  let m₁ := if k % 2 ^ 2 / 2 ^ 1 = 0 then m₂ ||| 1 <<< 1 else m₂
  if k % 2 ^ 2 % 2 ^ 1 / 2 ^ 0 = 0 then m₁ ||| 1 <<< 0 else m₁

theorem faMask_xor : ∀ k < 8, faMask k ^^^ 0xF = 8 + k := by decide

theorem faDivide_eq (hy : y < f) (hk : k < 8) : faDivide f ((8 + k) * f + y) = (y, faMask k) := by
  have hstart : (8 + k) * f + y - f <<< Config.accuracyBits = k * f + y := by
    rw [Nat.shiftLeft_eq, Config.accuracyBits, Nat.add_mul]; omega
  rw [faDivide, hstart, divHigh_eq hy hk, divHigh_eq hy (Nat.mod_lt _ (by decide)), divHigh_eq hy (Nat.mod_lt _ (by decide)),
    Nat.pow_zero, Nat.mod_one, Nat.zero_mul, Nat.zero_add]
  rfl

/-- The corrections are a division: the new state is the reference update of the shifted one (43 R202). -/
theorem faFold_eq {e : EncEntry} (hlow : 8 * e.freq.toNat ≤ y) (hhigh : y < 16 * e.freq.toNat) :
    faFold e y = refUpdated e.freq.toNat e.start.toNat y := by
  have hf : 0 < e.freq.toNat := by omega
  have hquot : 8 ≤ y / e.freq.toNat := (Nat.le_div_iff_mul_le hf).mpr hlow
  have hquot' : y / e.freq.toNat < 16 := (Nat.div_lt_iff_lt_mul hf).mpr hhigh
  obtain ⟨k, hk⟩ := Nat.exists_eq_add_of_le hquot
  have hdiv : faDivide e.freq.toNat y = (y % e.freq.toNat, faMask k) := by
    rw [← faDivide_eq (Nat.mod_lt y hf) (show k < 8 by omega), ← hk, Nat.div_add_mod']
  rw [faFold, hdiv, refUpdated, faMask_xor k (by omega), ← hk, Nat.shiftLeft_eq, Config.stateBits]
  omega

theorem refUpdated_faRange (hf : 1 ≤ f) (hfit : c + f ≤ 2 ^ 14) (hlow : 8 * f ≤ y) (hhigh : y < 16 * f) : FaRange (refUpdated f c y) :=
  ⟨mul_le_refUpdated (q := 8) hf hlow, refUpdated_lt hf hfit hhigh⟩

end Sys2Proof.Machine
end

/-! ### Bits in memory

`ENC.FA` packs its bits into `ACC`, the first one least significant, and moves whole bytes to memory, from the end of the destination downward.
So `ACC` above the bytes written, read with the first byte most significant, is all that has been emitted, as one number (43 R186, R187, R195). -/

section
namespace Sys2Proof.Machine

variable {r r' r'' : Run} {base fin bits emitted n k v : Nat}

/-- The `bits` bits emitted so far are the number `emitted`: `ACC` above the bytes from `WR` to `fin`. -/
structure Run.Packed (fin bits emitted : Nat) (r : Run) : Prop where
  below : r.work.wr.toNat ≤ fin
  pending : r.work.acc.toNat < 2 ^ r.work.bitpos.toNat
  count : bits = r.work.bitpos.toNat + 8 * (fin - r.work.wr.toNat)
  value : emitted = r.work.acc.toNat * 2 ^ (8 * (fin - r.work.wr.toNat)) + numberBE r.mem r.work.wr.toNat (fin - r.work.wr.toNat)

/-- With no byte written the emitted bits are the pending ones. -/
theorem packed_pending (h : r.work.acc.toNat < 2 ^ r.work.bitpos.toNat) :
    r.Packed r.work.wr.toNat r.work.bitpos.toNat r.work.acc.toNat :=
  ⟨Nat.le_refl _, h, by rw [Nat.sub_self]; rfl, by rw [Nat.sub_self]; exact (Nat.mul_one _).symm⟩

theorem add_mul_two_pow_lt {a : Nat} (ha : a < 2 ^ k) (hv : v < 2 ^ n) : a + v * 2 ^ k < 2 ^ (k + n) := by
  calc a + v * 2 ^ k < 2 ^ k + v * 2 ^ k := by omega
    _ = (v + 1) * 2 ^ k := by ring
    _ ≤ 2 ^ n * 2 ^ k := Nat.mul_le_mul_right _ hv
    _ = 2 ^ (k + n) := by rw [Nat.pow_add, Nat.mul_comm]

/-- New bits stand above all that was emitted before (43 R186). -/
theorem Run.Packed.emitBits (h : r.Packed fin bits emitted) (v : Nat) (hn : n ≤ 32) (hcap : r.work.bitpos.toNat + n ≤ 64) :
    (emitBits v n r).Packed fin (bits + n) (emitted + v % 2 ^ n * 2 ^ bits) := by
  obtain ⟨hbelow, hpending, hcount, hvalue⟩ := h
  obtain ⟨hacc, hbitpos⟩ := emitBits_exact (v := v) hn hpending hcap
  refine ⟨hbelow, ?_, ?_, ?_⟩
  · rw [hacc, hbitpos]; exact add_mul_two_pow_lt hpending (Nat.mod_lt _ (Nat.two_pow_pos _))
  · rw [hbitpos, emitBits_wr, hcount]; omega
  · rw [hacc, emitBits_wr, emitBits_mem, low, hvalue, hcount, Nat.pow_add]; ring

/-- `r'` is `r` after the flush of `n` whole bytes: they stand below the ones that were there, and no emitted bit is lost (43 R187). -/
structure Flushed (n : Nat) (r r' : Run) : Prop where
  bitpos : r'.work.bitpos.toNat + 8 * n = r.work.bitpos.toNat
  wr : r'.work.wr.toNat + n = r.work.wr.toNat
  x : r'.work.x = r.work.x
  frame : ∀ a, a < r'.work.wr.toNat ∨ r.work.wr.toNat ≤ a → r'.mem.read a = r.mem.read a
  packed : ∀ {fin bits emitted}, r.Packed fin bits emitted → r'.Packed fin bits emitted

theorem Flushed.refl (r : Run) : Flushed 0 r r := ⟨rfl, rfl, rfl, fun _ _ => rfl, id⟩

theorem Flushed.trans (h : Flushed n r r') (h' : Flushed k r' r'') : Flushed (n + k) r r'' := by
  obtain ⟨hbitpos, hwr, hx, hframe, hpacked⟩ := h
  obtain ⟨hbitpos', hwr', hx', hframe', hpacked'⟩ := h'
  exact ⟨by omega, by omega, hx'.trans hx, fun a ha => (hframe' a (by omega)).trans (hframe a (by omega)), fun hp => hpacked' (hpacked hp)⟩

theorem flushByte_stops (hroom : r.work.wr.toNat < base + 1) : flushByte base r = .error .bufferTooSmall := by
  rw [flushByte, emit_of_lt _ (by decide) hroom]; rfl

/-- With 8 bits pending and room for a byte the low byte of `ACC` leaves (43 R187). -/
theorem flushByte_flushes (hbits : 8 ≤ r.work.bitpos.toNat) (hroom : base + 1 ≤ r.work.wr.toNat) :
    ∃ r', flushByte base r = .ok r' ∧ Flushed 1 r r' := by
  obtain ⟨r', hr'⟩ : ∃ r', flushByte base r = .ok r' := ⟨_, by rw [flushByte, emit_of_le _ hroom]; rfl⟩
  obtain ⟨-, hform⟩ := flushByte_ok hr'
  have hbitpos : r'.work.bitpos.toNat = r.work.bitpos.toNat - 8 := by
    have := r.work.bitpos.isLt
    rw [hform, BitVec.toNat_ofNat, Nat.mod_eq_of_lt (by omega)]
  have hwr : r'.work.wr.toNat = r.work.wr.toNat - 1 := by rw [hform]; exact cursor_sub_toNat r 1
  have hacc : r'.work.acc.toNat = r.work.acc.toNat / 2 ^ 8 := by rw [hform, BitVec.toNat_ushiftRight, Nat.shiftRight_eq_div_pow]
  have hread (a : Nat) : r'.mem.read a = if a = r'.work.wr.toNat then BitVec.ofNat 8 (r.work.acc.toNat % 2 ^ 8) else r.mem.read a := by
    rw [hwr, hform]; exact Memory.read_write _ _ _ _
  have hframe : ∀ a, a < r'.work.wr.toNat ∨ r.work.wr.toNat ≤ a → r'.mem.read a = r.mem.read a := fun a ha => by
    rw [hread, if_neg (by omega)]
  refine ⟨r', hr', by omega, by omega, by rw [hform], hframe, fun {fin bits emitted} hp => ?_⟩
  obtain ⟨hbelow, hpending, hcount, hvalue⟩ := hp
  have hpow : 2 ^ r.work.bitpos.toNat = 2 ^ (r.work.bitpos.toNat - 8) * 2 ^ 8 := by rw [← Nat.pow_add]; congr 1; omega
  have hlen : fin - r'.work.wr.toNat = 1 + (fin - r.work.wr.toNat) := by omega
  have hbytes : numberBE r'.mem r'.work.wr.toNat (fin - r'.work.wr.toNat)
      = 2 ^ (8 * (fin - r.work.wr.toNat)) * (r.work.acc.toNat % 2 ^ 8) + numberBE r.mem r.work.wr.toNat (fin - r.work.wr.toNat) := by
    have hfirst : numberBE r'.mem r'.work.wr.toNat 1 = r.work.acc.toNat % 2 ^ 8 := by
      rw [numberBE, numberBE, Nat.add_zero, hread, if_pos rfl, BitVec.toNat_ofNat, Nat.mod_mod, Nat.mul_zero, Nat.zero_add]
    rw [hlen, numberBE_add, hfirst, show r'.work.wr.toNat + 1 = r.work.wr.toNat by omega,
      numberBE_congr fun j _ => hframe _ (by omega)]
  refine ⟨by omega, ?_, by omega, ?_⟩
  · rw [hacc, hbitpos, Nat.div_lt_iff_lt_mul (by decide), ← hpow]; exact hpending
  · rw [hvalue, hbytes, hacc, hlen, Nat.mul_add, Nat.pow_add]
    nth_rw 1 [← Nat.div_add_mod r.work.acc.toNat (2 ^ 8)]
    ring

theorem flushBytes_succ (base n : Nat) (r : Run) : flushBytes base (n + 1) r = flushByte base r >>= flushBytes base n := rfl

theorem flushBytes_flushes : ∀ (n : Nat) {r : Run}, 8 * n ≤ r.work.bitpos.toNat → base + n ≤ r.work.wr.toNat →
    ∃ r', flushBytes base n r = .ok r' ∧ Flushed n r r'
  | 0, r, _, _ => ⟨r, rfl, .refl r⟩
  | n + 1, r, hbits, hroom => by
    obtain ⟨a, ha, hfirst⟩ := flushByte_flushes (base := base) (r := r) (by omega) (by omega)
    obtain ⟨r', hr', hrest⟩ := flushBytes_flushes n (r := a) (by have := hfirst.bitpos; omega) (by have := hfirst.wr; omega)
    exact ⟨r', by rw [flushBytes_succ, ha]; exact hr', Nat.add_comm 1 n ▸ hfirst.trans hrest⟩

theorem flushBytes_stops : ∀ (n : Nat) {r : Run}, 8 * n ≤ r.work.bitpos.toNat → 0 < n →
    r.work.wr.toNat < base + n → flushBytes base n r = .error .bufferTooSmall
  | 0, _, _, hpos, _ => absurd hpos (Nat.lt_irrefl 0)
  | n + 1, r, hbits, _, hroom => by
    rw [flushBytes_succ]
    obtain hfull | hfree := Nat.lt_or_ge r.work.wr.toNat (base + 1)
    · rw [flushByte_stops hfull]; rfl
    · obtain ⟨a, ha, hfirst⟩ := flushByte_flushes (by omega) hfree
      have hbitpos := hfirst.bitpos
      have hwr := hfirst.wr
      rw [ha]
      exact flushBytes_stops n (by omega) (by omega) (by omega)

/-- A flush that is not stopped has moved all whole bytes (43 R187). -/
theorem flushBits_flushed (h : flushBits base r = .ok r') : Flushed (r.work.bitpos.toNat / 8) r r' := by
  rw [flushBits] at h
  obtain hroom | hroom := Nat.lt_or_ge r.work.wr.toNat (base + r.work.bitpos.toNat / 8)
  · obtain hzero | hpos := Nat.eq_zero_or_pos (r.work.bitpos.toNat / 8)
    · rw [hzero] at h ⊢; cases h; exact .refl r
    · rw [flushBytes_stops _ (by omega) hpos hroom] at h; cases h
  · obtain ⟨a, ha, hflushed⟩ := flushBytes_flushes (r.work.bitpos.toNat / 8) (by omega) hroom
    rw [ha] at h; cases h; exact hflushed

/-! #### The terminal flush -/

/-- The pending bits and as many bits of the state as fill 32 make four whole bytes (43 R193). -/
theorem terminalFlush_eq (hpending : r.work.bitpos.toNat ≤ 7) (base : Nat) :
    terminalFlush base r = flushBytes base 4 (emitBits r.work.x.toNat (32 - r.work.bitpos.toNat) r) := by
  rw [terminalFlush, flushBits, emitBits_bitpos, BitVec.toNat_ofNat,
    show (r.work.bitpos.toNat + (32 - r.work.bitpos.toNat)) % 2 ^ 7 / 8 = 4 by omega]

theorem terminal_bitpos (hpending : r.work.bitpos.toNat ≤ 7) :
    (emitBits r.work.x.toNat (32 - r.work.bitpos.toNat) r).work.bitpos.toNat = 32 := by
  rw [emitBits_bitpos, BitVec.toNat_ofNat]; omega

theorem terminalFlush_stops (hpending : r.work.bitpos.toNat ≤ 7) (hroom : r.work.wr.toNat < base + 4) :
    terminalFlush base r = .error .bufferTooSmall := by
  rw [terminalFlush_eq hpending]
  exact flushBytes_stops 4 (by rw [terminal_bitpos hpending]) (by decide) hroom

/-- With room the state stands above all emitted bits, and none is left pending (43 R193, R195). -/
theorem terminalFlush_writes (h : r.Packed fin bits emitted) (hx : r.work.x.toNat < 2 ^ 18) (hpending : r.work.bitpos.toNat ≤ 7)
    (hroom : base + 4 ≤ r.work.wr.toNat) :
    ∃ r', terminalFlush base r = .ok r' ∧ r'.work.wr.toNat + 4 = r.work.wr.toNat ∧ r'.work.acc = 0 ∧ r'.work.bitpos = 0
      ∧ numberBE r'.mem r'.work.wr.toNat (fin - r'.work.wr.toNat) = r.work.x.toNat * 2 ^ bits + emitted
      ∧ ∀ a, a < r'.work.wr.toNat ∨ r.work.wr.toNat ≤ a → r'.mem.read a = r.mem.read a := by
  have hbits := terminal_bitpos hpending
  obtain ⟨r', hr', hbitpos, hwr, -, hframe, hpacked⟩ :=
    flushBytes_flushes (base := base) 4 (r := emitBits r.work.x.toNat (32 - r.work.bitpos.toNat) r) (by omega) hroom
  obtain ⟨-, hacc, -, hvalue⟩ := hpacked (h.emitBits r.work.x.toNat (by omega) (by omega))
  have hbitpos' : r'.work.bitpos.toNat = 0 := by omega
  rw [hbitpos', Nat.pow_zero, Nat.lt_one_iff] at hacc
  have hstate : r.work.x.toNat % 2 ^ (32 - r.work.bitpos.toNat) = r.work.x.toNat :=
    Nat.mod_eq_of_lt (hx.trans_le (Nat.pow_le_pow_right (by decide) (by omega)))
  rw [hacc, hstate, Nat.zero_mul, Nat.zero_add] at hvalue
  exact ⟨r', (terminalFlush_eq hpending base).trans hr', hwr, BitVec.eq_of_toNat_eq hacc, BitVec.eq_of_toNat_eq hbitpos',
    hvalue.symm.trans (Nat.add_comm _ _), hframe⟩

end Sys2Proof.Machine
end

/-! ### The stream of the fixed-accuracy encoder -/

section
namespace Sys2Proof.Machine

variable {s t : State} {l : List Byte} {b : Byte} {r r' : Run} {k n : Nat}

/-- A symbol in front shifts the state of the symbols behind it into its interval, updates it, and puts the bits shifted out above theirs
(43 R191, R202). -/
theorem faStream_cons (s : State) (b : Byte) (l : List Byte) : s.faStream (b :: l) =
    { x := refUpdated (s.symFreq b) (s.encOf b).start.toNat ((s.faStream l).x / 2 ^ faShiftOf (s.symFreq b) (s.faStream l).x)
      bits := (s.faStream l).bits + faShiftOf (s.symFreq b) (s.faStream l).x
      emitted := (s.faStream l).emitted
        + (s.faStream l).x % 2 ^ faShiftOf (s.symFreq b) (s.faStream l).x * 2 ^ (s.faStream l).bits } := rfl

/-- The table set is valid for `ENC.FA` (10 R48, 43 R183). -/
def State.FaTables (s : State) : Prop := s.IntervalsOk ∧ ∀ b : Byte, (s.encOf b).delta = faDelta (s.encOf b).freq.toNat

theorem State.TablesOk.faTables (htab : s.TablesOk) (hv : s.tvar = .fa) : s.FaTables := by
  obtain ⟨hintervals, -, hdelta⟩ := htab
  exact ⟨hintervals (by rw [hv]; nofun), hdelta hv⟩

theorem symFreq_le (htab : s.FaTables) (b : Byte) : s.symFreq b ≤ 2 ^ 14 := by
  have := htab.1.encOf_fits b
  rw [State.symFreq]; omega

/-- The state of a coded sequence stays in its range (43 R182). -/
theorem faStream_range (htab : s.FaTables) : ∀ {l : List Byte}, s.Coded l → FaRange (s.faStream l).x
  | [], _ => ⟨Nat.le_refl _, show 2 ^ 17 < 2 ^ 18 by decide⟩
  | b :: l, h => by
    obtain ⟨hb, hl⟩ := coded_cons.mp h
    have hf := Nat.pos_of_ne_zero hb
    obtain ⟨hlow, hhigh⟩ := shifted_interval hf (symFreq_le htab b) (faStream_range htab hl)
    rw [faStream_cons]
    exact refUpdated_faRange hf (htab.1.encOf_fits b) hlow hhigh

/-- The run has encoded the symbols `l`: its state and its bits are those of their stream, and at most `k` bits are pending. -/
structure State.FaEncoded (s : State) (l : List Byte) (k : Nat) (r : Run) : Prop where
  coded : s.Coded l
  inside : s.WrittenFromWr r
  x : r.work.x.toNat = (s.faStream l).x
  packed : r.Packed s.bufEnd (s.faStream l).bits (s.faStream l).emitted
  pending : r.work.bitpos.toNat ≤ k

theorem State.FaEncoded.setIdx (h : s.FaEncoded l k r) (i : Nat) : s.FaEncoded l k (r.setIdx i) := by
  obtain ⟨hcoded, hinside, hx, ⟨hbelow, hacc, hcount, hvalue⟩, hpending⟩ := h
  exact ⟨hcoded, hinside, hx, ⟨hbelow, hacc, hcount, hvalue⟩, hpending⟩

theorem faStart_encoded (s : State) : s.FaEncoded [] 0 s.faEncStart := by
  have hwr : s.faEncStart.work.wr.toNat = s.bufEnd := by
    rw [State.faEncStart, BitVec.toNat_ofNat, Nat.mod_eq_of_lt s.bufEnd_lt]
  have hpacked := packed_pending (r := s.faEncStart) (by decide : (0 : DWord).toNat < 2 ^ (0 : BitVec 7).toNat)
  rw [hwr] at hpacked
  exact ⟨nofun, writtenFromWr_of_start rfl rfl, rfl, hpacked, Nat.le_refl _⟩

/-- A step of `ENC.FA` without error, while at most 50 bits are pending, encodes its symbol and leaves at most 14 more (43 R188, R191). -/
theorem faEncStep_encoded (htab : s.FaTables) (h : s.FaEncoded l k r) (hk : k ≤ 50) (hstep : faEncStep s b r = .ok r') :
    s.FaEncoded (b :: l) (k + 14) r' := by
  have hinside : s.WrittenFromWr r' := (hstep ▸ faEncStep_encodesTo h.inside b : EncodesTo s.WrittenFromWr (.ok r'))
  obtain ⟨hcoded, -, hx, hpacked, hpending⟩ := h
  obtain ⟨-, herror⟩ | ⟨hfreq, hok⟩ := faEncStep_cases s b r
  · rw [herror] at hstep; cases hstep
  rw [hok] at hstep
  cases hstep
  have hf : 1 ≤ s.symFreq b := Nat.pos_of_ne_zero fun h0 => hfreq (BitVec.eq_of_toNat_eq h0)
  have hall : s.Coded (b :: l) := coded_cons.mpr ⟨Nat.ne_of_gt hf, hcoded⟩
  have hrange := faStream_range htab hcoded
  have hnext := faStream_range htab hall
  have hle := faShiftOf_le (s.symFreq b) (s.faStream l).x hf
  obtain ⟨hlow, hhigh⟩ := shifted_interval hf (symFreq_le htab b) hrange
  have hshift : faShift (s.encOf b) r.work.x.toNat = faShiftOf (s.symFreq b) (s.faStream l).x := by
    rw [hx]; exact faShift_eq hf (symFreq_le htab b) hrange (htab.2 b)
  rw [hshift, hx] at hinside ⊢
  obtain ⟨hbelow, hacc, hcount, hvalue⟩ := hpacked.emitBits (s.faStream l).x (n := faShiftOf (s.symFreq b) (s.faStream l).x)
    (by omega) (by omega)
  refine ⟨hall, hinside, ?_, ⟨hbelow, hacc, hcount, hvalue⟩, ?_⟩
  · rw [Run.setX_x, Nat.shiftRight_eq_div_pow, faFold_eq hlow hhigh, BitVec.toNat_ofNat]
    exact Nat.mod_eq_of_lt (hnext.2.trans (by decide))
  · rw [Run.setX_bitpos, emitBits_bitpos, BitVec.toNat_ofNat]
    omega

/-- The step at position `i` of the source (43 R189). -/
theorem faEncStep_at (htab : s.FaTables) (hreg : s.RegionsOk) {i : Nat} (hi : i < s.nSrc.toNat)
    (h : s.FaEncoded (s.sourceBytes.drop (i + 1)) k r) (hk : k ≤ 50)
    (hstep : faEncStep s (r.mem.read (s.aSrc.toNat + i)) r = .ok r') : s.FaEncoded (s.sourceBytes.drop i) (k + 14) r' := by
  rw [h.inside.inside.read_source hreg (by omega) (by rw [State.srcEnd]; omega)] at hstep
  rw [sourceBytes_drop s hi]
  exact faEncStep_encoded htab h hk hstep

theorem flushBits_encoded (h : s.FaEncoded l k r) (hflush : flushBits s.aBuf.toNat r = .ok r') : s.FaEncoded l 7 r' := by
  obtain ⟨hbitpos, -, hx, -, hpacked⟩ := flushBits_flushed hflush
  have hinside : s.WrittenFromWr r' := (hflush ▸ flushBits_encodesTo h.inside : EncodesTo s.WrittenFromWr (.ok r'))
  exact ⟨h.coded, hinside, hx ▸ h.x, hpacked h.packed, by omega⟩

/-- The loop flushes after every third symbol, so no more than 7 + 3 * 14 bits are ever pending (43 R188 to R190). -/
theorem faEncLoop_encoded (htab : s.FaTables) (hreg : s.RegionsOk) : ∀ (n : Nat) {r : Run}, n ≤ s.nSrc.toNat →
    s.FaEncoded (s.sourceBytes.drop n) 7 r → faEncLoop s s.aSrc.toNat s.aBuf.toNat n r = .ok r' → s.FaEncoded s.sourceBytes 7 r'
  | 0, _, _, hr, h => flushBits_encoded hr h
  | 1, _, hn, hr, h => by
    obtain ⟨a, ha, hflush⟩ := (bind_eq_ok _ _ _).mp h
    exact flushBits_encoded (faEncStep_at htab hreg (i := 0) hn (hr.setIdx 1) (by decide) ha) hflush
  | 2, _, hn, hr, h => by
    obtain ⟨a, ha, h⟩ := (bind_eq_ok _ _ _).mp h
    obtain ⟨b, hb, hflush⟩ := (bind_eq_ok _ _ _).mp h
    have h₁ := faEncStep_at htab hreg (i := 1) hn (hr.setIdx 2) (by decide) ha
    exact flushBits_encoded (faEncStep_at htab hreg (i := 0) (by omega) (h₁.setIdx 1) (by decide) hb) hflush
  | n + 3, _, hn, hr, h => by
    obtain ⟨a, ha, h⟩ := (bind_eq_ok _ _ _).mp h
    obtain ⟨b, hb, h⟩ := (bind_eq_ok _ _ _).mp h
    obtain ⟨c, hc, h⟩ := (bind_eq_ok _ _ _).mp h
    obtain ⟨d, hflush, hrest⟩ := (bind_eq_ok _ _ _).mp h
    have h₁ := faEncStep_at htab hreg (i := n + 2) hn (hr.setIdx (n + 3)) (by decide) ha
    have h₂ := faEncStep_at htab hreg (i := n + 1) (by omega) h₁ (by decide) hb
    have h₃ := faEncStep_at htab hreg (i := n) (by omega) h₂ (by decide) hc
    exact faEncLoop_encoded htab hreg n (by omega) (flushBits_encoded h₃ hflush) hrest

/-- A run of `ENC.FA` without error leaves the state above the emitted bits in the bytes from `WR` to the end (43 R193, R195). -/
theorem faEncode_written (htab : s.FaTables) (hreg : s.RegionsOk) (h : s.faEncode = .ok r) :
    s.bufEnd - r.work.wr.toNat = 4 + (s.faStream s.sourceBytes).bits / 8
      ∧ numberBE r.mem r.work.wr.toNat (s.bufEnd - r.work.wr.toNat)
        = (s.faStream s.sourceBytes).x * 2 ^ (s.faStream s.sourceBytes).bits + (s.faStream s.sourceBytes).emitted := by
  obtain ⟨a, hloop, hterminal⟩ := (bind_eq_ok _ _ _).mp h
  have hstart : s.FaEncoded (s.sourceBytes.drop s.nSrc.toNat) 7 s.faEncStart := by
    obtain ⟨hcoded, hinside, hx, hpacked, hpending⟩ := faStart_encoded s
    rw [sourceBytes_drop_all]
    exact ⟨hcoded, hinside, hx, hpacked, by omega⟩
  obtain ⟨hcoded, -, hx, hpacked, hpending⟩ := faEncLoop_encoded htab hreg _ (Nat.le_refl _) hstart hloop
  have hrange := faStream_range htab hcoded
  obtain hroom | hroom := Nat.lt_or_ge a.work.wr.toNat (s.aBuf.toNat + 4)
  · rw [terminalFlush_stops hpending hroom] at hterminal; cases hterminal
  obtain ⟨r', hr', hwr, -, -, hvalue, -⟩ := terminalFlush_writes hpacked (hx ▸ hrange.2) hpending hroom
  rw [hr'] at hterminal
  cases hterminal
  have hbelow := hpacked.below
  have hcount := hpacked.count
  exact ⟨by omega, hx ▸ hvalue⟩

/-- Settles O49: the run of the word encoder carries the words of the stream, the run of `ENC.FA` its bits, from the last symbol to the first. -/
theorem encodersWriteTheirStream : Obligations.EncodersWriteTheirStream := by
  constructor
  · intro s t e he htab hexec hnone
    obtain ⟨-, -, -, htail⟩ := tailWritten_of_exec he htab hexec hnone
    obtain ⟨hlow, hhigh, hemitted⟩ := htail.parts
    have hresult := htail.result
    rw [tailWords_length] at hresult
    exact ⟨by omega, hlow, hhigh, hemitted⟩
  · intro s t htab hexec hnone
    obtain ⟨hreg, hv, rfl⟩ := ready_of_exec hexec hnone
    obtain ⟨r, hrun, hinside⟩ := finishEncode_ok_of_none (faEncode_encodesTo s) hnone
    obtain ⟨hlen, hvalue⟩ := faEncode_written (htab.faTables hv) hreg hrun
    have hresult := finishEncode_result hinside
    obtain ⟨-, hhigh, -⟩ := hinside
    have hrule : ruleOf .encFa s = s.finishEncode (.ok r) := hrun ▸ rfl
    rw [hrule]
    refine ⟨hresult.trans hlen, ?_⟩
    rw [hresult, show s.bufEnd - (s.bufEnd - r.work.wr.toNat) = r.work.wr.toNat by omega]
    exact hvalue

end Sys2Proof.Machine
end

/-! ### The empty sequence -/

section
namespace Sys2Proof.Machine

variable {s : State} {m : Memory} {a : Nat}

/-- A byte of a number written most significant byte first (43 R195). -/
theorem read_eq_of_numberBE (m : Memory) (a : Nat) {n j : Nat} (hj : j < n) :
    m.read (a + j) = BitVec.ofNat 8 (numberBE m a n / 2 ^ (8 * (n - 1 - j))) := by
  have hsplit := numberBE_add m a (j + 1) (n - 1 - j)
  have hrest := numberBE_lt m (a + (j + 1)) (n - 1 - j)
  rw [show j + 1 + (n - 1 - j) = n by omega] at hsplit
  refine BitVec.eq_of_toNat_eq ?_
  rw [hsplit, Nat.mul_add_div (Nat.two_pow_pos _), Nat.div_eq_of_lt hrest, Nat.add_zero, numberBE, BitVec.toNat_ofNat,
    Nat.mul_add_mod, Nat.mod_eq_of_lt (m.read (a + j)).isLt]

/-- The bytes of the two words of the state 2^31. -/
theorem bytes_of_initial_words (hlow : m.readLE a 4 = 2 ^ 31) (hhigh : m.readLE (a + 4) 4 = 0) :
    ∀ j < 8, m.read (a + j) = if j = 3 then 0x80 else 0 := by
  intro j hj
  obtain hfirst | hsecond := Nat.lt_or_ge j 4
  · rw [m.read_eq_of_readLE hfirst, hlow]
    decide +revert
  · obtain ⟨i, rfl⟩ := Nat.exists_eq_add_of_le hsecond
    rw [← Nat.add_assoc, m.read_eq_of_readLE (show i < 4 by omega), hhigh, Nat.zero_div, if_neg (by omega)]
    rfl

/-- The bytes of the terminal word of the state 2^17 with no bit pending. -/
theorem bytes_of_initial_terminal (h : numberBE m a 4 = 2 ^ 17) : ∀ j < 4, m.read (a + j) = if j = 1 then 0x02 else 0 := by
  intro j hj
  rw [read_eq_of_numberBE m a hj, h]
  decide +revert

/-- With no symbol the word encoder writes the initial state (41 R135, R140). -/
theorem encWords_empty (update : EncEntry → DWord → Nat) (hempty : s.nSrc = 0) (hroom : 8 ≤ s.nBuf.toNat) :
    ∃ r, s.encWords update = .ok r ∧ r.work.wr.toNat + 8 = s.bufEnd ∧ ∀ j < 8, r.mem.read (r.work.wr.toNat + j) = if j = 3 then 0x80 else 0 := by
  have hwr : s.encStart.work.wr.toNat = s.bufEnd := (encStart_wordsWritten s).count
  have hend : s.bufEnd = s.aBuf.toNat + s.nBuf.toNat := rfl
  obtain ⟨r, hr, hrwr, hlow, hhigh, -⟩ := flushState_writes (base := s.aBuf.toNat) (r := s.encStart) (by omega)
  rw [encStart_x] at hlow hhigh
  refine ⟨r, ?_, hrwr.trans hwr, bytes_of_initial_words hlow hhigh⟩
  rw [State.encWords, hempty]
  exact hr

theorem flushBits_of_no_bits {r : Run} (base : Nat) (h : r.work.bitpos = 0) : flushBits base r = .ok r := by rw [flushBits, h]; rfl

/-- With no symbol `ENC.FA` writes the initial state (43 R189, R203). -/
theorem faEncode_empty (hempty : s.nSrc = 0) (hroom : 4 ≤ s.nBuf.toNat) :
    ∃ r, s.faEncode = .ok r ∧ r.work.wr.toNat + 4 = s.bufEnd ∧ ∀ j < 4, r.mem.read (r.work.wr.toNat + j) = if j = 1 then 0x02 else 0 := by
  have hx : s.faEncStart.work.x.toNat = 2 ^ 17 := (faStart_encoded s).x
  have hpacked : s.faEncStart.Packed s.bufEnd 0 0 := (faStart_encoded s).packed
  have hpending := (faStart_encoded s).pending
  have hcount := hpacked.count
  have hbelow := hpacked.below
  have hend : s.bufEnd = s.aBuf.toNat + s.nBuf.toNat := rfl
  obtain ⟨r, hr, hrwr, -, -, hvalue, -⟩ := terminalFlush_writes (base := s.aBuf.toNat) hpacked (by omega) (by omega) (by omega)
  rw [hx, show s.bufEnd - r.work.wr.toNat = 4 by omega, Nat.pow_zero, Nat.mul_one, Nat.add_zero] at hvalue
  refine ⟨r, ?_, by omega, bytes_of_initial_terminal hvalue⟩
  have hloop : faEncLoop s s.aSrc.toNat s.aBuf.toNat 0 s.faEncStart = .ok s.faEncStart := flushBits_of_no_bits _ rfl
  rw [State.faEncode, hempty, show (0 : Word).toNat = 0 from rfl, hloop]
  exact hr

/-- What an encoder's run has left below the end of the destination, seen from the completed command. -/
theorem finishEncode_last {r : Run} {n : Nat} {f : Nat → Byte} (hwr : r.work.wr.toNat + n = s.bufEnd) (hn : n < 2 ^ 32)
    (hbytes : ∀ j < n, r.mem.read (r.work.wr.toNat + j) = f j) :
    (s.finishEncode (.ok r)).err = .none ∧ (s.finishEncode (.ok r)).result = BitVec.ofNat 32 n
      ∧ ∀ j < n, (s.finishEncode (.ok r)).mem.read (s.bufEnd - n + j) = f j := by
  have hlen : s.bufEnd - r.work.wr.toNat = n := by omega
  have hstart : s.bufEnd - n = r.work.wr.toNat := by omega
  refine ⟨rfl, ?_, fun j hj => hstart ▸ hbytes j hj⟩
  show BitVec.ofNat 32 (s.bufEnd - r.work.wr.toNat) = _
  rw [hlen]

/-- Settles O48: the rules of the three writes, and with no symbol the flush of the initial state is the whole run. -/
theorem emptySequenceEncodesTheInitialState : Obligations.EmptySequenceEncodesTheInitialState := by
  refine ⟨fun base f r => ⟨renormalize_of_lt base, renormalize_stops, renormalize_emits⟩,
    fun base r => ⟨flushState_stops, flushState_writes⟩, fun base r hx hpending hacc => ⟨terminalFlush_stops hpending, fun hroom => ?_⟩,
    fun s p hp hv hreg hempty hroom => ?_, fun s hv hreg hempty hroom => ?_⟩
  · obtain ⟨r', hr', hwr, hacc', hbitpos, hvalue, hframe⟩ := terminalFlush_writes (packed_pending hacc) hx hpending hroom
    rw [show r.work.wr.toNat - r'.work.wr.toNat = 4 by omega] at hvalue
    exact ⟨r', hr', hwr, hacc', hbitpos, hvalue, hframe⟩
  · obtain ⟨he, hop, hneeds⟩ := wordEncoder_ready hp hv hreg
    obtain ⟨update, hrule, -⟩ := ruleOf_wordEncoder he s
    obtain ⟨r, hr, hwr, hbytes⟩ := encWords_empty update hempty hroom
    have hexec := exec_of_ready hop hneeds
    rw [hrule, hr] at hexec
    exact ⟨_, hexec, finishEncode_last hwr (by decide) hbytes⟩
  · obtain ⟨r, hr, hwr, hbytes⟩ := faEncode_empty hempty hroom
    have hexec : exec .encFa s = .next (s.finishEncode s.faEncode) := exec_of_ready (i := .encFa) hreg hv
    exact ⟨_, hr ▸ hexec, finishEncode_last hwr (by decide) hbytes⟩

end Sys2Proof.Machine
end

/-! ### The reciprocals TBL.FAST builds -/

section
namespace Sys2Proof.Machine

variable {f c : Nat}

/-! #### The fields as numbers -/

theorem fastEntry_cmplFreq_toNat (e : EncEntry) (f c : Nat) : (fastEntry e f c).cmplFreq.toNat = 16384 - f := by
  rw [fastEntry_cmplFreq, BitVec.toNat_ofNat, Config.total, Nat.mod_eq_of_lt (by omega)]

/-- Below frequency 2 the reciprocal is all ones, and the bias makes up for the quotient less one (42 R163). -/
theorem fastEntry_of_lt_two (e : EncEntry) (hf : f < 2) (hc : c ≤ 16384) :
    (fastEntry e f c).rcp.toNat = 2 ^ 64 - 1 ∧ (fastEntry e f c).rcpShift = 0 ∧ (fastEntry e f c).bias.toNat = c + 16384 - 1 := by
  rw [fastEntry_rcp, fastEntry_rcpShift, fastEntry_bias, if_pos hf, if_pos hf, if_pos hf, Config.total]
  exact ⟨rfl, rfl, by rw [BitVec.toNat_ofNat, Nat.mod_eq_of_lt (by omega)]⟩

/-- The bounds of the reciprocal leave one number: the quotient rounded up (42 R164). -/
theorem fastEntry_rcp_toNat (e : EncEntry) (c : Nat) (hf : 2 ≤ f) (hmax : f ≤ 16384) :
    (fastEntry e f c).rcp.toNat = (2 ^ (bitWidth (f - 1) + 63) + f - 1) / f := by
  obtain ⟨hlow, hhigh⟩ := fastEntry_rcp_bounds e c hf hmax
  refine (Nat.div_eq_of_lt_le (by omega) ?_).symm
  rw [Nat.add_one_mul]; omega

theorem fastEntry_rcpShift_toNat (e : EncEntry) (c : Nat) (hf : 2 ≤ f) (hmax : f ≤ 16384) :
    (fastEntry e f c).rcpShift.toNat = bitWidth (f - 1) - 1 := by
  have hwidth : bitWidth (f - 1) ≤ 14 := bitWidth_le (by omega)
  rw [fastEntry_rcpShift, if_neg (by omega), BitVec.toNat_ofNat, Nat.mod_eq_of_lt (by omega)]

theorem fastEntry_bias_toNat (e : EncEntry) (hf : 2 ≤ f) (hc : c ≤ 16384) : (fastEntry e f c).bias.toNat = c := by
  rw [fastEntry_bias, if_neg (by omega), BitVec.toNat_ofNat, Nat.mod_eq_of_lt (by omega)]

/-! #### The command -/

/-- A symbol's interval ends where the total does, or before (10 R47). -/
theorem State.StatisticsOk.interval_le {s : State} (h : s.StatisticsOk) (hnormal : s.sstate = .normal) (hend : wordAt s.cum 256 = 16384)
    (b : Byte) : wordAt s.cum b.toNat + wordAt s.freq b.toNat ≤ 16384 := by
  obtain ⟨-, hsums, -⟩ := h hnormal
  have hb : b.toNat < 256 := b.isLt
  rw [← hsums b.toNat hb, ← hend]
  exact le_of_steps (cum := wordAt s.cum) (fun j hj => (hsums j hj).symm ▸ Nat.le_add_right _ _) hb (Nat.le_refl _)

/-- Settles O31: an entry is `fastEntry` of the symbol's frequency and start, which fit the total; the frame is that of every `TBL.v`. -/
theorem tblFastComputesReciprocals : Obligations.TblFastComputesReciprocals := by
  intro s hnormal hend hstatistics
  obtain ⟨hinputs, hmem⟩ := ruleOf_building_frame (i := .tblFast) rfl s
  have hstat := ruleOf_tables_sameStatistics (i := .tblFast) (by decide) s
  refine ⟨ruleOf .tblFast s, exec_tbl (by decide) hnormal hend, ⟨rfl, rfl, rfl, rfl⟩, rfl, fun b => ?_, hinputs, hstat, hmem⟩
  have hfit := hstatistics.interval_le hnormal hend b
  have henc : (ruleOf .tblFast s).encOf b = _ := encOf_buildTables s .fast fastEntry b
  have hdec : (ruleOf .tblFast s).decOf b = _ := decOf_buildTables s .fast fastEntry b
  rw [henc, hdec]
  simp only [fastEntry_freq, fastEntry_start, ofNat_wordAt_toNat, fastEntry_cmplFreq_toNat, true_and, and_true]
  exact ⟨fun hf => fastEntry_of_lt_two _ hf (by omega), fun hf => ⟨fastEntry_rcp_toNat _ _ hf (by omega),
    fastEntry_rcpShift_toNat _ _ hf (by omega), fastEntry_bias_toNat _ hf (by omega)⟩⟩

/-! #### Division by the reciprocal -/

/-- Settles O37: the rounding error of the reciprocal, times a state below 2^63, stays below the power of two it is scaled by. -/
theorem reciprocalDividesExactly : Obligations.ReciprocalDividesExactly :=
  fun e _ c _ hf hmax hx => fastQuotient_fastEntry e c hf hmax hx

/-- Settles O38: both updates are the exact one, the one of `FAST` by its exact quotient, or at frequency 1 by its bias. -/
theorem fastUpdateIsRefUpdate : Obligations.FastUpdateIsRefUpdate := by
  intro e f c x hfreq hstart hf hfit hx hlt
  rw [fastUpdate_fastEntry e hf hfit hx hlt, refUpdate_eq, hfreq, hstart]

end Sys2Proof.Machine
end

/-! ### ENC.FAST runs as ENC.REF, DEC.FAST as DEC.REF -/

section
namespace Sys2Proof.Machine

variable {s t : State} {r : Run} {update : EncEntry → DWord → Nat}

/-! #### The same run -/

/-- Two steps that agree wherever an invariant of the second holds make the same loop. -/
theorem encLoop_congr {step step' : Byte → Run → Except ErrorCode Run} {src : Nat} {P : Run → Prop} (hidx : ∀ r i, P r → P (r.setIdx i))
    (hsame : ∀ b r, P r → step b r = step' b r) (hkeeps : ∀ b r r', P r → step' b r = .ok r' → P r') :
    ∀ (n : Nat) {r : Run}, P r → encLoop step src n r = encLoop step' src n r
  | 0, _, _ => rfl
  | n + 1, r, hr => by
    have hr' := hidx r n hr
    rw [encLoop, encLoop, hsame _ _ hr']
    cases hstep : step' (r.mem.read (src + n)) (r.setIdx n) with
    | error e => rfl
    | ok a => exact encLoop_congr hidx hsame hkeeps n (hkeeps _ _ _ hr' hstep)

/-- In the range of the coder state the renormalization lands in the operating range of the update (42 R168). -/
theorem encStep_eq_ref (hupd : s.UpdatesAsRef update) (hx : CoderRange r.work.x.toNat) (b : Byte) :
    encStep update s b r = encStep refUpdate s b r := by
  unfold encStep
  simp only
  split_ifs with hfreq
  · rfl
  · have hb : s.symFreq b ≠ 0 := fun h0 => hfreq (BitVec.eq_of_toNat_eq h0)
    cases hrenorm : renormalize s.aBuf.toNat (s.encOf b).freq.toNat r with
    | error e => rfl
    | ok a =>
      have ha : a.work.x.toNat = renormalized (s.symFreq b) r.work.x.toNat := renormalize_x hrenorm
      have hpos := renormalized_pos (Nat.pos_of_ne_zero hb) hx
      have hlt := renormalized_lt (Nat.pos_of_ne_zero hb) hx.2
      have hupdate : update (s.encOf b) a.work.x = refUpdate (s.encOf b) a.work.x := by
        rw [hupd b a.work.x hb (ha ▸ hpos) (ha ▸ hlt), refUpdate_eq, State.symFreq]
      exact congrArg (fun v => Except.ok (a.setX v)) hupdate

/-- An update that agrees with that of `REF` on its operating range makes the run of `ENC.REF` (42 R168). -/
theorem encWords_eq_ref (htab : s.IntervalsOk) (hupd : s.UpdatesAsRef update) : s.encWords update = s.encWords refUpdate := by
  have hloop : encLoop (encStep update s) s.aSrc.toNat s.nSrc.toNat s.encStart
      = encLoop (encStep refUpdate s) s.aSrc.toNat s.nSrc.toNat s.encStart :=
    encLoop_congr (P := fun r => CoderRange r.work.x.toNat) (fun _ _ hr => hr) (fun b _ hr => encStep_eq_ref hupd hr b)
      (fun b r r' hr => encodeStepKeepsStateRange s b r r' (htab.encOf_fits b) hr.1 hr.2) _ ⟨Nat.le_refl _, show 2 ^ 31 < 2 ^ 63 by decide⟩
  rw [State.encWords, State.encWords, hloop]

/-! #### What a rule does not look at -/

/-- `CMD` set to `w`. -/
def State.setCmd (w : Word) (s : State) : State := { s with cmd := w }

/-- `TVAR` set to `v`, on the same tables. -/
def State.setTVar (v : TVar) (s : State) : State := { s with tvar := v }

/-- A change of the state that commutes with raising an error and with the rule commutes with the command behind its prologue. -/
theorem withPrologue_commutes {g body body' : State → State} {ok ready : Bool} (hraise : ∀ e, (g s).raise e = g (s.raise e))
    (hbody : body' (g s) = g (body s)) (h : withPrologue ok ready s body = .next t) : withPrologue ok ready (g s) body' = .next (g t) := by
  obtain ⟨rfl, rfl⟩ | ⟨rfl, rfl, rfl⟩ | ⟨rfl, rfl, rfl⟩ := withPrologue_cases h
  · rw [← hraise]; rfl
  · rw [← hraise]; rfl
  · rw [← hbody]; rfl

theorem finishEncode_setTVar (v : TVar) (s : State) (o : Except ErrorCode Run) :
    (s.setTVar v).finishEncode o = (s.finishEncode o).setTVar v := by
  cases o <;> rfl

theorem finishDecode_setCmd (w : Word) (s : State) (o : Except ErrorCode Run) :
    (s.setCmd w).finishDecode o = (s.finishDecode o).setCmd w := by
  cases o <;> rfl

/-- Settles O51: the two runs are equal, and apart from the readiness test, passed on either side, neither command looks at `TVAR`. -/
theorem fastEncodesExactlyAsRef : Obligations.FastEncodesExactlyAsRef := by
  intro s t hfast htab h
  have hrun : s.encWords fastUpdate = s.encWords refUpdate :=
    encWords_eq_ref (htab.1 (by rw [hfast]; nofun)) (fastUpdate_updatesAsRef htab hfast)
  have hbody : ruleOf .encRef (s.setTVar .ref) = (ruleOf .encFast s).setTVar .ref := calc
    ruleOf .encRef (s.setTVar .ref) = (s.setTVar .ref).finishEncode (s.encWords refUpdate) := rfl
    _ = (s.finishEncode (s.encWords fastUpdate)).setTVar .ref := by rw [hrun, finishEncode_setTVar]
  have hexec : exec .encFast s = withPrologue (decide s.RegionsOk) true s (ruleOf .encFast) :=
    congrArg (withPrologue (decide s.RegionsOk) · s (ruleOf .encFast)) (decide_eq_true hfast)
  exact withPrologue_commutes (g := State.setTVar .ref) (fun _ => rfl) hbody (hexec ▸ h)

/-- `DEC.REF` does not look at `CMD`. -/
theorem exec_decRef_setCmd (w : Word) (h : exec .decRef s = .next t) : exec .decRef (s.setCmd w) = .next (t.setCmd w) := by
  have hbody : ruleOf .decRef (s.setCmd w) = (ruleOf .decRef s).setCmd w := finishDecode_setCmd w s s.decWords
  have hexec : exec .decRef s = withPrologue (decide s.RegionsOk) (decide s.SharedTables) s (ruleOf .decRef) := rfl
  exact withPrologue_commutes (g := State.setCmd w) (fun _ => rfl) hbody (hexec ▸ h)

/-- Settles O52: the two words decode to commands of one meaning (42 R170), and that meaning does not look at `CMD`. -/
theorem decFastIsDecRef : Obligations.DecFastIsDecRef := by
  intro s
  obtain ⟨t, ht, -⟩ := everyCommandCompletes .decRef (s.startCommand 0)
  have hrun : ∀ d ∈ [Instr.decRef, .decFast], s.runCommand (encode d) = .next (t.setCmd (encode d)) := by
    intro d hd
    have hdec : ∀ s, exec d s = exec .decRef s := by
      simp only [List.mem_cons, List.not_mem_nil, or_false] at hd
      obtain rfl | rfl := hd <;> exact fun _ => rfl
    rw [State.runCommand, decode_encode]
    exact (hdec _).trans (exec_decRef_setCmd (s := s.startCommand 0) (encode d) ht)
  exact ⟨t, hrun .decRef (by decide), hrun .decFast (by decide)⟩

end Sys2Proof.Machine
end

/-! ### Bit widths -/

section
namespace Sys2Proof.Machine

variable {v n k x : Nat}

/-- A number between two powers of two has the width of the lower one (00 R12). -/
theorem bitWidth_eq (hlow : 2 ^ n ≤ v) (hhigh : v < 2 ^ (n + 1)) : bitWidth v = n + 1 := by
  have hv : v ≠ 0 := (Nat.lt_of_lt_of_le (Nat.two_pow_pos n) hlow).ne'
  rw [bitWidth, if_neg hv, (Nat.log2_eq_iff hv).mpr ⟨hlow, hhigh⟩]

/-- A number of width 18 is a state in the range of `FA` (43 R182). -/
theorem faRange_iff_bitWidth : FaRange x ↔ bitWidth x = 18 := by
  constructor
  · rintro ⟨hlow, hhigh⟩
    exact bitWidth_eq hlow hhigh
  · intro hwidth
    have hx : x ≠ 0 := by rintro rfl; cases hwidth
    have hlow := two_pow_pred_bitWidth_le hx
    have hhigh := lt_two_pow_bitWidth x
    rw [hwidth] at hlow hhigh
    exact ⟨hlow, hhigh⟩

/-- The bits shifted out of a number are taken off its width. -/
theorem bitWidth_eq_add_of_div (h : v / 2 ^ k ≠ 0) : bitWidth v = bitWidth (v / 2 ^ k) + k := by
  obtain ⟨n, hn⟩ := Nat.exists_eq_succ_of_ne_zero (bitWidth_pos h).ne'
  have hlow := two_pow_pred_bitWidth_le h
  have hhigh := lt_two_pow_bitWidth (v / 2 ^ k)
  rw [hn, Nat.succ_sub_one, Nat.le_div_iff_mul_le (Nat.two_pow_pos k), ← Nat.pow_add] at hlow
  rw [hn, Nat.succ_eq_add_one, Nat.div_lt_iff_lt_mul (Nat.two_pow_pos k), ← Nat.pow_add, Nat.add_right_comm] at hhigh
  rw [hn, bitWidth_eq hlow hhigh]; omega

theorem div_two_pow_ne_zero (hk : k < bitWidth v) : v / 2 ^ k ≠ 0 := by
  intro h
  have := bitWidth_le ((Nat.div_eq_zero_iff_lt (Nat.two_pow_pos k)).mp h)
  omega

end Sys2Proof.Machine
end

/-! ### The table, the shift and the update of the fixed-accuracy encoder -/

section
namespace Sys2Proof.Machine

variable {f x k : Nat}

/-- The delta is the exact difference, brought into 32 bits (43 R184). -/
theorem faDelta_toNat (f : Nat) :
    ((faDelta f).toNat : Int) = ((15 - bitWidth f : Nat) * 2 ^ 18 - f * 2 ^ (15 - bitWidth f + 3) : Int) % 2 ^ 32 := by
  have hthreshold : (f * 2 ^ (15 - bitWidth f + 3) : Int) = (f * 2 ^ (15 - bitWidth f + 3) : Nat) := by push_cast; rfl
  have hdelta : faDelta f = BitVec.ofNat 32 ((15 - bitWidth f) * 2 ^ 18) - BitVec.ofNat 32 (f * 2 ^ (15 - bitWidth f + 3)) := rfl
  rw [hthreshold, hdelta, BitVec.toNat_sub, BitVec.toNat_ofNat, BitVec.toNat_ofNat]
  generalize f * 2 ^ (15 - bitWidth f + 3) = theta
  omega

/-- Settles O32: an entry is `faEntry` of the symbol's frequency and start; the frame is that of every `TBL.v`. -/
theorem tblFaComputesDeltas : Obligations.TblFaComputesDeltas := by
  intro s hnormal hend _
  obtain ⟨hinputs, hmem⟩ := ruleOf_building_frame (i := .tblFa) rfl s
  have hstat := ruleOf_tables_sameStatistics (i := .tblFa) (by decide) s
  refine ⟨ruleOf .tblFa s, exec_tbl (by decide) hnormal hend, ⟨rfl, rfl, rfl, rfl⟩, rfl, fun b => ?_, hinputs, hstat, hmem⟩
  have henc : (ruleOf .tblFa s).encOf b = _ := encOf_buildTables s .fa faEntry b
  have hdec : (ruleOf .tblFa s).decOf b = _ := decOf_buildTables s .fa faEntry b
  rw [henc, hdec]
  simp only [faEntry_freq, faEntry_start, faEntry_delta, ofNat_wordAt_toNat]
  exact ⟨trivial, trivial, faDelta_toNat _, trivial, trivial⟩

/-- A state loses as many bits as its shift takes (43 R185). -/
theorem FaRange.bitWidth_shifted (hx : FaRange x) (hk : k < 18) : k + bitWidth (x / 2 ^ k) = 18 := by
  have hwidth := faRange_iff_bitWidth.mp hx
  rw [Nat.add_comm, ← bitWidth_eq_add_of_div (div_two_pow_ne_zero (hwidth ▸ hk)), hwidth]

/-- Settles O42: the addition of the delta finds the shift, the shift finds the interval, and a state has 18 bits. -/
theorem faShiftReachesItsInterval : Obligations.FaShiftReachesItsInterval := by
  intro e f x hf hmax hlow hhigh hdelta
  have hx : FaRange x := ⟨hlow, hhigh⟩
  have hle := faShiftOf_le f x hf
  obtain ⟨hfrom, hto⟩ := shifted_interval hf hmax hx
  rw [faShift_eq hf hmax hx hdelta, Nat.shiftRight_eq_div_pow]
  exact ⟨hle, hfrom, hto, rfl, hx.bitWidth_shifted (by omega)⟩

/-- Settles O43: the fold is the update of `REF`, whose digits are the quotient and the slot. -/
theorem faFoldIsDivision : Obligations.FaFoldIsDivision := by
  intro e y hf hfit hlow hhigh
  obtain ⟨hfrom, hto⟩ := refUpdated_faRange hf hfit hlow hhigh
  have hquot : 8 ≤ y / e.freq.toNat := (Nat.le_div_iff_mul_le hf).mpr hlow
  have hquot' : y / e.freq.toNat < 16 := (Nat.div_lt_iff_lt_mul hf).mpr hhigh
  rw [faFold_eq hlow hhigh]
  refine ⟨rfl, hquot, by omega, hfrom, hto, ?_⟩
  rw [refUpdated_mod hf hfit, refUpdated_div hf hfit, ← Nat.add_assoc, Nat.add_sub_cancel, Nat.div_add_mod]

end Sys2Proof.Machine
end

/-! ### What a flush writes -/

section
namespace Sys2Proof.Machine

variable {r r' : Run} {base n j : Nat}

/-- A byte below a cut is not touched by the cut. -/
theorem ofNat_mod_two_pow_div (v : Nat) (hj : j < n) :
    BitVec.ofNat 8 (v % 2 ^ (8 * n) / 2 ^ (8 * j)) = BitVec.ofNat 8 (v / 2 ^ (8 * j)) := by
  have hsplit : 2 ^ (8 * n) = 2 ^ (8 * j) * 2 ^ (8 * (n - j)) := by rw [← Nat.pow_add]; congr 1; omega
  have hdvd : 2 ^ 8 ∣ 2 ^ (8 * (n - j)) := Nat.pow_dvd_pow 2 (by omega)
  refine BitVec.eq_of_toNat_eq ?_
  rw [BitVec.toNat_ofNat, BitVec.toNat_ofNat, hsplit, Nat.mod_mul_right_div_self, Nat.mod_mod_of_dvd _ hdvd]

/-- The flushed bytes are the low ones of `ACC`, the lowest at the highest address, and the others are what `ACC` keeps (43 R187). -/
theorem Flushed.bytes (h : Flushed n r r') (hacc : r.work.acc.toNat < 2 ^ r.work.bitpos.toNat) :
    r'.work.acc.toNat < 2 ^ r'.work.bitpos.toNat ∧ r'.work.acc.toNat = r.work.acc.toNat / 2 ^ (8 * n)
      ∧ numberBE r'.mem r'.work.wr.toNat n = r.work.acc.toNat % 2 ^ (8 * n) := by
  obtain ⟨-, hpending, -, hvalue⟩ := h.packed (packed_pending hacc)
  rw [show r.work.wr.toNat - r'.work.wr.toNat = n by have := h.wr; omega] at hvalue
  have hlt := numberBE_lt r'.mem r'.work.wr.toNat n
  refine ⟨hpending, ?_, ?_⟩
  · rw [hvalue, Nat.mul_comm, Nat.mul_add_div (Nat.two_pow_pos _), Nat.div_eq_of_lt hlt, Nat.add_zero]
  · rw [hvalue, Nat.mul_add_mod_self_right, Nat.mod_eq_of_lt hlt]

/-- Settles O44: a flush moves the low bytes of `ACC` below the ones written before, and keeps all bits. -/
theorem flushLeavesAtMostSevenBits : Obligations.FlushLeavesAtMostSevenBits := by
  refine ⟨fun v n r hn hacc hcap => ?_, fun base r r' _ hacc hflush => ?_⟩
  · obtain ⟨hvalue, hbitpos⟩ := emitBits_exact (v := v) hn hacc hcap
    exact ⟨hvalue, hbitpos, rfl, rfl, rfl⟩
  · have hflushed := flushBits_flushed hflush
    obtain ⟨hpending, hkept, hbytes⟩ := hflushed.bytes hacc
    obtain ⟨hbitpos, hwr, hx, hframe, -⟩ := hflushed
    refine ⟨by omega, hpending, hkept, hwr, hx, fun j hj => ?_, hframe⟩
    have hread := read_eq_of_numberBE r'.mem r'.work.wr.toNat (show r.work.bitpos.toNat / 8 - 1 - j < r.work.bitpos.toNat / 8 by omega)
    rw [hbytes, show r'.work.wr.toNat + (r.work.bitpos.toNat / 8 - 1 - j) = r.work.wr.toNat - 1 - j by omega,
      show r.work.bitpos.toNat / 8 - 1 - (r.work.bitpos.toNat / 8 - 1 - j) = j by omega, ofNat_mod_two_pow_div _ hj] at hread
    exact hread

end Sys2Proof.Machine
end

/-! ### The bit reader

`DACC` holds `DBITS` bits that are read but not used; a read of `k` bits pulls the bytes that are missing into its low end and takes the `k` most
significant bits (43 R198). -/

section
namespace Sys2Proof.Machine

variable {r r' r'' : Run} {tailEnd k n j held bits rd : Nat} {m m' : Memory}

/-! #### The numbers -/

/-- How many bytes are missing for `k` bits when `bits` are held. -/
def missingBytes (k bits : Nat) : Nat := (k - bits + 7) / 8

/-- How many bits are left when `k` are taken. -/
def bitsLeft (k bits : Nat) : Nat := bits + 8 * missingBytes k bits - k

/-- The held bits and behind them the `n` bytes from `rd`, first byte most significant. -/
def heldBits (m : Memory) (held rd n : Nat) : Nat := held * 2 ^ (8 * n) + numberBE m rd n

theorem missingBytes_le (hk : k ≤ 14) : missingBytes k bits ≤ 2 := by rw [missingBytes]; omega

/-- No more bytes are missing than hold the bits asked for. -/
theorem missingBytes_le_of_le (h : k ≤ bits + 8 * n) : missingBytes k bits ≤ n := by rw [missingBytes]; omega

theorem bitsLeft_add (k bits : Nat) : bitsLeft k bits + k = bits + 8 * missingBytes k bits := by rw [bitsLeft, missingBytes]; omega

theorem bitsLeft_le (hbits : bits ≤ 7) : bitsLeft k bits ≤ 7 := by rw [bitsLeft, missingBytes]; omega

theorem heldBits_lt (h : held < 2 ^ bits) : heldBits m held rd n < 2 ^ (bits + 8 * n) := by
  rw [heldBits, Nat.add_comm, Nat.add_comm bits]
  exact add_mul_two_pow_lt (numberBE_lt m rd n) h

theorem heldBits_congr (h : ∀ i < n, m'.read (rd + i) = m.read (rd + i)) : heldBits m' held rd n = heldBits m held rd n := by
  rw [heldBits, heldBits, numberBE_congr h]

/-- Bytes pulled in two portions are pulled in one. -/
theorem heldBits_add (m : Memory) (held rd n j : Nat) : heldBits m held rd (n + j) = heldBits m (heldBits m held rd n) (rd + n) j := by
  rw [heldBits, heldBits, heldBits, numberBE_add, Nat.mul_add, Nat.pow_add]; ring

/-- The bytes behind take no part in the most significant bits. -/
theorem heldBits_div (m : Memory) (held rd n j : Nat) : heldBits m held rd n / 2 ^ (j + 8 * n) = held / 2 ^ j := by
  rw [heldBits, Nat.add_comm j, Nat.pow_add, ← Nat.div_div_eq_div_mul, Nat.mul_comm, Nat.mul_add_div (Nat.two_pow_pos _),
    Nat.div_eq_of_lt (numberBE_lt m rd n), Nat.add_zero]

/-- Taking bits off the top leaves the bytes behind. -/
theorem heldBits_mod (m : Memory) (held rd n j : Nat) : heldBits m held rd n % 2 ^ (j + 8 * n) = heldBits m (held % 2 ^ j) rd n := by
  have hlt : heldBits m (held % 2 ^ j) rd n < 2 ^ (j + 8 * n) := heldBits_lt (Nat.mod_lt _ (Nat.two_pow_pos j))
  have hsplit : heldBits m held rd n = 2 ^ (j + 8 * n) * (held / 2 ^ j) + heldBits m (held % 2 ^ j) rd n := by
    rw [heldBits, heldBits, Nat.pow_add]
    nth_rw 1 [← Nat.div_add_mod held (2 ^ j)]
    ring
  rw [hsplit, Nat.mul_add_mod, Nat.mod_eq_of_lt hlt]

/-- Taking `k` bits off the top of all that is held and still to come: the missing bytes decide them, and what is left is the bits left over
and the bytes behind. -/
theorem heldBits_take (m : Memory) (held rd : Nat) (h : missingBytes k bits ≤ n) :
    let all := heldBits m held rd (missingBytes k bits)
    let rest := n - missingBytes k bits
    heldBits m held rd n / 2 ^ (bitsLeft k bits + 8 * rest) = all / 2 ^ bitsLeft k bits
      ∧ heldBits m held rd n % 2 ^ (bitsLeft k bits + 8 * rest)
        = heldBits m (all % 2 ^ bitsLeft k bits) (rd + missingBytes k bits) rest := by
  intro all rest
  have hsplit : heldBits m held rd n = heldBits m all (rd + missingBytes k bits) rest := by
    rw [← heldBits_add]; congr 1; omega
  rw [hsplit]
  exact ⟨heldBits_div _ _ _ _ _, heldBits_mod _ _ _ _ _⟩

/-! #### The pulls -/

/-- `r'` is `r` after `n` bytes are pulled (43 R198). -/
structure Pulled (n : Nat) (r r' : Run) : Prop where
  dacc : r'.work.dacc.toNat = heldBits r.mem r.work.dacc.toNat r.work.rd.toNat n
  dbits : r'.work.dbits.toNat = r.work.dbits.toNat + 8 * n
  rd : r'.work.rd.toNat = r.work.rd.toNat + n
  x : r'.work.x = r.work.x
  mem : r'.mem = r.mem

theorem Pulled.refl (r : Run) : Pulled 0 r r := by
  refine ⟨?_, rfl, rfl, rfl, rfl⟩
  rw [heldBits, numberBE, Nat.mul_zero, Nat.pow_zero, Nat.mul_one, Nat.add_zero]

theorem Pulled.trans (h : Pulled n r r') (h' : Pulled j r' r'') : Pulled (n + j) r r'' := by
  obtain ⟨hdacc, hdbits, hrd, hx, hmem⟩ := h
  obtain ⟨hdacc', hdbits', hrd', hx', hmem'⟩ := h'
  refine ⟨?_, by omega, by omega, hx'.trans hx, hmem'.trans hmem⟩
  rw [hdacc', hdacc, hrd, hmem, heldBits_add]

theorem Pulled.dacc_lt (h : Pulled n r r') (hacc : r.work.dacc.toNat < 2 ^ r.work.dbits.toNat) :
    r'.work.dacc.toNat < 2 ^ r'.work.dbits.toNat := by
  rw [h.dacc, h.dbits]; exact heldBits_lt hacc

theorem pullByte_stops (hend : tailEnd ≤ r.work.rd.toNat) : pullByte tailEnd r = .error .invalidLength := if_pos hend

/-- Inside the tail a byte comes in, and with 56 bits held at most nothing is lost. -/
theorem pullByte_pulls (hfits : tailEnd < 2 ^ 33) (hacc : r.work.dacc.toNat < 2 ^ r.work.dbits.toNat) (hcap : r.work.dbits.toNat + 8 ≤ 64)
    (hend : r.work.rd.toNat < tailEnd) : ∃ r', pullByte tailEnd r = .ok r' ∧ Pulled 1 r r' := by
  obtain ⟨r', hr'⟩ : ∃ r', pullByte tailEnd r = .ok r' := ⟨_, if_neg (Nat.not_le.mpr hend)⟩
  obtain ⟨-, hform⟩ := pullByte_ok hr'
  have hlt : heldBits r.mem r.work.dacc.toNat r.work.rd.toNat 1 < 2 ^ 64 :=
    (heldBits_lt hacc).trans_le (Nat.pow_le_pow_right (by decide) hcap)
  have hnew : (r.work.dacc.toNat <<< 8) + (r.mem.read r.work.rd.toNat).toNat = heldBits r.mem r.work.dacc.toNat r.work.rd.toNat 1 := by
    rw [Nat.shiftLeft_eq, heldBits, numberBE, numberBE, Nat.mul_zero, Nat.zero_add]; rfl
  refine ⟨r', hr', ?_, ?_, ?_, by rw [hform], by rw [hform]⟩ <;> rw [hform, BitVec.toNat_ofNat]
  · rw [hnew, Nat.mod_eq_of_lt hlt]
  · exact Nat.mod_eq_of_lt (by omega)
  · exact Nat.mod_eq_of_lt (by omega)

theorem pullBytes_succ (tailEnd n : Nat) (r : Run) : pullBytes tailEnd (n + 1) r = pullByte tailEnd r >>= pullBytes tailEnd n := rfl

theorem pullBytes_stops (hfits : tailEnd < 2 ^ 33) : ∀ (n : Nat) {r : Run}, 0 < n → tailEnd < r.work.rd.toNat + n →
    r.work.dacc.toNat < 2 ^ r.work.dbits.toNat → r.work.dbits.toNat + 8 * n ≤ 64 → pullBytes tailEnd n r = .error .invalidLength
  | 0, _, hpos, _, _, _ => absurd hpos (Nat.lt_irrefl 0)
  | n + 1, r, _, hend, hacc, hcap => by
    rw [pullBytes_succ]
    obtain hin | hout := Nat.lt_or_ge r.work.rd.toNat tailEnd
    · obtain ⟨a, ha, hfirst⟩ := pullByte_pulls hfits hacc (by omega) hin
      have hdbits := hfirst.dbits
      have hrd := hfirst.rd
      rw [ha]
      exact pullBytes_stops hfits n (by omega) (by omega) (hfirst.dacc_lt hacc) (by omega)
    · rw [pullByte_stops hout]; rfl

theorem pullBytes_pulls (hfits : tailEnd < 2 ^ 33) : ∀ (n : Nat) {r : Run}, ¬ (0 < n ∧ tailEnd < r.work.rd.toNat + n) →
    r.work.dacc.toNat < 2 ^ r.work.dbits.toNat → r.work.dbits.toNat + 8 * n ≤ 64 → ∃ r', pullBytes tailEnd n r = .ok r' ∧ Pulled n r r'
  | 0, r, _, _, _ => ⟨r, rfl, .refl r⟩
  | n + 1, r, hend, hacc, hcap => by
    obtain ⟨a, ha, hfirst⟩ := pullByte_pulls hfits hacc (by omega) (by omega)
    have hdbits := hfirst.dbits
    have hrd := hfirst.rd
    obtain ⟨r', hr', hrest⟩ := pullBytes_pulls hfits n (r := a) (by omega) (hfirst.dacc_lt hacc) (by omega)
    exact ⟨r', by rw [pullBytes_succ, ha]; exact hr', Nat.add_comm 1 n ▸ hfirst.trans hrest⟩

/-! #### The read -/

/-- A read of `k` bits stops when a byte it needs passes the end of the tail. -/
theorem readBits_stops (hfits : tailEnd < 2 ^ 33) (hk : k ≤ 14) (hbits : r.work.dbits.toNat ≤ 7)
    (hacc : r.work.dacc.toNat < 2 ^ r.work.dbits.toNat) (hpos : 0 < missingBytes k r.work.dbits.toNat)
    (hend : tailEnd < r.work.rd.toNat + missingBytes k r.work.dbits.toNat) : readBits tailEnd k r = .error .invalidLength := by
  have hcap := missingBytes_le (bits := r.work.dbits.toNat) hk
  have hstop := pullBytes_stops hfits _ hpos hend hacc (by omega)
  rw [missingBytes] at hstop
  rw [readBits, hstop]; rfl

/-- Else it gives the `k` most significant of the bits then held, and keeps the others. -/
theorem readBits_reads (hfits : tailEnd < 2 ^ 33) (hk : k ≤ 14) (hbits : r.work.dbits.toNat ≤ 7)
    (hacc : r.work.dacc.toNat < 2 ^ r.work.dbits.toNat)
    (hend : ¬ (0 < missingBytes k r.work.dbits.toNat ∧ tailEnd < r.work.rd.toNat + missingBytes k r.work.dbits.toNat)) :
    let all := heldBits r.mem r.work.dacc.toNat r.work.rd.toNat (missingBytes k r.work.dbits.toNat)
    let left := bitsLeft k r.work.dbits.toNat
    ∃ r', readBits tailEnd k r = .ok (all / 2 ^ left, r') ∧ r'.work.dacc.toNat = all % 2 ^ left ∧ r'.work.dbits.toNat = left
      ∧ r'.work.rd.toNat = r.work.rd.toNat + missingBytes k r.work.dbits.toNat ∧ r'.work.x = r.work.x ∧ r'.mem = r.mem := by
  intro all left
  have hcap := missingBytes_le (bits := r.work.dbits.toNat) hk
  have hadd : left + k = _ := bitsLeft_add k r.work.dbits.toNat
  have hleft : left ≤ 7 := bitsLeft_le hbits
  obtain ⟨a, ha, hdacc, hdbits, hrd, hx, hmem⟩ := pullBytes_pulls hfits _ hend hacc (by omega)
  have hall : all < 2 ^ (left + k) := hadd.symm ▸ heldBits_lt hacc
  have htop : all / 2 ^ left % 2 ^ k = all / 2 ^ left :=
    Nat.mod_eq_of_lt ((Nat.div_lt_iff_lt_mul (Nat.two_pow_pos _)).mpr (by rwa [← Nat.pow_add, Nat.add_comm]))
  have hrest : all % 2 ^ left < 2 ^ 64 :=
    (Nat.mod_lt _ (Nat.two_pow_pos _)).trans_le (Nat.pow_le_pow_right (by decide) (by omega))
  have hvalue : (a.work.dacc.toNat >>> (a.work.dbits.toNat - k)) &&& bitmask k = all / 2 ^ left := by
    rw [and_bitmask _ (by omega), low, Nat.shiftRight_eq_div_pow, hdacc, show a.work.dbits.toNat - k = left by omega, htop]
  rw [missingBytes] at ha
  refine ⟨{ a with work := { a.work with dbits := BitVec.ofNat 7 (a.work.dbits.toNat - k),
                                         dacc := BitVec.ofNat 64 (low a.work.dacc.toNat (a.work.dbits.toNat - k)) } },
    ?_, ?_, ?_, hrd, hx, hmem⟩
  · rw [readBits, ha, ← hvalue]; rfl
  · show (BitVec.ofNat 64 (low a.work.dacc.toNat (a.work.dbits.toNat - k))).toNat = _
    rw [low, hdacc, show a.work.dbits.toNat - k = left by omega, BitVec.toNat_ofNat, Nat.mod_eq_of_lt hrest]
  · show (BitVec.ofNat 7 (a.work.dbits.toNat - k)).toNat = _
    rw [BitVec.toNat_ofNat, Nat.mod_eq_of_lt (by omega)]; omega

end Sys2Proof.Machine
end

/-! ### The decoder of the fixed-accuracy codec

A decode step writes the symbol its state names, updates the state, and shifts in as many bits as bring it back to 18 (43 R199). What it holds of
the tail between steps is said here on numbers alone, and then of a run. -/

section
namespace Sys2Proof.Machine

/-! #### What a step makes of the tail -/

/-- Where the decoder stands: its state, the bits it has read but not used, how many they are, and the place of the next byte. -/
structure FaReader where
  x : Nat
  held : Nat
  bits : Nat
  rd : Nat

variable {s : State} {m m' : Memory} {h : FaReader} {n x : Nat}

/-- How many bits a decode step shifts in (43 R199). -/
def State.faRefill (s : State) (x : Nat) : Nat := 18 - bitWidth (s.decodedState x)

/-- Where the decoder stands after a step that reads the bytes of `m`. -/
def State.faNext (s : State) (m : Memory) (h : FaReader) : FaReader :=
  let all := heldBits m h.held h.rd (missingBytes (s.faRefill h.x) h.bits)
  let left := bitsLeft (s.faRefill h.x) h.bits
  { x := s.decodedState h.x * 2 ^ s.faRefill h.x + all / 2 ^ left
    held := all % 2 ^ left
    bits := left
    rd := h.rd + missingBytes (s.faRefill h.x) h.bits }

theorem faNext_rd (s : State) (m : Memory) (h : FaReader) : (s.faNext m h).rd = h.rd + missingBytes (s.faRefill h.x) h.bits := rfl

/-- The symbols of the rest of the tail (43 R198, R199). -/
def State.faSymbols (s : State) (n : Nat) (h : FaReader) : Option (List Byte) := s.faDecoded n h.x h.held h.bits h.rd

theorem faSymbols_succ (s : State) (n : Nat) (h : FaReader) : s.faSymbols (n + 1) h =
    if s.srcEnd < (s.faNext s.mem h).rd then none else (s.faSymbols n (s.faNext s.mem h)).map (s.invOf h.x :: ·) := rfl

theorem faSymbols_length {l : List Byte} : ∀ {n : Nat} {h : FaReader}, s.faSymbols n h = some l → l.length = n
  | 0, _, hl => by cases hl; rfl
  | n + 1, h, hl => by
    rw [faSymbols_succ] at hl
    split_ifs at hl
    obtain ⟨l', hl', rfl⟩ := Option.map_eq_some_iff.mp hl
    rw [List.length_cons, faSymbols_length hl']

/-- A step looks at the bytes it pulls and at no others. -/
theorem faNext_congr (hsame : ∀ a, h.rd ≤ a → a < (s.faNext m h).rd → m'.read a = m.read a) : s.faNext m' h = s.faNext m h := by
  have hall := heldBits_congr (m := m) (m' := m') (held := h.held) (rd := h.rd) (n := missingBytes (s.faRefill h.x) h.bits)
    fun i hi => hsame _ (Nat.le_add_right _ _) (Nat.add_lt_add_left hi _)
  rw [State.faNext, State.faNext, hall]

/-! #### The range of the state -/

/-- What holds between steps: the state is in its range, and at most 7 bits are left (43 R182, 10 R34). -/
structure FaReader.Ok (h : FaReader) : Prop where
  range : FaRange h.x
  held : h.held < 2 ^ h.bits
  bits : h.bits ≤ 7

/-- The update takes the state into the interval whose quotients are 8 to 15 (43 R200). -/
theorem State.IntervalsOk.decodedState_faRange (htab : s.IntervalsOk) (hx : FaRange x) : 8 ≤ s.decodedState x ∧ s.decodedState x < 2 ^ 18 := by
  obtain ⟨hlow, hhigh⟩ := htab.slot_mem x
  have hfit := htab.fits (s.invOf x)
  obtain ⟨hxlow, hxhigh⟩ := hx
  rw [htab.decodedState_eq]
  generalize (s.decOf (s.invOf x)).freq.toNat = f at *
  generalize (s.decOf (s.invOf x)).start.toNat = c at *
  constructor
  · calc 8 ≤ 1 * (x / 2 ^ 14) := by omega
      _ ≤ f * (x / 2 ^ 14) := Nat.mul_le_mul_right _ (by omega)
      _ ≤ f * (x / 2 ^ 14) + (x % 2 ^ 14 - c) := Nat.le_add_right _ _
  · calc f * (x / 2 ^ 14) + (x % 2 ^ 14 - c) < f * (x / 2 ^ 14 + 1) := by rw [Nat.mul_add, Nat.mul_one]; omega
      _ ≤ 2 ^ 14 * 2 ^ 4 := Nat.mul_le_mul (by omega) (by omega)

/-- A step shifts in at most 14 bits. -/
theorem State.IntervalsOk.faRefill_le (htab : s.IntervalsOk) (hx : FaRange x) : s.faRefill x ≤ 14 := by
  obtain ⟨hlow, -⟩ := htab.decodedState_faRange hx
  have hwidth : 3 < bitWidth (s.decodedState x) := by
    by_contra hle
    have hlt := lt_two_pow_bitWidth (s.decodedState x)
    have hpow : 2 ^ bitWidth (s.decodedState x) ≤ 2 ^ 3 := Nat.pow_le_pow_right (by decide) (by omega)
    omega
  rw [State.faRefill]; omega

/-- Filling a number up to 18 bits gives a state in the range (43 R200). -/
theorem faRange_of_refilled {y v : Nat} (hy : y ≠ 0) (hlt : y < 2 ^ 18) (hv : v < 2 ^ (18 - bitWidth y)) :
    FaRange (y * 2 ^ (18 - bitWidth y) + v) := by
  have hwidth : bitWidth y ≤ 18 := bitWidth_le hlt
  have hquot : (y * 2 ^ (18 - bitWidth y) + v) / 2 ^ (18 - bitWidth y) = y := by
    rw [Nat.mul_comm, Nat.mul_add_div (Nat.two_pow_pos _), Nat.div_eq_of_lt hv, Nat.add_zero]
  rw [faRange_iff_bitWidth, bitWidth_eq_add_of_div (hquot.symm ▸ hy), hquot]
  omega

theorem faNext_ok (htab : s.IntervalsOk) (m : Memory) (hok : h.Ok) : (s.faNext m h).Ok ∧ (s.faNext m h).rd ≤ h.rd + 2 := by
  obtain ⟨hx, hheld, hbits⟩ := hok
  obtain ⟨hlow, hhigh⟩ := htab.decodedState_faRange hx
  have hadd := bitsLeft_add (s.faRefill h.x) h.bits
  have hall := heldBits_lt (m := m) (rd := h.rd) (n := missingBytes (s.faRefill h.x) h.bits) hheld
  have htop : heldBits m h.held h.rd (missingBytes (s.faRefill h.x) h.bits) / 2 ^ bitsLeft (s.faRefill h.x) h.bits < 2 ^ s.faRefill h.x := by
    rwa [Nat.div_lt_iff_lt_mul (Nat.two_pow_pos _), ← Nat.pow_add, Nat.add_comm, hadd]
  exact ⟨⟨faRange_of_refilled (by omega) hhigh htop, Nat.mod_lt _ (Nat.two_pow_pos _), bitsLeft_le hbits⟩,
    Nat.add_le_add_left (missingBytes_le (htab.faRefill_le hx)) _⟩

/-- A step pulls at most two bytes, so with two for each symbol none is missing. -/
theorem faSymbols_some (htab : s.IntervalsOk) : ∀ (n : Nat) {h : FaReader}, h.Ok → h.rd + 2 * n ≤ s.srcEnd →
    ∃ l, s.faSymbols n h = some l ∧ (0 < n → l.getD 0 0 = s.invOf h.x)
  | 0, _, _, _ => ⟨[], rfl, nofun⟩
  | n + 1, h, hok, hend => by
    obtain ⟨hok', hrd⟩ := faNext_ok htab s.mem hok
    obtain ⟨l, hl, -⟩ := faSymbols_some htab n hok' (by omega)
    refine ⟨s.invOf h.x :: l, ?_, fun _ => rfl⟩
    rw [faSymbols_succ, if_neg (by omega), hl]; rfl

/-! #### A step of a run -/

variable {r r' : Run} {i : Nat}

/-- Where a run stands. -/
def Run.reader (r : Run) : FaReader :=
  { x := r.work.x.toNat, held := r.work.dacc.toNat, bits := r.work.dbits.toNat, rd := r.work.rd.toNat }

@[simp] theorem Run.setIdx_reader (r : Run) (i : Nat) : (r.setIdx i).reader = r.reader := rfl

theorem State.srcEnd_lt (s : State) : s.srcEnd < 2 ^ 33 := by
  have ha := s.aSrc.isLt
  have hn := s.nSrc.isLt
  rw [State.srcEnd]; omega

/-- A step is the update, the read, and the shift of the bits read into the state (43 R199). -/
theorem faDecStep_eq (htab : s.IntervalsOk) (i : Nat) (r : Run) : faDecStep s i r =
    (readBits s.srcEnd (s.faRefill r.reader.x) (s.decodeSymbol i r) >>= fun p =>
      pure (p.2.setX ((s.decodedState r.reader.x <<< s.faRefill r.reader.x) + p.1))) := by
  rw [State.faRefill, Run.reader, ← htab.decodeSymbol_toNat i r]; rfl

/-- A step needs a byte past the end of the tail. -/
def State.FaStarved (s : State) (h : FaReader) : Prop :=
  0 < missingBytes (s.faRefill h.x) h.bits ∧ s.srcEnd < h.rd + missingBytes (s.faRefill h.x) h.bits

/-- Inside the tail a step is starved when its next place is outside. -/
theorem faStarved_iff (hin : h.rd ≤ s.srcEnd) (m : Memory) : s.FaStarved h ↔ s.srcEnd < (s.faNext m h).rd := by
  rw [State.FaStarved, faNext_rd]; omega

theorem faDecStep_stops (htab : s.IntervalsOk) (hok : r.reader.Ok) (i : Nat) (hstarved : s.FaStarved r.reader) :
    faDecStep s i r = .error .invalidLength := by
  obtain ⟨hx, hheld, hbits⟩ := hok
  obtain ⟨hpos, hend⟩ := hstarved
  rw [faDecStep_eq htab, readBits_stops (r := s.decodeSymbol i r) s.srcEnd_lt (htab.faRefill_le hx) hbits hheld hpos hend]; rfl

/-- A step that is not starved leaves the run where `faNext` says. -/
theorem faDecStep_steps (htab : s.IntervalsOk) (hok : r.reader.Ok) (i : Nat) (hfed : ¬ s.FaStarved r.reader) :
    ∃ r', faDecStep s i r = .ok r' ∧ r'.reader = s.faNext (s.decodeSymbol i r).mem r.reader := by
  have hnext := (faNext_ok htab (s.decodeSymbol i r).mem hok).1.range
  obtain ⟨hx, hheld, hbits⟩ := hok
  obtain ⟨a, ha, hdacc, hdbits, hrd, -, -⟩ :=
    readBits_reads (r := s.decodeSymbol i r) s.srcEnd_lt (htab.faRefill_le hx) hbits hheld hfed
  refine ⟨_, by rw [faDecStep_eq htab, ha]; rfl, ?_⟩
  have hvalue : (BitVec.ofNat 64 (s.faNext (s.decodeSymbol i r).mem r.reader).x).toNat = (s.faNext (s.decodeSymbol i r).mem r.reader).x := by
    rw [BitVec.toNat_ofNat, Nat.mod_eq_of_lt (hnext.2.trans (by decide))]
  rw [Run.reader, Run.setX_x, Run.setX_dacc, Run.setX_dbits, Run.setX_rd, hdacc, hdbits, hrd, Nat.shiftLeft_eq]
  exact congrArg (fun v => ({ s.faNext (s.decodeSymbol i r).mem r.reader with x := v } : FaReader)) hvalue

/-- A step without error keeps the range of the state and leaves at most 7 bits (43 R182, R200). -/
theorem faDecStep_keeps (htab : s.IntervalsOk) (hok : r.reader.Ok) (h : faDecStep s i r = .ok r') : r'.reader.Ok := by
  by_cases hstarved : s.FaStarved r.reader
  · rw [faDecStep_stops htab hok i hstarved] at h; cases h
  · obtain ⟨a, ha, hreader⟩ := faDecStep_steps htab hok i hstarved
    rw [ha] at h; cases h
    exact hreader ▸ (faNext_ok htab _ hok).1

/-! #### The terminal word -/

theorem readBE4_eq (m : Memory) (a : Nat) : readBE4 m a = numberBE m a 4 := by
  simp only [readBE4, numberBE, Nat.add_zero]; ring

theorem readState_short (h : s.nSrc.toNat < 4) : s.readState = .error .invalidLength :=
  if_pos (by rw [State.srcEnd]; omega)

theorem readState_malformed (hlen : 4 ≤ s.nSrc.toNat)
    (hw : bitWidth (readBE4 s.mem s.aSrc.toNat) < 18 ∨ 25 < bitWidth (readBE4 s.mem s.aSrc.toNat)) :
    s.readState = .error .malformedStream :=
  (if_neg (by rw [State.srcEnd]; omega)).trans (if_pos hw)

/-- Where the decoder stands after a terminal word with `p` bits below the state (43 R197). -/
def State.faHead (s : State) (p : Nat) : FaReader :=
  { x := readBE4 s.mem s.aSrc.toNat / 2 ^ p, held := readBE4 s.mem s.aSrc.toNat % 2 ^ p, bits := p, rd := s.aSrc.toNat + 4 }

theorem faHead_ok {p : Nat} (hp : p ≤ 7) (hw : bitWidth (readBE4 s.mem s.aSrc.toNat) = 18 + p) : (s.faHead p).Ok := by
  have hwidth := bitWidth_eq_add_of_div (div_two_pow_ne_zero (show p < bitWidth (readBE4 s.mem s.aSrc.toNat) by omega))
  exact ⟨faRange_iff_bitWidth.mpr (show bitWidth (readBE4 s.mem s.aSrc.toNat / 2 ^ p) = 18 by omega),
    Nat.mod_lt _ (Nat.two_pow_pos p), hp⟩

/-- A possible terminal word gives the state and the bits below it (43 R197). -/
theorem readState_reads {p : Nat} (hlen : 4 ≤ s.nSrc.toNat) (hp : p ≤ 7) (hw : bitWidth (readBE4 s.mem s.aSrc.toNat) = 18 + p) :
    ∃ r, s.readState = .ok r ∧ r.reader = s.faHead p ∧ r.mem = s.mem := by
  have ha := s.aSrc.isLt
  obtain ⟨hrange, hheld, -⟩ := faHead_ok hp hw
  have hlow : (s.faHead p).held < 2 ^ 64 := hheld.trans_le (Nat.pow_le_pow_right (by decide) (show p ≤ 64 by omega))
  have hpwidth : bitWidth (readBE4 s.mem s.aSrc.toNat) - 18 = p := by omega
  refine ⟨_, (if_neg (by rw [State.srcEnd]; omega)).trans (if_neg (by omega)), ?_, rfl⟩
  simp only [Run.reader, hpwidth, BitVec.toNat_ofNat, Nat.shiftRight_eq_div_pow, low]
  rw [State.faHead, FaReader.mk.injEq]
  exact ⟨Nat.mod_eq_of_lt (hrange.2.trans (by decide)), Nat.mod_eq_of_lt hlow, Nat.mod_eq_of_lt (by omega), Nat.mod_eq_of_lt (by omega)⟩

/-- The terminal word is read in one of three ways: it is cut off, it is none, or it gives a state. -/
theorem readState_cases (s : State) :
    (s.nSrc.toNat < 4 ∧ s.readState = .error .invalidLength)
      ∨ (4 ≤ s.nSrc.toNat ∧ (bitWidth (readBE4 s.mem s.aSrc.toNat) < 18 ∨ 25 < bitWidth (readBE4 s.mem s.aSrc.toNat))
        ∧ s.readState = .error .malformedStream)
      ∨ (4 ≤ s.nSrc.toNat ∧ ∃ p ≤ 7, bitWidth (readBE4 s.mem s.aSrc.toNat) = 18 + p
        ∧ ∃ r, s.readState = .ok r ∧ r.reader = s.faHead p ∧ r.mem = s.mem) := by
  obtain hshort | hlen := Nat.lt_or_ge s.nSrc.toNat 4
  · exact .inl ⟨hshort, readState_short hshort⟩
  · by_cases hw : bitWidth (readBE4 s.mem s.aSrc.toNat) < 18 ∨ 25 < bitWidth (readBE4 s.mem s.aSrc.toNat)
    · exact .inr (.inl ⟨hlen, hw, readState_malformed hlen hw⟩)
    · obtain ⟨p, hp⟩ := Nat.exists_eq_add_of_le (show 18 ≤ bitWidth (readBE4 s.mem s.aSrc.toNat) by omega)
      exact .inr (.inr ⟨hlen, p, by omega, hp, readState_reads hlen (by omega) hp⟩)

/-- Settles O45: a read pulls the missing bytes and takes the top bits, and the bits a step shifts in bring the state back to 18 bits. -/
theorem faDecoderStateStaysInRange : Obligations.FaDecoderStateStaysInRange := by
  refine ⟨fun tailEnd k r hfits hk hbits hacc => ?_, fun s htab => ⟨fun r hr => ?_, fun i r r' hgood hstep => ?_⟩⟩
  · intro m bits left
    split_ifs with hend
    · exact readBits_stops (by omega) hk hbits hacc hend.1 hend.2
    · exact readBits_reads (by omega) hk hbits hacc hend
  · obtain ⟨-, h⟩ | ⟨-, -, h⟩ | ⟨-, p, hp, hw, a, ha, hreader, -⟩ := readState_cases s
    · rw [h] at hr; cases hr
    · rw [h] at hr; cases hr
    · rw [ha] at hr; cases hr
      obtain ⟨⟨hlow, hhigh⟩, hheld, hbits⟩ := hreader ▸ faHead_ok hp hw
      exact ⟨hlow, hhigh, hheld, hbits⟩
  · obtain ⟨hlow, hhigh, hheld, hbits⟩ := hgood
    obtain ⟨⟨hlow', hhigh'⟩, hheld', hbits'⟩ := faDecStep_keeps (r := r) htab ⟨⟨hlow, hhigh⟩, hheld, hbits⟩ hstep
    exact ⟨hlow', hhigh', hheld', hbits'⟩

/-! #### The loop -/

/-- The output rises: a loop whose step changes memory by the symbol it writes leaves what stands below its position. -/
theorem decLoop_keeps_lower {step : Nat → Run → Except ErrorCode Run}
    (hstep : ∀ i r r', step i r = .ok r' → r'.mem = (s.decodeSymbol i r).mem) (hloop : decLoop step n i r = .ok r') {a : Nat} (ha : a < s.aBuf.toNat + i) : r'.mem.read a = r.mem.read a := by
  refine decLoop_keeps (fun q => q.mem.read a = r.mem.read a) (fun _ _ hq => hq) i (i + n) (fun j q q' hj _ hq hq' => ?_)
    n i r r' (Nat.le_refl _) (Nat.le_refl _) rfl hloop
  rw [hstep j q q' hq', State.decodeSymbol_mem, Memory.read_write_ne _ _ (by omega), hq]

/-- The symbol of the first step of such a loop stays where it was written. -/
theorem decLoop_first_symbol {step : Nat → Run → Except ErrorCode Run}
    (hstep : ∀ i r r', step i r = .ok r' → r'.mem = (s.decodeSymbol i r).mem) (hloop : decLoop step (n + 1) i r = .ok r') : r'.mem.read (s.aBuf.toNat + i) = s.invOf r.work.x.toNat := by
  obtain ⟨a, ha, hrest⟩ := (bind_eq_ok _ _ _).mp hloop
  rw [decLoop_keeps_lower hstep hrest (by omega), hstep _ _ _ ha, State.decodeSymbol_mem, Memory.read_write_same]
  rfl

/-- The symbol written at a place of the destination changes nothing outside. -/
theorem State.WrittenInside.decodeSymbol (hr : s.WrittenInside r) (hi : i < s.nBuf.toNat) : s.WrittenInside (s.decodeSymbol i r) := by
  intro a ha
  rw [State.bufEnd] at ha
  rw [State.decodeSymbol_mem, Memory.read_write_ne _ _ (by omega)]
  exact hr a ha

/-- On a valid table set the decode loop writes what the rest of the tail says (43 R198, R199). -/
theorem decLoop_faSymbols (htab : s.IntervalsOk) (hreg : s.RegionsOk) : ∀ (n i : Nat) {r : Run}, i + n ≤ s.nBuf.toNat →
    s.WrittenInside r → s.aSrc.toNat ≤ r.reader.rd → r.reader.rd ≤ s.srcEnd → r.reader.Ok →
    s.DecodesTo i (s.faSymbols n r.reader) (decLoop (faDecStep s) n i r)
  | 0, _, r, _, _, _, _, _ => ⟨r, rfl, nofun⟩
  | n + 1, i, r, hi, hr, hlow, hin, hok => by
    rw [faSymbols_succ]
    split_ifs with hend
    · exact decLoop_of_step_error (faDecStep_stops (r := r.setIdx i) htab hok i ((faStarved_iff hin _).mpr hend))
    · have hwritten : s.WrittenInside (s.decodeSymbol i (r.setIdx i)) := State.WrittenInside.decodeSymbol (r := r.setIdx i) hr (by omega)
      obtain ⟨a, ha, hreader⟩ := faDecStep_steps (r := r.setIdx i) htab hok i (fun h => hend ((faStarved_iff hin _).mp h))
      rw [Run.setIdx_reader] at hreader
      have hnext : a.reader = s.faNext s.mem r.reader :=
        hreader.trans (faNext_congr fun b hb hb' => hwritten.read_source hreg (hlow.trans hb) (by omega))
      have hmem := faDecStep_mem ha
      refine State.DecodesTo.cons ?_ fun r' => decLoop_first_symbol fun _ _ _ => faDecStep_mem
      rw [← hnext, decLoop_of_step ha]
      exact decLoop_faSymbols htab hreg n (i + 1) (by omega) (fun b hb => hmem ▸ hwritten b hb)
        (hlow.trans (hnext ▸ Nat.le_add_right _ _)) (hnext ▸ Nat.le_of_not_lt hend) (hnext ▸ (faNext_ok htab s.mem hok).1)

/-! #### The command -/

theorem faDecode_of_head (h : s.readState = .ok r) : s.faDecode = decLoop (faDecStep s) s.nBuf.toNat 0 r := by
  rw [State.faDecode, h]; rfl

theorem faDecode_of_head_error {e : ErrorCode} (h : s.readState = .error e) : s.faDecode = .error e := by
  rw [State.faDecode, h]; rfl

/-- The one error of a decode step (60 R233). -/
theorem faDecStep_error {e : ErrorCode} (h : faDecStep s i r = .error e) : e = .invalidLength := by
  unfold faDecStep readBits at h
  simp only at h
  generalize hpull : pullBytes s.srcEnd _ (s.decodeSymbol i r) = o at h
  cases o with
  | ok a => cases h
  | error e' => cases h; exact pullBytes_error hpull

/-- After a possible terminal word on a valid table set `DEC.FA` writes the symbols of the tail. -/
theorem faDecode_decodesTo {p : Nat} (htab : s.IntervalsOk) (hreg : s.RegionsOk) (hlen : 4 ≤ s.nSrc.toNat) (hp : p ≤ 7)
    (hw : bitWidth (readBE4 s.mem s.aSrc.toNat) = 18 + p) : s.DecodesTo 0 (s.faSymbols s.nBuf.toNat (s.faHead p)) s.faDecode := by
  obtain ⟨r, hr, hreader, hmem⟩ := readState_reads hlen hp hw
  have hrd : r.reader.rd = s.aSrc.toNat + 4 := by rw [hreader]; rfl
  rw [faDecode_of_head hr, ← hreader]
  exact decLoop_faSymbols htab hreg _ 0 (by omega) (fun a _ => by rw [hmem]) (by omega) (by rw [hrd, State.srcEnd]; omega)
    (hreader ▸ faHead_ok hp hw)

theorem exec_decFa (hv : s.tvar = .fa) (hreg : s.RegionsOk) : exec .decFa s = .next (s.finishDecode s.faDecode) :=
  exec_of_ready (i := .decFa) hreg hv

/-- Settles O54: each of the `N_BUF` steps pulls at most two bytes, so a tail of 4 + 2 * `N_BUF` bytes suffices. -/
theorem decFaCompletes : Obligations.DecFaCompletes := by
  intro s hv htabs hreg hlen hlow hhigh
  have htab : s.IntervalsOk := (htabs.faTables hv).1
  obtain ⟨p, hp⟩ := Nat.exists_eq_add_of_le hlow
  obtain ⟨l, hl, hfirst⟩ := faSymbols_some htab s.nBuf.toNat (faHead_ok (by omega) hp) (by
    show s.aSrc.toNat + 4 + 2 * s.nBuf.toNat ≤ s.srcEnd
    rw [State.srcEnd]; omega)
  obtain ⟨-, hsome⟩ := finishDecode_decodesTo (faDecode_decodesTo htab hreg (by omega) (by omega) hp)
  obtain ⟨hended, hread⟩ := hsome l hl
  obtain ⟨⟨hin, hstat, htables⟩, hout⟩ := finishDecode_frame (s := s) fun _ => faDecode_writtenInside
  refine ⟨_, exec_decFa hv hreg, hended, fun hpos => ?_, hin, hstat, htables, hout⟩
  rw [show bitWidth (readBE4 s.mem s.aSrc.toNat) - 18 = p by omega]
  exact (hread 0 (by rwa [faSymbols_length hl])).trans (hfirst hpos)

/-- A run of the loop ends without error or with `InvalidLength`. -/
theorem finishDecode_faLoop (s : State) (n i : Nat) (r : Run) :
    EndedWith (s.finishDecode (decLoop (faDecStep s) n i r)) .none
      ∨ EndedWith (s.finishDecode (decLoop (faDecStep s) n i r)) .invalidLength := by
  cases hloop : decLoop (faDecStep s) n i r with
  | ok r' => exact .inl (finishDecode_ok s r').1
  | error e =>
    have he := decLoop_error (· = .invalidLength) (fun _ _ _ => faDecStep_error) _ _ _ _ hloop
    exact .inr (he ▸ finishDecode_error s e)

/-- A command ends in one way only. -/
theorem EndedWith.unique {t : State} {e e' : ErrorCode} (h : EndedWith t e) (h' : EndedWith t e') : e = e' := h.1.symm.trans h'.1

/-- Settles O56: the three ways to read the terminal word, and the loop against the plain reading of the tail. -/
theorem faDecoderErrors : Obligations.FaDecoderErrors := by
  intro s hv hreg
  refine ⟨_, exec_decFa hv hreg, ?_⟩
  obtain ⟨hshort, hhead⟩ | ⟨hlen, hw, hhead⟩ | ⟨hlen, p, hp, hw, r, hhead, -⟩ := readState_cases s
  · have hended : EndedWith (s.finishDecode s.faDecode) .invalidLength := faDecode_of_head_error hhead ▸ finishDecode_error s _
    exact ⟨.inr (.inl hended), fun _ => hended, fun hlen => by omega, fun _ hlen => by omega⟩
  · have hended : EndedWith (s.finishDecode s.faDecode) .malformedStream := faDecode_of_head_error hhead ▸ finishDecode_error s _
    exact ⟨.inr (.inr hended), fun hshort => by omega, fun _ => iff_of_true hended hw, fun _ _ p hp hp' => by omega⟩
  · have hended := faDecode_of_head hhead ▸ finishDecode_faLoop s s.nBuf.toNat 0 r
    refine ⟨hended.imp_right .inl, fun hshort => by omega, fun _ => iff_of_false (fun hbad => ?_) (by omega), fun htab _ q hq hw' => ?_⟩
    · obtain hnone | hlength := hended
      · cases hnone.unique hbad
      · cases hlength.unique hbad
    · obtain ⟨hnone, hsome⟩ := finishDecode_decodesTo (faDecode_decodesTo htab hreg hlen hq hw')
      split
      · next hl => exact hnone hl
      · next l hl =>
        obtain ⟨hended, hread⟩ := hsome l hl
        exact ⟨hended, fun j hj => hread j (by rwa [faSymbols_length (h := s.faHead q) hl])⟩

end Sys2Proof.Machine
end

/-! ### The fixed-accuracy encoder completes -/

section
namespace Sys2Proof.Machine

variable {s : State} {l : List Byte} {r r' : Run} {k i : Nat}

/-- A symbol emits at most 14 bits (43 R194). -/
theorem faStream_bits_le (s : State) : ∀ {l : List Byte}, s.Coded l → (s.faStream l).bits ≤ 14 * l.length
  | [], _ => Nat.zero_le _
  | b :: l, h => by
    obtain ⟨hb, hl⟩ := coded_cons.mp h
    have hshift := faShiftOf_le (s.symFreq b) (s.faStream l).x (Nat.pos_of_ne_zero hb)
    have hrest := faStream_bits_le s hl
    rw [faStream_cons, List.length_cons]
    show (s.faStream l).bits + faShiftOf (s.symFreq b) (s.faStream l).x ≤ _
    omega

/-- The symbols behind a position emit no more than the whole sequence. -/
theorem faStream_bits_append (s : State) (l : List Byte) : ∀ l' : List Byte, (s.faStream l).bits ≤ (s.faStream (l' ++ l)).bits
  | [] => Nat.le_refl _
  | b :: l' => (faStream_bits_append s l l').trans (by rw [List.cons_append, faStream_cons]; exact Nat.le_add_right _ _)

theorem faStream_bits_drop (s : State) (l : List Byte) (i : Nat) : (s.faStream (l.drop i)).bits ≤ (s.faStream l).bits := by
  have := faStream_bits_append s (l.drop i) (l.take i)
  rwa [List.take_append_drop] at this

/-- A coded symbol is encoded (43 R191). -/
theorem faEncStep_encodes (htab : s.FaTables) (hreg : s.RegionsOk) (hcoded : s.SymbolsCoded) (hi : i < s.nSrc.toNat)
    (h : s.FaEncoded (s.sourceBytes.drop (i + 1)) k r) (hk : k ≤ 50) :
    ∃ r', faEncStep s (r.mem.read (s.aSrc.toNat + i)) r = .ok r' ∧ s.FaEncoded (s.sourceBytes.drop i) (k + 14) r' := by
  have hread : r.mem.read (s.aSrc.toNat + i) = s.mem.read (s.aSrc.toNat + i) :=
    h.inside.inside.read_source hreg (by omega) (by rw [State.srcEnd]; omega)
  have hmem : s.mem.read (s.aSrc.toNat + i) ∈ s.sourceBytes := List.mem_of_mem_drop (sourceBytes_drop s hi ▸ List.mem_cons_self)
  obtain ⟨hzero, -⟩ | ⟨-, hstep⟩ := faEncStep_cases s (r.mem.read (s.aSrc.toNat + i)) r
  · exact absurd (by rw [State.symFreq, ← hread, hzero]; rfl) (hcoded _ hmem)
  · exact ⟨_, hstep, faEncStep_at htab hreg hi h hk hstep⟩

/-- A flush is not stopped while the bytes of the stream fit the destination (60 R232). -/
theorem flushBits_flushes (h : s.FaEncoded l k r) (hroom : (s.faStream l).bits / 8 ≤ s.nBuf.toNat) :
    ∃ r', flushBits s.aBuf.toNat r = .ok r' ∧ s.FaEncoded l 7 r' := by
  have hcount := h.packed.count
  have hbelow := h.packed.below
  have hend : s.bufEnd = s.aBuf.toNat + s.nBuf.toNat := rfl
  obtain ⟨r', hr', -⟩ := flushBytes_flushes (base := s.aBuf.toNat) (r.work.bitpos.toNat / 8) (r := r) (by omega) (by omega)
  exact ⟨r', hr', flushBits_encoded h hr'⟩

/-- With coded symbols and room for its bytes the loop completes (43 R189, R190). -/
theorem faEncLoop_completes (htab : s.FaTables) (hreg : s.RegionsOk) (hcoded : s.SymbolsCoded)
    (hroom : (s.faStream s.sourceBytes).bits / 8 ≤ s.nBuf.toNat) : ∀ (n : Nat) {r : Run}, n ≤ s.nSrc.toNat →
    s.FaEncoded (s.sourceBytes.drop n) 7 r → ∃ r', faEncLoop s s.aSrc.toNat s.aBuf.toNat n r = .ok r' ∧ s.FaEncoded s.sourceBytes 7 r'
  | 0, _, _, hr => flushBits_flushes hr hroom
  | 1, _, hn, hr => by
    obtain ⟨a, ha, h₁⟩ := faEncStep_encodes htab hreg hcoded (i := 0) hn (hr.setIdx 1) (by decide)
    obtain ⟨r', hr', hlast⟩ := flushBits_flushes h₁ hroom
    exact ⟨r', (bind_eq_ok _ _ _).mpr ⟨a, ha, hr'⟩, hlast⟩
  | 2, _, hn, hr => by
    obtain ⟨a, ha, h₁⟩ := faEncStep_encodes htab hreg hcoded (i := 1) hn (hr.setIdx 2) (by decide)
    obtain ⟨b, hb, h₂⟩ := faEncStep_encodes htab hreg hcoded (i := 0) (by omega) (h₁.setIdx 1) (by decide)
    obtain ⟨r', hr', hlast⟩ := flushBits_flushes h₂ hroom
    exact ⟨r', (bind_eq_ok _ _ _).mpr ⟨a, ha, (bind_eq_ok _ _ _).mpr ⟨b, hb, hr'⟩⟩, hlast⟩
  | n + 3, _, hn, hr => by
    have hgroup : (s.faStream (s.sourceBytes.drop n)).bits / 8 ≤ s.nBuf.toNat := by
      have := faStream_bits_drop s s.sourceBytes n
      omega
    obtain ⟨a, ha, h₁⟩ := faEncStep_encodes htab hreg hcoded (i := n + 2) hn (hr.setIdx (n + 3)) (by decide)
    obtain ⟨b, hb, h₂⟩ := faEncStep_encodes htab hreg hcoded (i := n + 1) (by omega) h₁ (by decide)
    obtain ⟨c, hc, h₃⟩ := faEncStep_encodes htab hreg hcoded (i := n) (by omega) h₂ (by decide)
    obtain ⟨d, hd, h₄⟩ := flushBits_flushes h₃ hgroup
    obtain ⟨r', hr', hlast⟩ := faEncLoop_completes htab hreg hcoded hroom n (by omega) h₄
    exact ⟨r', (bind_eq_ok _ _ _).mpr ⟨a, ha, (bind_eq_ok _ _ _).mpr ⟨b, hb, (bind_eq_ok _ _ _).mpr ⟨c, hc,
      (bind_eq_ok _ _ _).mpr ⟨d, hd, hr'⟩⟩⟩⟩, hlast⟩

theorem faStart_encoded_drop (s : State) : s.FaEncoded (s.sourceBytes.drop s.nSrc.toNat) 7 s.faEncStart := by
  rw [sourceBytes_drop_all]
  exact { faStart_encoded s with pending := Nat.zero_le 7 }

/-- With coded symbols and a buffer that holds the stream `ENC.FA` completes (60 R232). -/
theorem faEncode_completes (htab : s.FaTables) (hreg : s.RegionsOk) (hcoded : s.SymbolsCoded)
    (hroom : 4 + (s.faStream s.sourceBytes).bits / 8 ≤ s.nBuf.toNat) : ∃ r, s.faEncode = .ok r := by
  obtain ⟨a, ha, h⟩ := faEncLoop_completes htab hreg hcoded (by omega) _ (Nat.le_refl _) (faStart_encoded_drop s)
  have hcount := h.packed.count
  have hbelow := h.packed.below
  have hpending := h.pending
  have hend : s.bufEnd = s.aBuf.toNat + s.nBuf.toNat := rfl
  obtain ⟨r, hr, -⟩ := terminalFlush_writes (base := s.aBuf.toNat) h.packed (h.x ▸ (faStream_range htab h.coded).2) hpending (by omega)
  exact ⟨r, (bind_eq_ok _ _ _).mpr ⟨a, ha, hr⟩⟩

/-- A run of `ENC.FA` without error has met no symbol of frequency 0 (60 R239). -/
theorem faEncode_coded (htab : s.FaTables) (hreg : s.RegionsOk) (h : s.faEncode = .ok r) : s.SymbolsCoded := by
  obtain ⟨a, hloop, -⟩ := (bind_eq_ok _ _ _).mp h
  exact (faEncLoop_encoded htab hreg _ (Nat.le_refl _) (faStart_encoded_drop s) hloop).coded

/-- Settles O47: n symbols emit at most 14n bits, so their stream of 4 + 1.75n bytes fits a buffer of 2n + 10. -/
theorem encFaCompletes : Obligations.EncFaCompletes := by
  intro s hv htabs hreg hcoded hroom
  have htab := htabs.faTables hv
  have hbits := faStream_bits_le s hcoded
  rw [sourceBytes_length] at hbits
  rw [State.BufferLargeEnough] at hroom
  obtain ⟨r, hr⟩ := faEncode_completes htab hreg hcoded (by omega)
  have hexec : exec .encFa s = .next (s.finishEncode (.ok r)) := hr ▸ exec_of_ready (i := .encFa) hreg hv
  obtain ⟨hlen, -⟩ := encodersWriteTheirStream.2 s _ htabs hexec rfl
  obtain ⟨hin, -, -, hsame, -, -, hlast⟩ := frameOfEveryCommand .encFa s _ hexec
  obtain ⟨hstat, htables⟩ := hsame rfl
  obtain ⟨-, houtside⟩ := hlast (by decide) rfl
  exact ⟨_, hexec, rfl, rfl, rfl, by omega, by omega, hin, hstat, htables, houtside⟩

end Sys2Proof.Machine
end

/-! ### Round trip of the fixed-accuracy codec

What the decoder holds between steps, the bits held and the bytes still to come, is as a number what the encoder has emitted for the symbols still to
come (43 R195, R201). -/

section
namespace Sys2Proof.Machine

variable {s t : State} {l : List Byte} {b : Byte} {h : FaReader}

theorem faStream_cons_x (s : State) (b : Byte) (l : List Byte) : (s.faStream (b :: l)).x =
    refUpdated (s.symFreq b) (s.encOf b).start.toNat ((s.faStream l).x / 2 ^ faShiftOf (s.symFreq b) (s.faStream l).x) := rfl

theorem faStream_cons_bits (s : State) (b : Byte) (l : List Byte) : (s.faStream (b :: l)).bits =
    (s.faStream l).bits + faShiftOf (s.symFreq b) (s.faStream l).x := rfl

theorem faStream_cons_emitted (s : State) (b : Byte) (l : List Byte) : (s.faStream (b :: l)).emitted =
    (s.faStream l).emitted + (s.faStream l).x % 2 ^ faShiftOf (s.symFreq b) (s.faStream l).x * 2 ^ (s.faStream l).bits := rfl

/-- The emitted bits are as many as the stream says. -/
theorem faStream_emitted_lt (s : State) : ∀ l : List Byte, (s.faStream l).emitted < 2 ^ (s.faStream l).bits
  | [] => Nat.one_pos
  | b :: l => by
    rw [faStream_cons_emitted, faStream_cons_bits]
    exact add_mul_two_pow_lt (faStream_emitted_lt s l) (Nat.mod_lt _ (Nat.two_pow_pos _))

/-- What stands above the emitted bits, and the emitted bits themselves. -/
theorem add_mul_two_pow_parts {e v n : Nat} (h : e < 2 ^ n) : (e + v * 2 ^ n) / 2 ^ n = v ∧ (e + v * 2 ^ n) % 2 ^ n = e := by
  rw [Nat.add_mul_div_right _ _ (Nat.two_pow_pos n), Nat.div_eq_of_lt h, Nat.zero_add, Nat.add_mul_mod_self_right, Nat.mod_eq_of_lt h]
  exact ⟨rfl, rfl⟩

/-- The decoder stands before the stream of the symbols `l`: their state, and their bits as the held ones and the bytes up to the end of the
tail. -/
structure State.FaRemains (s : State) (l : List Byte) (h : FaReader) : Prop where
  x : h.x = (s.faStream l).x
  inside : h.rd ≤ s.srcEnd
  bits : (s.faStream l).bits = h.bits + 8 * (s.srcEnd - h.rd)
  emitted : (s.faStream l).emitted = heldBits s.mem h.held h.rd (s.srcEnd - h.rd)

/-- The decode update gives back the shifted state, and so the decoder finds the encoder's shift (43 R185, R201). -/
theorem faUpdate_undone (htab : s.FaTables) (hcoded : s.Coded (b :: l)) :
    s.invOf (s.faStream (b :: l)).x = b
      ∧ s.decodedState (s.faStream (b :: l)).x = (s.faStream l).x / 2 ^ faShiftOf (s.symFreq b) (s.faStream l).x
      ∧ s.faRefill (s.faStream (b :: l)).x = faShiftOf (s.symFreq b) (s.faStream l).x := by
  obtain ⟨hb, hl⟩ := coded_cons.mp hcoded
  have hshift := faShiftOf_le (s.symFreq b) (s.faStream l).x (Nat.pos_of_ne_zero hb)
  have hwidth := (faStream_range htab hl).bitWidth_shifted (k := faShiftOf (s.symFreq b) (s.faStream l).x) (by omega)
  obtain ⟨hsym, hstate⟩ := htab.1.decodedState_refUpdated hb ((s.faStream l).x / 2 ^ faShiftOf (s.symFreq b) (s.faStream l).x)
  rw [State.faRefill, faStream_cons_x, hstate]
  exact ⟨hsym, rfl, by omega⟩

/-- One decode step undoes the last encode step: it names the symbol, and takes the bits the encoder shifted out off the top (43 R201). -/
theorem State.FaRemains.step (htab : s.FaTables) (hcoded : s.Coded (b :: l)) (hr : s.FaRemains (b :: l) h) :
    s.invOf h.x = b ∧ s.FaRemains l (s.faNext s.mem h) := by
  obtain ⟨hx, hin, hbits, hemitted⟩ := hr
  obtain ⟨hsym, hstate, hrefill⟩ := faUpdate_undone htab hcoded
  rw [← hx] at hsym hstate hrefill
  rw [faStream_cons_bits, ← hrefill] at hbits
  rw [faStream_cons_emitted, ← hrefill] at hemitted
  have hadd := bitsLeft_add (s.faRefill h.x) h.bits
  have hmissing : missingBytes (s.faRefill h.x) h.bits ≤ s.srcEnd - h.rd := missingBytes_le_of_le (by omega)
  have hrd := faNext_rd s s.mem h
  have hrest : s.srcEnd - h.rd - missingBytes (s.faRefill h.x) h.bits = s.srcEnd - (s.faNext s.mem h).rd := by omega
  have hleft : (s.faStream l).bits = bitsLeft (s.faRefill h.x) h.bits + 8 * (s.srcEnd - (s.faNext s.mem h).rd) := by omega
  obtain ⟨htop, hlow⟩ := heldBits_take s.mem h.held h.rd hmissing
  obtain ⟨htop', hlow'⟩ := add_mul_two_pow_parts (v := (s.faStream l).x % 2 ^ s.faRefill h.x) (faStream_emitted_lt s l)
  rw [hrest, ← hleft, ← hemitted, htop'] at htop
  rw [hrest, ← hleft, ← hemitted, hlow'] at hlow
  refine ⟨hsym, ?_, by omega, hleft, hlow⟩
  show s.decodedState h.x * 2 ^ s.faRefill h.x + _ = _
  rw [← htop, hstate, ← hrefill, Nat.div_add_mod']

/-- Decoding takes the symbols off the stream from the first to the last. -/
theorem faSymbols_faStream (htab : s.FaTables) : ∀ {l : List Byte} {h : FaReader}, s.Coded l → s.FaRemains l h →
    s.faSymbols l.length h = some l
  | [], _, _, _ => rfl
  | b :: l, h, hcoded, hr => by
    obtain ⟨hsym, hrest⟩ := hr.step htab hcoded
    rw [List.length_cons, faSymbols_succ, if_neg (Nat.not_lt.mpr hrest.inside), hsym,
      faSymbols_faStream htab (coded_cons.mp hcoded).2 hrest]
    rfl

/-- The bits below the state in the terminal word are the stream's bits that fill no byte (43 R193, R196). -/
theorem faHead_remains (hrange : FaRange (s.faStream l).x) (hlen : s.nSrc.toNat = 4 + (s.faStream l).bits / 8)
    (hvalue : numberBE s.mem s.aSrc.toNat s.nSrc.toNat = (s.faStream l).x * 2 ^ (s.faStream l).bits + (s.faStream l).emitted) :
    bitWidth (readBE4 s.mem s.aSrc.toNat) = 18 + (s.faStream l).bits % 8 ∧ s.FaRemains l (s.faHead ((s.faStream l).bits % 8)) := by
  have hlt := faStream_emitted_lt s l
  have hsplit : (s.faStream l).bits = (s.faStream l).bits % 8 + 8 * ((s.faStream l).bits / 8) := (Nat.mod_add_div _ 8).symm
  have hrest : s.srcEnd - (s.aSrc.toNat + 4) = (s.faStream l).bits / 8 := by rw [State.srcEnd]; omega
  have hheld : heldBits s.mem (readBE4 s.mem s.aSrc.toNat) (s.aSrc.toNat + 4) ((s.faStream l).bits / 8)
      = (s.faStream l).x * 2 ^ (s.faStream l).bits + (s.faStream l).emitted := by
    rw [← hvalue, hlen, numberBE_add, heldBits, readBE4_eq, Nat.mul_comm]
  have htop := heldBits_div s.mem (readBE4 s.mem s.aSrc.toNat) (s.aSrc.toNat + 4) ((s.faStream l).bits / 8) ((s.faStream l).bits % 8)
  have hlow := heldBits_mod s.mem (readBE4 s.mem s.aSrc.toNat) (s.aSrc.toNat + 4) ((s.faStream l).bits / 8) ((s.faStream l).bits % 8)
  obtain ⟨htop', hlow'⟩ := add_mul_two_pow_parts (v := (s.faStream l).x) hlt
  rw [← hsplit, hheld, Nat.add_comm, htop'] at htop
  rw [← hsplit, hheld, Nat.add_comm, hlow'] at hlow
  have hwidth := faRange_iff_bitWidth.mp hrange
  have hpos : readBE4 s.mem s.aSrc.toNat / 2 ^ ((s.faStream l).bits % 8) ≠ 0 := by
    have := hrange.1
    omega
  refine ⟨by rw [bitWidth_eq_add_of_div hpos, ← htop, hwidth], htop.symm, ?_, ?_, ?_⟩
  · show s.aSrc.toNat + 4 ≤ s.srcEnd
    rw [State.srcEnd]; omega
  · show _ = (s.faStream l).bits % 8 + 8 * (s.srcEnd - (s.aSrc.toNat + 4))
    rw [hrest]; exact hsplit
  · show _ = heldBits s.mem (readBE4 s.mem s.aSrc.toNat % 2 ^ ((s.faStream l).bits % 8)) (s.aSrc.toNat + 4) (s.srcEnd - (s.aSrc.toNat + 4))
    rw [hrest]; exact hlow

/-- The stream depends on the table set alone. -/
theorem faStream_congr (h : t.enc = s.enc) (l : List Byte) : t.faStream l = s.faStream l := by
  induction l with
  | nil => rfl
  | cons b l ih => rw [faStream_cons, faStream_cons, ih, State.symFreq, State.symFreq, encOf_congr h]

/-- Settles O58: the tail holds the final state and the emitted bits, and decoding them undoes every encode step. -/
theorem faRoundTrip : Obligations.FaRoundTrip := by
  intro s t dst htabs hexec hnone hreg'
  obtain ⟨hlen, hvalue⟩ := encodersWriteTheirStream.2 s t htabs hexec hnone
  obtain ⟨hin, -, -, hsame, -, -, hlast⟩ := frameOfEveryCommand .encFa s t hexec
  obtain ⟨-, htables⟩ := hsame rfl
  obtain ⟨henc, -, -, htvar⟩ := id htables
  obtain ⟨hfits, -⟩ := hlast (by decide) hnone
  obtain ⟨hreg, hv, hrule⟩ := ready_of_exec hexec hnone
  obtain ⟨r, hrun, -⟩ := finishEncode_ok_of_none (faEncode_encodesTo s) (hrule ▸ hnone)
  have hcoded := faEncode_coded (htabs.faTables hv) hreg hrun
  have hsrc := pointAtTail_aSrc hin hreg (by omega) hfits dst s.nSrc
  have hv' : (t.pointAtTail dst s.nSrc).tvar = .fa := by rw [pointAtTail_tvar, htvar, hv]
  have htab := (State.tablesOk_congr (pointAtTail_sameTables htables dst s.nSrc) htabs).faTables hv'
  have henc : (t.pointAtTail dst s.nSrc).enc = s.enc := henc
  have hcoded' : (t.pointAtTail dst s.nSrc).Coded s.sourceBytes := (coded_congr henc).mpr hcoded
  obtain ⟨hwidth, hremains⟩ := faHead_remains (s := t.pointAtTail dst s.nSrc) (l := s.sourceBytes) (faStream_range htab hcoded')
    (by rw [faStream_congr henc, pointAtTail_nSrc, hlen]) (by rw [faStream_congr henc, pointAtTail_nSrc, pointAtTail_mem, hsrc, hvalue])
  have hdecodes := faDecode_decodesTo htab.1 hreg' (by rw [pointAtTail_nSrc]; omega) (by omega) hwidth
  rw [pointAtTail_nBuf, ← sourceBytes_length, faSymbols_faStream htab hcoded' hremains] at hdecodes
  obtain ⟨-, hsome⟩ := finishDecode_decodesTo hdecodes
  obtain ⟨⟨herr, -⟩, hread⟩ := hsome _ rfl
  refine ⟨_, exec_decFa hv' hreg', herr, fun i hi => ?_⟩
  rw [← sourceBytes_getD s hi]
  exact hread i (by rwa [sourceBytes_length])

end Sys2Proof.Machine
end

/-! ### The composite initialization -/

section
namespace Sys2Proof.Machine

variable {s s' : State} {v : TVar} {g : EncEntry → Nat → Nat → EncEntry} {cum : Nat → Nat}

/-! #### Table sets built from the same statistics -/

/-- What `g` makes of an `ENC` entry depends, in the fields of variant `v`, on the entry's frequency and start alone (10 R37, V5). -/
def DeterminesVariant (v : TVar) (g : EncEntry → Nat → Nat → EncEntry) : Prop :=
  ∀ e e' f c, e'.freq = e.freq → e'.start = e.start → SameEntry v (g e f c) (g e' f c)

theorem refEntry_determinesVariant : DeterminesVariant .ref refEntry := fun _ _ _ _ hfreq hstart => ⟨hfreq, hstart, nofun, nofun⟩

theorem fastEntry_determinesVariant : DeterminesVariant .fast fastEntry := by
  refine fun e e' f c hfreq hstart => ⟨?_, ?_, fun _ => ⟨?_, ?_, ?_, ?_⟩, nofun⟩
  · rw [fastEntry_freq, fastEntry_freq, hfreq]
  · rw [fastEntry_start, fastEntry_start, hstart]
  · rw [fastEntry_cmplFreq, fastEntry_cmplFreq]
  · rw [fastEntry_rcp, fastEntry_rcp]
  · rw [fastEntry_rcpShift, fastEntry_rcpShift]
  · rw [fastEntry_bias, fastEntry_bias]

theorem faEntry_determinesVariant : DeterminesVariant .fa faEntry := by
  refine fun e e' f c hfreq hstart => ⟨?_, ?_, nofun, fun _ => ?_⟩
  · rw [faEntry_freq, faEntry_freq, hfreq]
  · rw [faEntry_start, faEntry_start, hstart]
  · rw [faEntry_delta, faEntry_delta]

theorem toNat_ofNat_byte {i : Nat} (hi : i < 256) : (BitVec.ofNat 8 i).toNat = i := by rw [BitVec.toNat_ofNat, Nat.mod_eq_of_lt hi]

theorem getElem_inv_eq_invOf (s : State) {k : Nat} (hk : k < 16384) : s.inv[k] = s.invOf k := by
  have hmod : k % 2 ^ 14 = k := Nat.mod_eq_of_lt hk
  simp only [State.invOf, hmod]

/-- Boundaries that end at 16384 give every slot an owner, so nothing of the old `INV` is left (41 R132). -/
theorem buildTables_inv_eq (hcum : s'.cum = s.cum) (hs : s.StatisticsOk) (hn : s.Normalized) :
    (s'.buildTables v g).inv = (s.buildTables v g).inv := by
  obtain ⟨hnormal, hend⟩ := hn
  obtain ⟨hzero, hsums, -⟩ := hs hnormal
  have hrise : ∀ i < 256, wordAt s.cum i ≤ wordAt s.cum (i + 1) := fun i hi => (hsums i hi).symm ▸ Nat.le_add_right _ _
  refine Vector.ext fun k hk => ?_
  obtain ⟨i, hi, howner⟩ := exists_slot_owner hzero 256 (show k < wordAt s.cum 256 from hend ▸ hk)
  rw [← toNat_ofNat_byte hi] at howner
  rw [getElem_inv_eq_invOf _ hk, getElem_inv_eq_invOf _ hk, invOf_buildTables s v g hrise k hk _ howner,
    invOf_buildTables s' v g (hcum ▸ hrise) k hk _ (hcum ▸ howner)]

/-- The table stage depends on the statistics alone, when their total is 16384 (44 R224). -/
theorem buildTables_sameBuilt (hg : DeterminesVariant v g) (hs : s.StatisticsOk) (hn : s.Normalized) (hsame : SameStatistics s s') :
    SameBuilt v (s.buildTables v g) (s'.buildTables v g) := by
  obtain ⟨hfreq, hcum, -⟩ := id hsame
  refine ⟨hsame, rfl, ?_, buildTables_inv_eq hcum hs hn, fun b => ?_⟩
  · rw [State.buildTables_dec, State.buildTables_dec, hfreq, hcum]
  · rw [encOf_buildTables, encOf_buildTables, hfreq, hcum]
    exact hg _ _ _ _ rfl rfl

theorem SameBuilt.complete (h : SameBuilt v s s') (e : ErrorCode) (r : Word) : SameBuilt v (s.complete e r) (s'.complete e r) := h

/-! #### The rule of INIT.v -/

/-- Stage 4 with boundaries that rise to 16384 leaves valid statistics, and what `TBL.v` needs (40 R119, 30 R104). -/
theorem setStatistics_normalized (h : RisesTo 16384 cum) (s : State) : (s.setStatistics cum).StatisticsOk ∧ (s.setStatistics cum).Normalized :=
  ⟨setStatistics_statisticsOk (k := 14) h (Nat.le_refl _), rfl, (wordAt_setStatistics_cum h (Nat.le_refl _) (Nat.le_refl _)).trans h.last⟩

theorem distinctSymbols_le (freq : Vector Word 256) : distinctSymbols freq ≤ 256 :=
  (List.length_filter_le _ _).trans_eq List.length_range

/-- 16384 suffices for the symbols of any sequence: the error branch of `INIT.v` is not reached (40 R120). -/
theorem normalizedCum_total (freq : Vector Word 256) : ∃ cum, normalizedCum 16384 freq = .ok cum :=
  normalizedCum_of_distinctSymbols_le ((distinctSymbols_le freq).trans (by decide))

/-- `INIT.v` of `s` up to its table stage (44 R221). -/
def State.initStatistics (s : State) (cum : Nat → Nat) : State :=
  ({ s with tvar := .none, sstate := .invalid } : State).countStage.setStatistics cum

/-- The statistics of `INIT.v` are those of its boundaries. -/
theorem initStatistics_sameStatistics (s s' : State) (cum : Nat → Nat) : SameStatistics (s.initStatistics cum) (s'.initStatistics cum) := by
  simp only [SameStatistics, State.initStatistics, State.setStatistics_freq, State.setStatistics_cum, State.setStatistics_sstate, and_self]

theorem initStatistics_normalized (h : RisesTo 16384 cum) (s : State) :
    (s.initStatistics cum).StatisticsOk ∧ (s.initStatistics cum).Normalized :=
  setStatistics_normalized h _

theorem initTables_eq (h : normalizedCum 16384 s.countStage.freq = .ok cum) (v : TVar) (g : EncEntry → Nat → Nat → EncEntry) :
    s.initTables v g = ((s.initStatistics cum).buildTables v g).complete .none 0 := by
  have h' : normalizedCum Config.total ({ s with tvar := .none, sstate := .invalid } : State).countStage.freq = .ok cum := h
  simp only [State.initTables, h', State.initStatistics]

theorem ftNorm_eq (h : normalizedCum s.ftTotal.toNat s.freq = .ok cum) : s.ftNorm = (s.setStatistics cum).complete .none 0 := by
  rw [State.ftNorm, h]

/-- The commands of one variant: `i` is its `INIT.v`, `j` its `TBL.v`, and `g` the fields both give an `ENC` entry. -/
structure BuildsVariant (i j : Instr) (v : TVar) (g : EncEntry → Nat → Nat → EncEntry) : Prop where
  init : ∀ s : State, s.SourceOk → exec i s = .next (s.initTables v g)
  table : ∀ s : State, s.Normalized → exec j s = .next ((s.buildTables v g).complete .none 0)
  fills : FillsVariant v g
  determines : DeterminesVariant v g

theorem buildsVariant_ref : BuildsVariant .initRef .tblRef .ref refEntry :=
  ⟨fun _ h => exec_of_ready (i := .initRef) h trivial, fun _ h => exec_of_ready (i := .tblRef) trivial h,
    refEntry_fillsVariant, refEntry_determinesVariant⟩

theorem buildsVariant_fast : BuildsVariant .initFast .tblFast .fast fastEntry :=
  ⟨fun _ h => exec_of_ready (i := .initFast) h trivial, fun _ h => exec_of_ready (i := .tblFast) trivial h,
    fastEntry_fillsVariant, fastEntry_determinesVariant⟩

theorem buildsVariant_fa : BuildsVariant .initFa .tblFa .fa faEntry :=
  ⟨fun _ h => exec_of_ready (i := .initFa) h trivial, fun _ h => exec_of_ready (i := .tblFa) trivial h,
    faEntry_fillsVariant, faEntry_determinesVariant⟩

theorem buildsVariant_of_mem {p : Instr × Instr × TVar}
    (hp : p ∈ [(Instr.initRef, Instr.tblRef, TVar.ref), (.initFast, .tblFast, .fast), (.initFa, .tblFa, .fa)]) :
    ∃ g, BuildsVariant p.1 p.2.1 p.2.2 g := by
  simp only [List.mem_cons, List.not_mem_nil, or_false] at hp
  obtain rfl | rfl | rfl := hp
  · exact ⟨_, buildsVariant_ref⟩
  · exact ⟨_, buildsVariant_fast⟩
  · exact ⟨_, buildsVariant_fa⟩

theorem buildsVariant_of_mem_init {p : Instr × TVar} (hp : p ∈ [(Instr.initRef, TVar.ref), (.initFast, .fast), (.initFa, .fa)]) :
    ∃ j g, BuildsVariant p.1 j p.2 g := by
  simp only [List.mem_cons, List.not_mem_nil, or_false] at hp
  obtain rfl | rfl | rfl := hp
  · exact ⟨_, _, buildsVariant_ref⟩
  · exact ⟨_, _, buildsVariant_fast⟩
  · exact ⟨_, _, buildsVariant_fa⟩

/-! #### What INIT.v leaves -/

/-- `buildTables_contentsOk` without its premise on memory, of which nothing is known here (10 R48). -/
theorem buildTables_tablesOk (hg : FillsVariant v g) (hs : s.StatisticsOk) (hn : s.Normalized) : (s.buildTables v g).TablesOk := by
  obtain ⟨hnormal, hend⟩ := hn
  obtain ⟨hzero, hsums, -⟩ := hs hnormal
  exact hg.2 s (intervalsOk_buildTables s v g hg.1 hzero hsums hend)

theorem encOf_buildTables_toNat (hg : FillsVariant v g) (s : State) (b : Byte) :
    ((s.buildTables v g).encOf b).freq.toNat = wordAt s.freq b.toNat
      ∧ ((s.buildTables v g).encOf b).start.toNat = wordAt s.cum b.toNat := by
  obtain ⟨hkeeps, -⟩ := hg
  rw [encOf_buildTables, (hkeeps _ _ _).1, (hkeeps _ _ _).2]
  exact ⟨ofNat_wordAt_toNat _ _, ofNat_wordAt_toNat _ _⟩

theorem wordAt_countStage_freq (s : State) (b : Byte) : wordAt s.countStage.freq b.toNat = s.sourceBytes.count b :=
  wordAt_countFreq b s.nSrc.isLt

/-- A symbol of the sequence keeps a frequency of at least 1 through the normalization (40 R116, 10 R47). -/
theorem one_le_initStatistics_freq (hcum : normalizedCum 16384 s.countStage.freq = .ok cum) {b : Byte} (hb : b ∈ s.sourceBytes) :
    1 ≤ wordAt (s.initStatistics cum).freq b.toNat := by
  obtain ⟨hrises, -, hpresent⟩ := normalizedCum_repaired hcum
  have hcount : wordAt s.countStage.freq b.toNat ≠ 0 := wordAt_countStage_freq s b ▸ Nat.ne_of_gt (List.count_pos_iff.mpr hb)
  rw [State.initStatistics, wordAt_setStatistics_freq hrises (Nat.le_refl _) b.isLt]
  exact hpresent b.toNat b.isLt hcount

/-- Settles O34: 256 symbols at most need a unit of 16384, so the normalization succeeds, and the table stage finds valid statistics. -/
theorem initBuildsValidTables : Obligations.InitBuildsValidTables := by
  intro s p hp hsrc
  obtain ⟨j, g, hv⟩ := buildsVariant_of_mem_init hp
  obtain ⟨cum, hcum⟩ := normalizedCum_total s.countStage.freq
  obtain ⟨hstat, hnormal⟩ := initStatistics_normalized (normalizedCum_risesTo hcum) s
  have htables := buildTables_tablesOk hv.fills hstat hnormal
  have henc := encOf_buildTables_toNat hv.fills (s.initStatistics cum)
  obtain ⟨-, hend⟩ := id hnormal
  obtain ⟨hinputs, hmem⟩ := initTables_frame s p.2 g
  refine ⟨_, hv.init s hsrc, ?_⟩
  rw [initTables_eq hcum] at hinputs hmem ⊢
  exact ⟨⟨rfl, rfl, rfl, rfl⟩, rfl, rfl, hend, hstat, htables, henc,
    fun b hb => (one_le_initStatistics_freq hcum hb).trans_eq (henc b).1.symm, hinputs, hmem⟩

/-! #### The chain of three commands -/

/-- The state after the first command of the chain: counted, with `FT_TOTAL` = 16384 (44 R220). -/
def State.chainCounted (s : State) : State := ({ s with ftTotal := 16384 } : State).ftCount

theorem exec_ftNorm_chainCounted (h : normalizedCum 16384 s.countStage.freq = .ok cum) :
    exec .ftNorm s.chainCounted = .next ((s.chainCounted.setStatistics cum).complete .none 0) := by
  rw [exec_ftNorm (s := s.chainCounted) ⟨14, by decide, rfl⟩ rfl, ftNorm_eq (s := s.chainCounted) h]

theorem chain_sameStatistics (s : State) (cum : Nat → Nat) :
    SameStatistics ((s.chainCounted.setStatistics cum).complete .none 0) (s.initStatistics cum) := ⟨rfl, rfl, rfl⟩

/-- Settles O35: both normalize the same counts with 16384 and build from the same statistics. -/
theorem initEqualsTheChain : Obligations.InitEqualsTheChain := by
  intro s p hp hsrc
  obtain ⟨g, hv⟩ := buildsVariant_of_mem hp
  obtain ⟨cum, hcum⟩ := normalizedCum_total s.countStage.freq
  obtain ⟨hstat, hnormal⟩ := setStatistics_normalized (normalizedCum_risesTo hcum) s.chainCounted
  obtain ⟨⟨-, -, -, -, -, htotal, -⟩, -⟩ := initTables_frame s p.2.2 g
  have hbuilt := buildTables_sameBuilt (s := (s.chainCounted.setStatistics cum).complete .none 0) hv.determines hstat hnormal
    (chain_sameStatistics s cum)
  refine ⟨_, _, _, _, exec_ftCount hsrc, exec_ftNorm_chainCounted hcum, hv.table _ hnormal, hv.init s hsrc, rfl, ?_, htotal, ?_⟩ <;>
    rw [initTables_eq hcum]
  · rfl
  · exact hbuilt.complete .none 0

/-! #### Two states with the same source bytes -/

theorem eq_of_wordAt_eq {n : Nat} {x y : Vector Word n} (h : ∀ i < n, wordAt x i = wordAt y i) : x = y := by
  refine Vector.ext fun i hi => BitVec.eq_of_toNat_eq ?_
  rw [← wordAt_of_lt x hi, ← wordAt_of_lt y hi, h i hi]

/-- The raw counts depend on the bytes of the source region alone (40 R111). -/
theorem countStage_freq_eq (h : s.sourceBytes = s'.sourceBytes) : s'.countStage.freq = s.countStage.freq := by
  refine eq_of_wordAt_eq fun i hi => ?_
  rw [← toNat_ofNat_byte hi, wordAt_countStage_freq, wordAt_countStage_freq, h]

/-- Settles O36: the same bytes give the same counts, these the same boundaries, and from there on no old value is left. -/
theorem initDependsOnlyOnTheBytes : Obligations.InitDependsOnlyOnTheBytes := by
  intro s s' t t' p hp hsrc hsrc' hbytes ht ht'
  obtain ⟨j, g, hv⟩ := buildsVariant_of_mem_init hp
  obtain ⟨cum, hcum⟩ := normalizedCum_total s.countStage.freq
  have hcum' : normalizedCum 16384 s'.countStage.freq = .ok cum := countStage_freq_eq hbytes ▸ hcum
  rw [hv.init s hsrc, initTables_eq hcum] at ht
  rw [hv.init s' hsrc', initTables_eq hcum'] at ht'
  obtain rfl := Host.Outcome.next.inj ht
  obtain rfl := Host.Outcome.next.inj ht'
  obtain ⟨hstat, hnormal⟩ := initStatistics_normalized (normalizedCum_risesTo hcum) s
  exact (buildTables_sameBuilt hv.determines hstat hnormal (initStatistics_sameStatistics s s' cum)).complete .none 0

end Sys2Proof.Machine
end

/-! ### The errors before a command's own rule

An illegal word, illegal operands and unmet needs are tested in this order, and each ends the command at once (30 R103). What a rule raises after
them are errors of its own (60 R231). -/

section
namespace Sys2Proof.Machine

variable {i : Instr} {s : State} {w : Word} {o : Except ErrorCode Run}

/-- An error ends the command and changes `STATUS`, `RESULT` and the working registers only (60 R236, R237). -/
theorem raise_changesNothingElse (s : State) (e : ErrorCode) :
    EndedWith (s.raise e) e ∧ SameInputs s (s.raise e) ∧ SameStatistics s (s.raise e) ∧ SameTables s (s.raise e) ∧ (s.raise e).mem = s.mem :=
  ⟨raise_endedWith s e, SameInputs.refl s, ⟨rfl, rfl, rfl⟩, ⟨rfl, rfl, rfl, rfl⟩, rfl⟩

/-! #### Before the prologue: the illegal word -/

/-- A word that is no command's is refused by the decoder (30 R91, R95). -/
theorem decode_error_of_ne_encode (h : ∀ i, w ≠ encode i) : ∃ e, decode w = .error e := by
  cases hdecode : decode w with
  | ok i => exact absurd ((decodeAcceptsExactlyTheMap w i).mp hdecode) (h i)
  | error e => exact ⟨e, rfl⟩

/-- Settles O4: the decoder refuses the word, and all that follows is the error. -/
theorem illegalWordChangesNothingElse : Obligations.IllegalWordChangesNothingElse := by
  intro s w hw
  obtain ⟨e, he⟩ := decode_error_of_ne_encode hw
  have hrun : s.runCommand w = .next ((s.startCommand w).raise .illegalCommand) := by rw [State.runCommand, he]
  obtain ⟨hended, hin, hstat, htab, hmem⟩ := raise_changesNothingElse (s.startCommand w) .illegalCommand
  exact ⟨_, hrun, hended, rfl, hin, hstat, htab, hmem⟩

/-! #### The two tests of the prologue -/

theorem exec_of_illegal_operands (h : ¬ operandsLegal s i) : exec i s = .next (s.raise .badOperand) := by
  obtain ⟨ok, ready, hexec, hok, -⟩ := exec_prologue i s
  rw [hexec, withPrologue, if_neg (hok.not.mpr h)]

theorem exec_of_unmet_needs (hop : operandsLegal s i) (h : ¬ needsMet s i) : exec i s = .next (s.raise .notReady) := by
  obtain ⟨ok, ready, hexec, hok, hready⟩ := exec_prologue i s
  rw [hexec, withPrologue, if_pos (hok.mpr hop), if_neg (hready.not.mpr h)]

/-! #### After the prologue: a rule never raises the prologue's errors -/

/-- The errors of the prologue (30 R103). -/
def prologueErrors : List ErrorCode := [.badOperand, .notReady]

theorem none_notMem_prologueErrors : ErrorCode.none ∉ prologueErrors := by decide

theorem ftNorm_err (s : State) : s.ftNorm.err ∉ prologueErrors := by
  cases hnorm : normalizedCum s.ftTotal.toNat s.freq with
  | ok cum => rw [ftNorm_eq hnorm]; exact none_notMem_prologueErrors
  | error e =>
    obtain ⟨rfl, -⟩ := normalizedCum_error hnorm
    have herr : s.ftNorm.err = .degenerateFrequencyTable := by rw [State.ftNorm, hnorm]; rfl
    rw [herr]; decide

/-- 16384 is at least the number of symbols, so `INIT.v` raises no error at all (40 R120). -/
theorem initTables_err (s : State) (v : TVar) (g : EncEntry → Nat → Nat → EncEntry) : (s.initTables v g).err = .none := by
  obtain ⟨cum, hcum⟩ := normalizedCum_total s.countStage.freq
  rw [initTables_eq hcum]; rfl

theorem finishEncode_err {P : Run → Prop} (ho : EncodesTo P o) : (s.finishEncode o).err ∉ prologueErrors := by
  cases o with
  | ok r => exact none_notMem_prologueErrors
  | error e =>
    show e ∉ prologueErrors
    obtain rfl | rfl := ho <;> decide

theorem faDecode_error {e : ErrorCode} (h : s.faDecode = .error e) : e = .invalidLength ∨ e = .malformedStream := by
  cases hhead : s.readState with
  | ok r =>
    rw [faDecode_of_head hhead] at h
    exact .inl (decLoop_error (· = .invalidLength) (fun _ _ _ => faDecStep_error) _ _ _ _ h)
  | error e' =>
    cases (faDecode_of_head_error hhead).symm.trans h
    obtain ⟨-, hread⟩ | ⟨-, -, hread⟩ | ⟨-, -, -, -, r, hread, -⟩ := readState_cases s <;> cases hread.symm.trans hhead
    · exact .inl rfl
    · exact .inr rfl

theorem finishDecode_err (ho : ∀ e, o = .error e → e = .invalidLength ∨ e = .malformedStream) :
    (s.finishDecode o).err ∉ prologueErrors := by
  cases o with
  | ok r => exact none_notMem_prologueErrors
  | error e =>
    show e ∉ prologueErrors
    obtain rfl | rfl := ho e rfl <;> decide

/-- No rule raises an error of the prologue: what it raises is its own (60 R231). -/
theorem ruleOf_err (i : Instr) (s : State) : (ruleOf i s).err ∉ prologueErrors := by
  cases i with
  | ftCount | tblRef | tblFast | tblFa => exact none_notMem_prologueErrors
  | ftNorm => exact ftNorm_err s
  | initRef | initFast | initFa => exact (initTables_err s _ _).symm ▸ none_notMem_prologueErrors
  | encRef | encFast => exact finishEncode_err (encWords_encodesTo _ s)
  | encFa => exact finishEncode_err (faEncode_encodesTo s)
  | decRef | decFast => exact finishDecode_err fun _ h => .inl (decWords_error h)
  | decFa => exact finishDecode_err fun _ => faDecode_error

/-- Settles O19: the operand test comes first, and neither the test of the needs nor the rule raises its error. -/
theorem badOperandComesFirst : Obligations.BadOperandComesFirst := by
  refine fun i s => ⟨fun hop => ⟨_, exec_of_illegal_operands hop, raise_changesNothingElse s _⟩, fun hop t ht hbad => ?_⟩
  by_cases hneeds : needsMet s i
  · obtain rfl := Host.Outcome.next.inj ((exec_of_ready hop hneeds).symm.trans ht)
    exact ruleOf_err i s (hbad ▸ by decide)
  · obtain rfl := Host.Outcome.next.inj ((exec_of_unmet_needs hop hneeds).symm.trans ht)
    cases hbad

/-- Settles O20: the test of the needs comes second, and the rule does not raise its error. -/
theorem notReadyComesSecond : Obligations.NotReadyComesSecond := by
  refine fun i s hop => ⟨fun hneeds => ⟨_, exec_of_unmet_needs hop hneeds, raise_changesNothingElse s _⟩, fun hneeds t ht hbad => ?_⟩
  obtain rfl := Host.Outcome.next.inj ((exec_of_ready hop hneeds).symm.trans ht)
  exact ruleOf_err i s (hbad ▸ by decide)

end Sys2Proof.Machine
end

/-! ### The errors of the encoders

An encoder takes the symbols from the last to the first. With every symbol coded it stops only for want of room; else it comes to the last symbol of
frequency 0, unless the bytes to be written before that step do not fit (60 R232, R239, R243). -/

section
namespace Sys2Proof.Machine

variable {s : State} {v : TVar} {i j k n : Nat} {l l' : List Byte} {b : Byte} {r : Run} {o : Except ErrorCode Run} {e : ErrorCode}

/-! #### Two parts in sequence -/

theorem bind_of_ok {x : Except ErrorCode Run} {f : Run → Except ErrorCode Run} (h : x = .ok r) : (x >>= f) = f r := by rw [h]; rfl

theorem bind_of_error {x : Except ErrorCode Run} {f : Run → Except ErrorCode Run} (h : x = .error e) : (x >>= f) = .error e := by
  rw [h]; rfl

/-! #### The bytes written for a part of the sequence -/

theorem streamBytes_of_ne_fa (hv : v ≠ .fa) (s : State) (l : List Byte) : s.streamBytes v l = 4 * (s.refStream l).2.length := if_neg hv

/-- The symbols at the end of a sequence are encoded first, so their bytes are among those of the whole (41 R135, 43 R189). -/
theorem streamBytes_le_of_suffix (v : TVar) (h : l <:+ l') : s.streamBytes v l ≤ s.streamBytes v l' := by
  obtain ⟨front, rfl⟩ := h
  have hwords := refStream_length_append s l front
  have hbits := faStream_bits_append s l front
  rw [State.streamBytes, State.streamBytes]
  split_ifs <;> omega

/-- The steps of coded symbols write at most two bytes each and two more (41 R149, 43 R194). -/
theorem streamBytes_le (htab : s.IntervalsOk) (v : TVar) (hcoded : s.Coded l) : s.streamBytes v l ≤ 2 * l.length + 2 := by
  have hwords := refStream_length_le htab hcoded
  have hbits := faStream_bits_le s hcoded
  rw [State.streamBytes]
  split_ifs at hwords ⊢ <;> omega

theorem State.Coded.of_suffix (h : s.Coded l') (hl : l <:+ l') : s.Coded l := fun b hb => h b (hl.subset hb)

/-! #### The last symbol of frequency 0 -/

/-- Position `i` of the source holds the last symbol of frequency 0: the first one an encoder meets (60 R239). -/
structure State.LastUncoded (s : State) (i : Nat) : Prop where
  inside : i < s.nSrc.toNat
  uncoded : s.symFreq (s.mem.read (s.aSrc.toNat + i)) = 0
  behind : s.Coded (s.sourceBytes.drop (i + 1))

theorem State.LastUncoded.coded_drop (h : s.LastUncoded i) (hij : i < j) : s.Coded (s.sourceBytes.drop j) :=
  h.behind.of_suffix (List.drop_suffix_drop_left _ hij)

/-- A sequence that is not coded has a last symbol of frequency 0. -/
theorem exists_last_uncoded : ∀ {l : List Byte}, ¬ s.Coded l → ∃ before behind b, l = before ++ b :: behind ∧ s.symFreq b = 0 ∧ s.Coded behind
  | [], h => absurd (nofun : s.Coded []) h
  | b :: l, h => by
    by_cases hl : s.Coded l
    · exact ⟨[], l, b, rfl, by_contra fun hb => h (coded_cons.mpr ⟨hb, hl⟩), hl⟩
    · obtain ⟨before, behind, c, rfl, hc, hbehind⟩ := exists_last_uncoded hl
      exact ⟨b :: before, behind, c, rfl, hc, hbehind⟩

/-- A sequence split at its last symbol of frequency 0, as a position in the source. -/
theorem lastUncoded_of_split {before behind : List Byte} (h : s.sourceBytes = before ++ b :: behind) (hb : s.symFreq b = 0)
    (hbehind : s.Coded behind) : s.LastUncoded before.length ∧ s.sourceBytes.drop (before.length + 1) = behind := by
  have hdrop : s.sourceBytes.drop before.length = b :: behind := by rw [h, List.drop_left]
  have hlen : before.length < s.nSrc.toNat := by
    rw [← sourceBytes_length, h, List.length_append, List.length_cons]; omega
  rw [sourceBytes_drop s hlen] at hdrop
  obtain ⟨hread, hrest⟩ := List.cons.inj hdrop
  exact ⟨⟨hlen, hread ▸ hb, hrest ▸ hbehind⟩, hrest⟩

/-- The error an encoder reports at a symbol of frequency 0, when `n` bytes are to be written before its step (60 R243). -/
def State.errorAfter (s : State) (n : Nat) : ErrorCode := if n ≤ s.nBuf.toNat then .zeroFrequencySymbol else .bufferTooSmall

theorem errorAfter_of_le (h : n ≤ s.nBuf.toNat) : s.errorAfter n = .zeroFrequencySymbol := if_pos h

theorem errorAfter_of_lt (h : s.nBuf.toNat < n) : s.errorAfter n = .bufferTooSmall := if_neg (Nat.not_le.mpr h)

theorem freq_eq_zero_of_uncoded (hb : s.symFreq b = 0) : (s.encOf b).freq = 0 := BitVec.eq_of_toNat_eq hb

/-- The symbols whose bytes are written before the step at position `i`: those behind it, for `ENC.FA` those of the full groups of three behind
it (43 R190). -/
def State.writtenBehind (s : State) (v : TVar) (i : Nat) : List Byte :=
  let behind := s.sourceBytes.drop (i + 1)
  behind.drop (if v = .fa then behind.length % 3 else 0)

theorem writtenBehind_of_ne_fa (hv : v ≠ .fa) (s : State) (i : Nat) : s.writtenBehind v i = s.sourceBytes.drop (i + 1) := by
  rw [State.writtenBehind, if_neg hv]; rfl

/-- For `ENC.FA` the bytes written are those of the symbols from the end of the group of position `i` on. -/
theorem writtenBehind_fa (s : State) (i : Nat) :
    s.writtenBehind .fa i = s.sourceBytes.drop (i + 1 + (s.nSrc.toNat - (i + 1)) % 3) := by
  rw [State.writtenBehind, if_pos rfl, List.length_drop, sourceBytes_length, List.drop_drop]

/-- How the run of an encoder ends: with coded symbols by whether the stream fits, else by the last symbol of frequency 0 (60 R232, R239, R243). -/
structure State.EncoderEnds (s : State) (v : TVar) (least : Nat) (o : Except ErrorCode Run) : Prop where
  fits : s.SymbolsCoded → least + s.streamBytes v s.sourceBytes ≤ s.nBuf.toNat → ∃ r, o = .ok r
  full : s.SymbolsCoded → s.nBuf.toNat < least + s.streamBytes v s.sourceBytes → o = .error .bufferTooSmall
  uncoded : ∀ i, s.LastUncoded i → o = .error (s.errorAfter (s.streamBytes v (s.writtenBehind v i)))

theorem errorAfter_eq (s : State) (n : Nat) : s.errorAfter n = .bufferTooSmall ∨ s.errorAfter n = .zeroFrequencySymbol := by
  rw [State.errorAfter, or_comm]; exact ite_eq_or_eq _ _ _

/-- A buffer of 2n + 10 bytes has room for all that is written before a symbol of frequency 0 (70 R263). -/
theorem State.LastUncoded.writtenBehind_fits (h : s.LastUncoded i) (htab : s.IntervalsOk) (hlarge : s.BufferLargeEnough) (v : TVar) :
    s.streamBytes v (s.writtenBehind v i) ≤ s.nBuf.toNat := by
  have hsuffix : s.writtenBehind v i <:+ s.sourceBytes.drop (i + 1) := List.drop_suffix _ _
  have hbytes := streamBytes_le htab v (h.behind.of_suffix hsuffix)
  have hlen := (hsuffix.trans (List.drop_suffix _ _)).length_le
  rw [sourceBytes_length] at hlen
  rw [State.BufferLargeEnough] at hlarge
  omega

/-! #### The word encoder -/

section
variable {update : EncEntry → DWord → Nat} {ws : List Nat}

theorem State.WordsWritten.fits (h : s.WordsWritten ws r) : 4 * ws.length ≤ s.nBuf.toNat := by
  obtain ⟨⟨hlow, -, -⟩, hcount, -⟩ := h
  rw [State.bufEnd] at hcount; omega

theorem encStep_of_uncoded (hb : s.symFreq b = 0) (update : EncEntry → DWord → Nat) (r : Run) :
    encStep update s b r = .error .zeroFrequencySymbol := if_pos (freq_eq_zero_of_uncoded hb)

/-- The encode loop runs down to the last symbol of frequency 0, or stops above it for want of room (60 R243). -/
theorem encLoop_stops (htab : s.IntervalsOk) (hupd : s.UpdatesAsRef update) (hreg : s.RegionsOk) (h : s.LastUncoded i) :
    ∀ (n : Nat) {r : Run}, i < n → n ≤ s.nSrc.toNat → s.WordsWritten (s.refStream (s.sourceBytes.drop n)).2 r →
    r.work.x.toNat = (s.refStream (s.sourceBytes.drop n)).1 →
    encLoop (encStep update s) s.aSrc.toNat n r = .error (s.errorAfter (4 * (s.refStream (s.sourceBytes.drop (i + 1))).2.length))
  | n + 1, r, hin, hn, hwords, hx => by
    have hbyte : r.mem.read (s.aSrc.toNat + n) = s.mem.read (s.aSrc.toNat + n) :=
      hwords.inside.inside.read_source hreg (by omega) (by rw [State.srcEnd]; omega)
    rw [encLoop, hbyte]
    obtain rfl | hlt := Nat.eq_or_lt_of_le (Nat.le_of_lt_succ hin)
    · rw [errorAfter_of_le hwords.fits]
      exact bind_of_error (encStep_of_uncoded h.uncoded update _)
    · have hstep := encStep_writes htab hupd (h.coded_drop hin) (hwords.setIdx n) hx (s.mem.read (s.aSrc.toNat + n))
      rw [← sourceBytes_drop s hn] at hstep
      cases hend : encStep update s (s.mem.read (s.aSrc.toNat + n)) (r.setIdx n) with
      | ok a =>
        obtain ⟨-, hwords', hx'⟩ := hend ▸ hstep
        exact encLoop_stops htab hupd hreg h n hlt (by omega) hwords' hx'
      | error e =>
        obtain ⟨rfl, hfull⟩ := (hend ▸ hstep : s.Writes _ _ _ (.error e)) (h.coded_drop hlt)
        have hmore := streamBytes_le_of_suffix (s := s) .ref (List.drop_suffix_drop_left s.sourceBytes (show i + 1 ≤ n from hlt))
        rw [streamBytes_ref, streamBytes_ref] at hmore
        rw [errorAfter_of_lt (by omega)]; rfl

/-- The run of `ENC.REF` and `ENC.FAST` (41 R135, 42 R166). -/
theorem encWords_ends (htab : s.IntervalsOk) (hupd : s.UpdatesAsRef update) (hreg : s.RegionsOk) (hv : v ≠ .fa) :
    s.EncoderEnds v 8 (s.encWords update) where
  fits hcoded hroom := by
    rw [streamBytes_of_ne_fa hv] at hroom
    obtain ⟨r, hr, -⟩ := encWords_completes htab hupd hreg hcoded (by rw [tailWords_length]; omega)
    exact ⟨r, hr⟩
  full hcoded hfull := by
    rw [streamBytes_of_ne_fa hv] at hfull
    have hwrites := encWords_writes htab hupd hreg
    cases hend : s.encWords update with
    | ok r =>
      obtain ⟨-, hwords, -⟩ := hend ▸ hwrites
      have hfits := hwords.fits
      rw [tailWords_length] at hfits
      omega
    | error e =>
      obtain ⟨rfl, -⟩ := (hend ▸ hwrites : s.Writes _ _ _ (.error e)) hcoded
      rfl
  uncoded i h := by
    have hall := sourceBytes_drop_all s
    rw [streamBytes_of_ne_fa hv, writtenBehind_of_ne_fa hv]
    exact bind_of_error (encLoop_stops htab hupd hreg h _ h.inside (Nat.le_refl _) (hall.symm ▸ encStart_wordsWritten s)
      (hall.symm ▸ encStart_x s))

end

/-! #### The fixed-accuracy encoder -/

theorem State.FaEncoded.fits (h : s.FaEncoded l 7 r) : (s.faStream l).bits / 8 ≤ s.nBuf.toNat := by
  have hcount := h.packed.count
  have hpending := h.pending
  obtain ⟨hlow, hhigh, -⟩ := h.inside
  rw [State.bufEnd] at hcount hhigh; omega

/-- A flush is stopped when the bytes of the stream do not fit the destination (60 R232). -/
theorem flushBits_stops (h : s.FaEncoded l k r) (hfull : s.nBuf.toNat < (s.faStream l).bits / 8) :
    flushBits s.aBuf.toNat r = .error .bufferTooSmall := by
  have hcount := h.packed.count
  obtain ⟨hlow, hhigh, -⟩ := h.inside
  rw [State.bufEnd] at hcount hhigh
  exact flushBytes_stops _ (by omega) (by omega) (by omega)

/-- The step at a position from which on all symbols are coded (43 R191). -/
theorem faEncStep_of_coded (htab : s.FaTables) (hreg : s.RegionsOk) (hi : i < s.nSrc.toNat) (hcoded : s.Coded (s.sourceBytes.drop i))
    (h : s.FaEncoded (s.sourceBytes.drop (i + 1)) k r) (hk : k ≤ 50) :
    ∃ r', faEncStep s (r.mem.read (s.aSrc.toNat + i)) r = .ok r' ∧ s.FaEncoded (s.sourceBytes.drop i) (k + 14) r' := by
  rw [sourceBytes_drop s hi, coded_cons, ← h.inside.inside.read_source hreg (by omega) (by rw [State.srcEnd]; omega)] at hcoded
  obtain ⟨hzero, -⟩ | ⟨-, hstep⟩ := faEncStep_cases s (r.mem.read (s.aSrc.toNat + i)) r
  · exact absurd (congrArg BitVec.toNat hzero) hcoded.1
  · exact ⟨_, hstep, faEncStep_at htab hreg hi h hk hstep⟩

/-- The step at a position at or behind the last symbol of frequency 0. -/
theorem faEncStep_meets (htab : s.FaTables) (hreg : s.RegionsOk) (h : s.LastUncoded i) (hij : i ≤ j) (hj : j < s.nSrc.toNat)
    (hr : s.FaEncoded (s.sourceBytes.drop (j + 1)) k r) (hk : k ≤ 50) :
    (j = i ∧ faEncStep s (r.mem.read (s.aSrc.toNat + j)) r = .error .zeroFrequencySymbol)
      ∨ (i < j ∧ ∃ r', faEncStep s (r.mem.read (s.aSrc.toNat + j)) r = .ok r' ∧ s.FaEncoded (s.sourceBytes.drop j) (k + 14) r') := by
  obtain rfl | hlt := Nat.eq_or_lt_of_le hij
  · rw [hr.inside.inside.read_source hreg (by omega) (by rw [State.srcEnd]; omega)]
    exact .inl ⟨rfl, if_pos (freq_eq_zero_of_uncoded h.uncoded)⟩
  · exact .inr ⟨hlt, faEncStep_of_coded htab hreg hj (h.coded_drop hlt) hr hk⟩

/-- A run of the loop that brings the position to `j`, or a stop for want of room for the symbols from there on. -/
def State.FaReaches (s : State) (j n : Nat) (r : Run) : Prop :=
  (∃ r', faEncLoop s s.aSrc.toNat s.aBuf.toNat n r = faEncLoop s s.aSrc.toNat s.aBuf.toNat j r' ∧ s.FaEncoded (s.sourceBytes.drop j) 7 r')
    ∨ (faEncLoop s s.aSrc.toNat s.aBuf.toNat n r = .error .bufferTooSmall ∧ s.nBuf.toNat < (s.faStream (s.sourceBytes.drop j)).bits / 8)

/-- One group of three coded symbols and its flush (43 R190). -/
theorem faEncLoop_group (htab : s.FaTables) (hreg : s.RegionsOk) (hn : n + 3 ≤ s.nSrc.toNat) (hcoded : s.Coded (s.sourceBytes.drop n))
    (hr : s.FaEncoded (s.sourceBytes.drop (n + 3)) 7 r) : s.FaReaches n (n + 3) r := by
  have hdrop (d : Nat) : s.Coded (s.sourceBytes.drop (n + d)) := hcoded.of_suffix (List.drop_suffix_drop_left _ (Nat.le_add_right n d))
  obtain ⟨a, ha, h₁⟩ := faEncStep_of_coded htab hreg (i := n + 2) hn (hdrop 2) (hr.setIdx (n + 3)) (by decide)
  obtain ⟨b, hb, h₂⟩ := faEncStep_of_coded htab hreg (i := n + 1) (by omega) (hdrop 1) h₁ (by decide)
  obtain ⟨c, hc, h₃⟩ := faEncStep_of_coded htab hreg (i := n) (by omega) hcoded h₂ (by decide)
  obtain hfull | hroom := Nat.lt_or_ge s.nBuf.toNat ((s.faStream (s.sourceBytes.drop n)).bits / 8)
  · exact .inr ⟨(bind_of_ok ha).trans ((bind_of_ok hb).trans ((bind_of_ok hc).trans (bind_of_error (flushBits_stops h₃ hfull)))), hfull⟩
  · obtain ⟨d, hd, h₄⟩ := flushBits_flushes h₃ hroom
    exact .inl ⟨d, (bind_of_ok ha).trans ((bind_of_ok hb).trans ((bind_of_ok hc).trans (bind_of_ok hd))), h₄⟩

/-- All groups behind position `j` (43 R189, R190). -/
theorem faEncLoop_groups (htab : s.FaTables) (hreg : s.RegionsOk) (hcoded : s.Coded (s.sourceBytes.drop j)) : ∀ (q : Nat) {r : Run},
    j + 3 * q ≤ s.nSrc.toNat → s.FaEncoded (s.sourceBytes.drop (j + 3 * q)) 7 r → s.FaReaches j (j + 3 * q) r
  | 0, r, _, hr => .inl ⟨r, rfl, hr⟩
  | q + 1, r, hn, hr => by
    have hsuffix : s.sourceBytes.drop (j + 3 * q) <:+ s.sourceBytes.drop j := List.drop_suffix_drop_left _ (Nat.le_add_right _ _)
    obtain ⟨a, ha, hgroup⟩ | ⟨hstop, hfull⟩ := faEncLoop_group (n := j + 3 * q) htab hreg hn (hcoded.of_suffix hsuffix) hr
    · obtain ⟨r', hr', hrest⟩ | ⟨hstop, hfull⟩ := faEncLoop_groups htab hreg hcoded q (by omega) hgroup
      · exact .inl ⟨r', ha.trans hr', hrest⟩
      · exact .inr ⟨ha.trans hstop, hfull⟩
    · have hmore := streamBytes_le_of_suffix (s := s) .fa hsuffix
      exact .inr ⟨hstop, hfull.trans_le hmore⟩

/-- In the group or remainder of the last symbol of frequency 0 the loop gets no further (43 R190). -/
theorem faEncLoop_stops_in_group (htab : s.FaTables) (hreg : s.RegionsOk) (h : s.LastUncoded i) : ∀ {n : Nat}, i < n → n ≤ i + 3 →
    n ≤ s.nSrc.toNat → s.FaEncoded (s.sourceBytes.drop n) 7 r →
    faEncLoop s s.aSrc.toNat s.aBuf.toNat n r = .error .zeroFrequencySymbol
  | 1, hin, _, hn, hr => by
    obtain ⟨-, ha⟩ | ⟨hi, -⟩ := faEncStep_meets htab hreg h (j := 0) (by omega) hn (hr.setIdx 1) (by decide)
    · exact bind_of_error ha
    · omega
  | 2, hin, _, hn, hr => by
    obtain ⟨-, ha⟩ | ⟨hi, a, ha, h₁⟩ := faEncStep_meets htab hreg h (j := 1) (by omega) hn (hr.setIdx 2) (by decide)
    · exact bind_of_error ha
    obtain ⟨-, hb⟩ | ⟨hi, -⟩ := faEncStep_meets htab hreg h (j := 0) (by omega) (by omega) (h₁.setIdx 1) (by decide)
    · exact (bind_of_ok ha).trans (bind_of_error hb)
    · omega
  | n + 3, hin, hnear, hn, hr => by
    obtain ⟨-, ha⟩ | ⟨hi, a, ha, h₁⟩ := faEncStep_meets htab hreg h (j := n + 2) (by omega) hn (hr.setIdx (n + 3)) (by decide)
    · exact bind_of_error ha
    obtain ⟨-, hb⟩ | ⟨hi, b, hb, h₂⟩ := faEncStep_meets htab hreg h (j := n + 1) (by omega) (by omega) h₁ (by decide)
    · exact (bind_of_ok ha).trans (bind_of_error hb)
    obtain ⟨-, hc⟩ | ⟨hi, -⟩ := faEncStep_meets htab hreg h (j := n) (by omega) (by omega) h₂ (by decide)
    · exact (bind_of_ok ha).trans ((bind_of_ok hb).trans (bind_of_error hc))
    · omega

/-- A remainder of coded symbols after the groups (43 R189). -/
theorem faEncLoop_remainder (htab : s.FaTables) (hreg : s.RegionsOk) (hcoded : s.SymbolsCoded) :
    ∀ {n : Nat}, n < 3 → n ≤ s.nSrc.toNat → s.FaEncoded (s.sourceBytes.drop n) 7 r →
    ∃ r' k, faEncLoop s s.aSrc.toNat s.aBuf.toNat n r = flushBits s.aBuf.toNat r' ∧ s.FaEncoded s.sourceBytes k r'
  | 0, _, _, hr => ⟨r, 7, rfl, hr⟩
  | 1, _, hn, hr => by
    obtain ⟨a, ha, h₁⟩ := faEncStep_encodes htab hreg hcoded (i := 0) hn (hr.setIdx 1) (by decide)
    exact ⟨a, _, bind_of_ok ha, h₁⟩
  | 2, _, hn, hr => by
    obtain ⟨a, ha, h₁⟩ := faEncStep_encodes htab hreg hcoded (i := 1) hn (hr.setIdx 2) (by decide)
    obtain ⟨b, hb, h₂⟩ := faEncStep_encodes htab hreg hcoded (i := 0) (by omega) (h₁.setIdx 1) (by decide)
    exact ⟨b, _, (bind_of_ok ha).trans (bind_of_ok hb), h₂⟩

/-- Too little room for the bytes of the coded sequence stops the loop (60 R232). -/
theorem faEncLoop_full (htab : s.FaTables) (hreg : s.RegionsOk) (hcoded : s.SymbolsCoded)
    (hfull : s.nBuf.toNat < (s.faStream s.sourceBytes).bits / 8) :
    faEncLoop s s.aSrc.toNat s.aBuf.toNat s.nSrc.toNat s.faEncStart = .error .bufferTooSmall := by
  have hsplit := Nat.mod_add_div s.nSrc.toNat 3
  have hrest : s.Coded (s.sourceBytes.drop (s.nSrc.toNat % 3)) := fun b hb => hcoded b (List.mem_of_mem_drop hb)
  obtain ⟨a, ha, hgroups⟩ | ⟨hstop, -⟩ := hsplit ▸ faEncLoop_groups htab hreg hrest (s.nSrc.toNat / 3) hsplit.le
    (hsplit.symm ▸ faStart_encoded_drop s)
  · obtain ⟨r', k, hr', h⟩ := faEncLoop_remainder htab hreg hcoded (Nat.mod_lt _ (by decide)) (Nat.mod_le _ _) hgroups
    exact ha.trans (hr'.trans (flushBits_stops h hfull))
  · exact hstop

/-- The run of `ENC.FA` (43 R189). -/
theorem faEncode_ends (htab : s.FaTables) (hreg : s.RegionsOk) : s.EncoderEnds .fa 4 s.faEncode where
  fits hcoded hroom := faEncode_completes htab hreg hcoded hroom
  full hcoded hfull := by
    rw [streamBytes_fa] at hfull
    obtain hloop | hroom := Nat.lt_or_ge s.nBuf.toNat ((s.faStream s.sourceBytes).bits / 8)
    · exact bind_of_error (faEncLoop_full htab hreg hcoded hloop)
    · obtain ⟨a, ha, h⟩ := faEncLoop_completes htab hreg hcoded hroom _ (Nat.le_refl _) (faStart_encoded_drop s)
      have hcount := h.packed.count
      have hbelow := h.packed.below
      have hpending := h.pending
      rw [State.bufEnd] at hcount hbelow
      exact (bind_of_ok ha).trans (terminalFlush_stops hpending (by omega))
  uncoded i h := by
    have hi := h.inside
    rw [writtenBehind_fa]
    generalize hj : i + 1 + (s.nSrc.toNat - (i + 1)) % 3 = j
    have hsplit : j + 3 * ((s.nSrc.toNat - (i + 1)) / 3) = s.nSrc.toNat := by omega
    refine bind_of_error ?_
    obtain ⟨a, ha, hgroups⟩ | ⟨hstop, hfull⟩ := hsplit ▸ faEncLoop_groups htab hreg (h.coded_drop (show i < j by omega))
      ((s.nSrc.toNat - (i + 1)) / 3) hsplit.le (hsplit.symm ▸ faStart_encoded_drop s)
    · rw [ha, faEncLoop_stops_in_group htab hreg h (by omega) (by omega) (by omega) hgroups]
      exact congrArg _ (errorAfter_of_le hgroups.fits).symm
    · rw [hstop]
      exact congrArg _ (errorAfter_of_lt hfull).symm

/-! #### The commands -/

/-- A run with an error ends the command with that error (30 R93). -/
theorem finishEncode_error (s : State) (e : ErrorCode) : EndedWith (s.finishEncode (.error e)) e := raise_endedWith _ e

/-- Each encoder ends as its stream and its buffer say. -/
theorem exec_encoder_ends {p : Instr × TVar × Nat} (hp : p ∈ [(Instr.encRef, TVar.ref, 8), (.encFast, .fast, 8), (.encFa, .fa, 4)])
    (hv : s.tvar = p.2.1) (htabs : s.TablesOk) (hreg : s.RegionsOk) :
    s.IntervalsOk ∧ ∃ o, exec p.1 s = .next (s.finishEncode o) ∧ s.EncoderEnds p.2.1 p.2.2 o := by
  simp only [List.mem_cons, List.not_mem_nil, or_false] at hp
  obtain rfl | rfl | rfl := hp
  · have htab : s.IntervalsOk := htabs.1 (by rw [hv]; nofun)
    exact ⟨htab, _, exec_of_ready (i := .encRef) hreg hv, encWords_ends htab (refUpdate_updatesAsRef s) hreg nofun⟩
  · have htab : s.IntervalsOk := htabs.1 (by rw [hv]; nofun)
    exact ⟨htab, _, exec_of_ready (i := .encFast) hreg hv, encWords_ends htab (fastUpdate_updatesAsRef htabs hv) hreg nofun⟩
  · have htab := htabs.faTables hv
    exact ⟨htab.1, _, exec_of_ready (i := .encFa) hreg hv, faEncode_ends htab hreg⟩

/-- A sequence split at its last symbol of frequency 0, and what the encoder then reports. -/
theorem State.EncoderEnds.finishEncode_at_split {least : Nat} {before behind : List Byte} (h : s.EncoderEnds v least o)
    (hsplit : s.sourceBytes = before ++ b :: behind) (hb : s.symFreq b = 0) (hbehind : s.Coded behind) :
    EndedWith (s.finishEncode o) (s.errorAfter (s.streamBytes v (behind.drop (if v = .fa then behind.length % 3 else 0)))) := by
  obtain ⟨hlast, hdrop⟩ := lastUncoded_of_split hsplit hb hbehind
  have hend := h.uncoded _ hlast
  rw [State.writtenBehind, hdrop] at hend
  exact hend ▸ finishEncode_error s _

/-- The three ways an encoder ends after its prologue. -/
theorem State.EncoderEnds.cases {least : Nat} (h : s.EncoderEnds v least o) :
    (s.SymbolsCoded ∧ least + s.streamBytes v s.sourceBytes ≤ s.nBuf.toNat ∧ (s.finishEncode o).err = .none)
      ∨ (s.SymbolsCoded ∧ s.nBuf.toNat < least + s.streamBytes v s.sourceBytes ∧ EndedWith (s.finishEncode o) .bufferTooSmall)
      ∨ (¬ s.SymbolsCoded ∧ ∃ i, s.LastUncoded i
        ∧ EndedWith (s.finishEncode o) (s.errorAfter (s.streamBytes v (s.writtenBehind v i)))) := by
  by_cases hcoded : s.SymbolsCoded
  · obtain hfull | hroom := Nat.lt_or_ge s.nBuf.toNat (least + s.streamBytes v s.sourceBytes)
    · exact .inr (.inl ⟨hcoded, hfull, h.full hcoded hfull ▸ finishEncode_error s _⟩)
    · obtain ⟨r, rfl⟩ := h.fits hcoded hroom
      exact .inl ⟨hcoded, hroom, rfl⟩
  · obtain ⟨before, behind, b, hsplit, hb, hbehind⟩ := exists_last_uncoded hcoded
    obtain ⟨hlast, -⟩ := lastUncoded_of_split hsplit hb hbehind
    exact .inr (.inr ⟨hcoded, _, hlast, h.uncoded _ hlast ▸ finishEncode_error s _⟩)

/-- Settles O50: with coded symbols the room for the stream decides, and else the last symbol of frequency 0 is reported unless the bytes before
its step do not fit. -/
theorem encoderErrors : Obligations.EncoderErrors := by
  intro s p hp hv htabs hreg
  obtain ⟨htab, o, hexec, hends⟩ := exec_encoder_ends hp hv htabs hreg
  have hlast {before behind : List Byte} {b : Byte} (hsplit : s.sourceBytes = before ++ b :: behind) (hb : s.symFreq b = 0)
      (hbehind : s.Coded behind) := hends.finishEncode_at_split hsplit hb hbehind
  refine ⟨_, hexec, ?_⟩
  obtain ⟨hcoded, hroom, hnone⟩ | ⟨hcoded, hfull, hended⟩ | ⟨hnot, i, hi, hended⟩ := hends.cases
  · exact ⟨.inl hnone, fun hnot => absurd hcoded hnot, fun hnot => absurd hcoded hnot, fun _ herr => absurd hnone herr,
      fun _ => iff_of_true hnone hroom, fun _ _ _ => hlast, fun hsmall => by omega⟩
  · have herr := hended.1.trans_ne (show ErrorCode.bufferTooSmall ≠ .none by decide)
    exact ⟨.inr (.inl hended), fun _ => herr, fun hnot => absurd hcoded hnot, fun _ _ => hended,
      fun _ => iff_of_false herr (Nat.not_le.mpr hfull), fun _ _ _ => hlast, fun _ => herr⟩
  · have hkind := (errorAfter_eq s (s.streamBytes p.2.1 (s.writtenBehind p.2.1 i))).imp (fun he => he ▸ hended) (fun he => he ▸ hended)
    have herr : (s.finishEncode o).err ≠ .none := by obtain ⟨he, -⟩ | ⟨he, -⟩ := hkind <;> rw [he] <;> decide
    exact ⟨.inr hkind, fun _ => herr, fun _ hlarge => errorAfter_of_le (hi.writtenBehind_fits htab hlarge _) ▸ hended,
      fun hcoded => absurd hcoded hnot, fun hcoded => absurd hcoded hnot, fun _ _ _ => hlast, fun _ => herr⟩

end Sys2Proof.Machine
end

/-! ### What stops a step, what changes the flags, and the fresh core

Only a host memory access outside memory stops the machine (30 R105, log 9). The status fields are written by a command and by Reset alone
(70 R261), and Reset leaves them so that no command that reads a table is ready (70 R260). -/

section
namespace Sys2Proof.Machine

variable {s t : State} {op : HostOp} {i : Instr}

/-! #### Steps that stop -/

/-- A write of `CMD` never stops: an illegal word is an error, and a command completes (30 R92, R95). -/
theorem runCommand_next (s : State) (w : Word) : ∃ t, s.runCommand w = .next t := by
  cases hdecode : decode w with
  | ok i =>
    obtain ⟨t, hexec, -⟩ := everyCommandCompletes i (s.startCommand w)
    exact ⟨t, by rw [State.runCommand, hdecode]; exact hexec⟩
  | error e => exact ⟨_, by rw [State.runCommand, hdecode]⟩

theorem State.hostMemRead_of_le {a : Word} (ha : s.memSize ≤ a.toNat) : s.hostMemRead a = .fault (.hostAddressOutsideMemory a) :=
  if_neg (Nat.not_lt.mpr ha)

theorem State.hostMemWrite_of_le {a : Word} (ha : s.memSize ≤ a.toNat) (b : Byte) :
    s.hostMemWrite a b = .fault (.hostAddressOutsideMemory a) :=
  if_neg (Nat.not_lt.mpr ha)

/-- The operation accesses buffer memory at address `a` (30 R105). -/
def AccessesMemoryAt (op : HostOp) (a : Word) : Prop := op = .memRead a ∨ ∃ b, op = .memWrite a b

/-- A host operation that starts no command answers a next state, or it is an access outside memory, which faults (30 R105, log 9). -/
theorem hostOp_next_or_outside (s : State) (op : HostOp) :
    (∃ t, s.hostOp op = .next t)
      ∨ ∃ a, AccessesMemoryAt op a ∧ s.memSize ≤ a.toNat ∧ s.hostOp op = .fault (.hostAddressOutsideMemory a) := by
  cases op with
  | reset | regRead i | regWrite i v => exact .inl ⟨_, rfl⟩
  | memRead a =>
    obtain ha | ha := Nat.lt_or_ge a.toNat s.memSize
    · exact .inl ⟨_, State.hostMemRead_of_lt ha⟩
    · exact .inr ⟨a, .inl rfl, ha, State.hostMemRead_of_le ha⟩
  | memWrite a b =>
    obtain ha | ha := Nat.lt_or_ge a.toNat s.memSize
    · exact .inl ⟨_, State.hostMemWrite_of_lt ha b⟩
    · exact .inr ⟨a, .inr ⟨b, rfl⟩, ha, State.hostMemWrite_of_le ha b⟩

/-- Settles O7: an idle core and a command answer a next state, and of the other host operations only an access outside memory does not. -/
theorem stepStopsOnlyOutsideMemory : Obligations.StepStopsOnlyOutsideMemory := by
  intro s
  obtain ⟨-, ho⟩ | ⟨op, rest, w, -, -, ho⟩ | ⟨op, rest, hscript, -, ho⟩ := step_cases (s := s) rfl
  · exact .inl ⟨s, ho⟩
  · exact .inl (ho ▸ runCommand_next _ w)
  · rw [ho, hscript]
    refine (hostOp_next_or_outside _ op).imp_right fun ⟨a, haccess, hout, hfault⟩ => ⟨a, rest, ?_, hout, hfault⟩
    exact haccess.imp (congrArg (· :: rest)) (Exists.imp fun _ => congrArg (· :: rest))

/-! #### Steps that keep the flags -/

/-- `SSTATE`, `TVAR`, `DONE` and `ERR` are the same in both states (10 R23, R41, R42). -/
def SameFlags (s t : State) : Prop := t.sstate = s.sstate ∧ t.tvar = s.tvar ∧ t.done = s.done ∧ t.err = s.err

theorem SameFlags.refl (s : State) : SameFlags s s := ⟨rfl, rfl, rfl, rfl⟩

theorem regRead_sameFlags (s : State) (i : BitVec 4) : SameFlags s (s.regRead i) := by
  unfold State.regRead
  split <;> exact SameFlags.refl s

theorem writeReg_sameFlags (s : State) (v : Word) (r : Reg) : SameFlags s (s.writeReg v r) := by
  cases r <;> exact SameFlags.refl s

theorem hostMemRead_sameFlags {a : Word} (ht : s.hostMemRead a = .next t) : SameFlags s t := by
  unfold State.hostMemRead at ht
  split at ht <;> cases ht
  exact SameFlags.refl s

theorem hostMemWrite_sameFlags {a : Word} {b : Byte} (ht : s.hostMemWrite a b = .next t) : SameFlags s t := by
  unfold State.hostMemWrite at ht
  split at ht <;> cases ht
  exact SameFlags.refl s

/-- Of the host operations that start no command only Reset changes the flags (70 R261). -/
theorem hostOp_sameFlags (hop : op ≠ .reset) (ht : s.hostOp op = .next t) : SameFlags s t := by
  cases op with
  | reset => exact absurd rfl hop
  | regRead i => cases ht; exact regRead_sameFlags s i
  | regWrite i v => cases ht; exact writeReg_sameFlags s v _
  | memRead a => exact hostMemRead_sameFlags ht
  | memWrite a b => exact hostMemWrite_sameFlags ht

/-- Only a write of `CMD` starts a command (30 R99). -/
theorem eq_regWrite_of_commandOf {w : Word} (h : commandOf op = some w) : op = .regWrite 0 w := by
  cases op with
  | regWrite i v =>
    simp only [commandOf, Option.ite_none_right_eq_some, Option.some.injEq] at h
    obtain ⟨hi, rfl⟩ := h
    rw [Reg.ofIndex_eq_cmd.mp hi]
  | reset | regRead | memRead | memWrite => cases h

theorem commandOf_eq_none (h : ∀ w, op ≠ .regWrite 0 w) : commandOf op = none :=
  Option.eq_none_iff_forall_ne_some.mpr fun w hw => h w (eq_regWrite_of_commandOf hw)

/-- A host operation at the head of the script that is no write of `CMD` is performed without a command. -/
theorem step_of_no_command {rest : List HostOp} (hscript : s.script = op :: rest) (h : ∀ w, op ≠ .regWrite 0 w) :
    step s = State.hostOp { s with script := rest } op := by
  rw [step_of_script hscript, State.perform, commandOf_eq_none h]

/-- Settles O17: Reset keeps memory, the other host operations that start no command keep the flags, and an empty script keeps all. -/
theorem onlyCommandsAndResetChangeFlags : Obligations.OnlyCommandsAndResetChangeFlags := by
  refine ⟨fun s t rest hscript ht => ?_, fun s t op rest hscript hreset hcmd ht => ?_, fun s hidle => ?_⟩
  · cases (step_of_no_command hscript nofun).symm.trans ht
    exact State.hostReset_mem _
  · exact (hostOp_sameFlags hreset ((step_of_no_command hscript hcmd).symm.trans ht) :)
  · rw [step, State.stepHost, hidle]

/-! #### The fresh core -/

/-- Zero addresses and lengths are legal regions, and 16384 is a legal total (10 R46, 60 R235). -/
theorem resetWith_operandsLegal (top : Word) (i : Instr) : operandsLegal (State.resetWith top) i := by
  have hregion : (State.resetWith top).RegionValid 0 0 := Nat.zero_le _
  have hapart : ¬ Overlap 0 0 0 0 := by decide
  have htotal : LegalTotal 16384 := by decide
  cases i with
  | ftCount | initRef | initFast | initFa => exact hregion
  | ftNorm => exact htotal
  | tblRef | tblFast | tblFa => trivial
  | encRef | encFast | encFa | decRef | decFast | decFa => exact ⟨hregion, hregion, hapart⟩

/-- Without statistics and tables only the commands that need neither are ready (30 R104). -/
theorem not_needsMet_of_invalid (hs : s.sstate = .invalid) (hv : s.tvar = .none) (hi : i ∉ [Instr.ftCount, .initRef, .initFast, .initFa]) :
    ¬ needsMet s i := by
  cases i with
  | ftCount | initRef | initFast | initFa => exact absurd (by decide) hi
  | ftNorm | tblRef | tblFast | tblFa => simp [needsMet, hs]
  | encRef | encFast | encFa | decRef | decFast | decFa => simp [needsMet, hv]

/-- Settles O16: after reset every operand is legal, and there are neither statistics nor tables. -/
theorem freshCoreRefusesTableReaders : Obligations.FreshCoreRefusesTableReaders :=
  fun top i hi => exec_of_unmet_needs (resetWith_operandsLegal top i) (not_needsMet_of_invalid rfl rfl hi)

end Sys2Proof.Machine
end

/-! ### The placed command is the next one to run

A command word fits the 32-bit format, so the host's placing of its bits puts that very word at the head of the script (log 1, log 14). -/

section
namespace Sys2Proof.Machine

/-- A word is made of its own 32 bits (30 R90). -/
theorem commandBits_toNat (w : Word) : commandBits 32 w.toNat = some w := by
  have hlow : w.toNat % 2 ^ 32 = w.toNat := Nat.mod_eq_of_lt w.isLt
  rw [commandBits, hlow, if_pos w.isLt, BitVec.ofNat_toNat, BitVec.setWidth_eq]

/-- Placing a word puts its write to `CMD` before the host's other operations. -/
theorem State.withFetchWord_script (s : State) (w : Word) : (s.withFetchWord 32 w.toNat).script = .regWrite 0 w :: s.script := by
  simp only [State.withFetchWord, State.placeCommand, commandBits_toNat, Option.getD_some]

/-- Settles O6: the placed word is a write of `CMD` at the head of the script, and the decoder reads the command back. -/
theorem placedCommandRunsNext : Obligations.PlacedCommandRunsNext :=
  fun s i => stepRunsDecodedCommand _ 0 (encode i) s.script i (s.withFetchWord_script _) rfl (decode_encode i)

end Sys2Proof.Machine
end
